-- ==== Sys2Proof/Word.lean ====
section
/-! DEFINITION. The types of the values the addrconv codec block moves (spec/00_scope.md R12, R13). -/

namespace Sys2Proof

/-- A byte, 8 bits unsigned (R13). A symbol is a byte that a datapath treats as a 5-bit value. -/
abbrev Byte := BitVec 8

/-- A window word: every host access moves 32 bits (spec/20_memory.md R52). -/
abbrev Word := BitVec 32

/-- A byte string or a string of ASCII characters, index 0 first (R13). -/
abbrev Bytes := List Byte

/-- The eight address types, in the order of R12. -/
inductive AddrType where
  | unknown
  | p2pkh
  | p2sh
  | p2shP2wpkh
  | p2shP2wsh
  | p2wpkh
  | p2wsh
  | p2pk
  deriving DecidableEq, Repr

end Sys2Proof
end

