-- ==== Sys2Proof/Config.lean ====
section
/-! DEFINITION. What one implementation of the block fixes (spec/00_scope.md R5) and the free values
(spec/10_state.md R41, spec/70_reset_and_hazards.md R240). -/

namespace Sys2Proof

/-- The OPEN parameters of R5 that are fixed for an instance of the block. They are plain data of the
state that no step changes (log 1), so every claim about all states is a claim about all of them. -/
structure Config where
  /-- `BASE`, the address of the 64 KiB window. -/
  base : Nat
  /-- `MAX_IN`, the capacity of the IN buffer in bytes. -/
  maxIn : Nat
  /-- `MAX_AUX`, the capacity of the AUX buffer in bytes. -/
  maxAux : Nat
  /-- `MAX_OUT`, the capacity of the OUT buffer in bytes. -/
  maxOut : Nat
  deriving DecidableEq, Repr

/-- R5: each capacity is an integer from 1 to 4096 and `BASE` is 64 KiB-aligned. -/
def Config.wf (c : Config) : Bool :=
  c.base % 0x10000 == 0 && 1 ≤ c.maxIn && c.maxIn ≤ 4096 && 1 ≤ c.maxAux && c.maxAux ≤ 4096 &&
    1 ≤ c.maxOut && c.maxOut ≤ 4096

/-- The capacities that spec/95_test_vectors.md section 8 assumes for its host programs, at base 0.
DESIGN CHOICE (log 1, unsafe for a claim that uses the numbers): R5 leaves all four open. -/
def Config.testVectors : Config := { base := 0, maxIn := 256, maxAux := 256, maxOut := 256 }

/-- FREE VALUE (R41, spec/93_implementation_defined.md U1 and U2): the `n`-th byte drawn where the spec
gives a buffer byte no value. It has no body, so nothing can be proved of its value (log 2, safe). -/
opaque Config.freeByte : Nat → Byte

/-- FREE VALUE (R240): `LAT`, a function of the command word, its two snapshots and the draw's number,
so that two runs of one command may take different times. Acceptance adds 1, since a latency is at
least 1 (log 6, safe). -/
opaque Config.latency : Word → Option Bytes → Option Bytes → Nat → Nat

end Sys2Proof
end

