-- ==== Sys2Proof/Syntax.lean ====
section
/-! DEFINITION. The 14 commands of the block (spec/30_encoding.md R72): one constructor for each row of
spec/opcode_table.json, with the fields the row uses. -/

namespace Sys2Proof

/-- A command. `FROM` and `TO` are naturals (R76); that each fits its 4-bit field is `Instr.wf`. -/
inductive Instr where
  /-- OP 0x01, spec/40_base58check.md R104. -/
  | b58Enc
  /-- OP 0x02, R105. -/
  | b58Dec
  /-- OP 0x03, R106; `VER` is the version byte. -/
  | b58chkEnc (ver : Byte)
  /-- OP 0x04, R108. -/
  | b58chkDec
  /-- OP 0x10, spec/41_bitpack.md R133; `FROM`, `TO` and `PAD`. -/
  | convbits (fromBits toBits : Nat) (pad : Bool)
  /-- OP 0x20, spec/42_cashaddr_checksum.md R152. -/
  | polymod
  /-- OP 0x21, R156. -/
  | caExpand
  /-- OP 0x22, R158. -/
  | caCrchk
  /-- OP 0x23, R160. -/
  | caVerify
  /-- OP 0x30, spec/43_cashaddr_codec.md R173; `ATYPE` is the address type. -/
  | caPack (atype : AddrType)
  /-- OP 0x31, R175. -/
  | caEnc
  /-- OP 0x32, R180. -/
  | caDec
  /-- OP 0x33, R183; `ATYPE`. -/
  | caChkenc (atype : AddrType)
  /-- OP 0x34, R185. -/
  | caChkdec
  deriving DecidableEq, Repr

end Sys2Proof
end

