-- ==== Sys2Proof/Machine/State.lean ====
section
/-! DEFINITION. The state of one instance of the block with its host and platform (spec/10_state.md R20 to
R42), the completion codes' names, and the reasons a step can stop. INVENTORY.md lists every field. -/

namespace Sys2Proof.Machine

/-- A buffer's written bytes, by index: indices strictly rising. An unlisted index was never written
since reset, and holds no value (R40 and R41: the spec's `none`). -/
abbrev Memory := List Host.Cell

/-- The engine phase (R34). `STATUS.BUSY` is `PHASE = BUSY`. -/
inductive Phase where
  | idle
  | busy
  deriving DecidableEq, Repr

/-- The three byte buffers (R33). -/
inductive Buf where
  | inp
  | aux
  | out
  deriving DecidableEq, Repr

/-- The hardware reset input and the supply (spec/70_reset_and_hazards.md R230,
spec/60_exceptions.md R224). -/
inductive ResetLine where
  /-- Normal operation: the block admits host accesses. -/
  | released
  /-- The platform holds reset: the block admits no host access. -/
  | asserted
  /-- Power was lost; a hardware reset is required. -/
  | powerLost
  deriving DecidableEq, Repr

/-- Who moves next (spec/70_reset_and_hazards.md R241, log 7). -/
inductive Turn where
  /-- The host issues its next instruction. -/
  | host
  /-- An engine tick. -/
  | engine
  /-- The platform asserts the reset input. -/
  | assertReset
  /-- The platform releases the reset input. -/
  | releaseReset
  /-- The platform takes the power away. -/
  | powerDown
  deriving DecidableEq, Repr

/-- A host instruction (spec/30_encoding.md R80). `addr` is an address of the host's address space and
`width` the access's width in bytes; R80's own forms have `addr = BASE + off` and `width = 4`. Registers
and strings of the host are numbered (log 9). -/
inductive HostOp where
  /-- `MemWrite(addr, width, v)`. -/
  | write (addr width : Nat) (v : Word)
  /-- `rN <- MemRead(addr, width)`. -/
  | read (addr width : Nat) (dst : Nat)
  /-- Repeat `r <- MemRead(addr, width)` until `r & mask = val`. -/
  | poll (addr width : Nat) (mask val : Word)
  /-- The program's expected value of a register: a check, not an access. -/
  | assertReg (src : Nat) (imm : Word)
  /-- The rest of `readbuf OUT -> s` (R81): read `OUT[k]` for `k` from `i` up to `rL[15:0]`. -/
  | collect (lenReg i str : Nat)
  /-- `loadbuf buf, s` for a string `s` the program has collected (spec/95_test_vectors.md P1, P2). -/
  | loadStr (buf : Buf) (str : Nat)
  deriving DecidableEq, Repr

/-- What a word of the window is (spec/20_memory.md R51). -/
inductive WindowWord where
  | id
  | ctrl
  | status
  | cmd
  | inLen
  | auxLen
  | outLen
  | res0
  | res1
  | capIn
  | capAux
  | capOut
  /-- A reserved word: reads as 0, ignores writes. -/
  | reserved
  /-- The word of byte `i` of a buffer, `i` below its capacity. -/
  | bufByte (b : Buf) (i : Nat)
  deriving DecidableEq, Repr

/-- The errors of spec/60_exceptions.md R201, by the spec's names. -/
inductive ErrorCode where
  | invalidCharacter
  | checksumMismatch
  | tooShort
  | paddingError
  | invalidChecksum
  | unsupportedAddressType
  | unsupportedHashSize
  | incorrectDataLength
  | malformedAddressString
  /-- Reserved: never raised by the block. -/
  | unknownAddressType
  /-- Reserved: never raised by the block. -/
  | unrecognizedScriptShape
  | illegalCommand
  | parameterError
  | capacityExceeded
  deriving DecidableEq, Repr

/-- What a command that succeeds returns: `Ok(out, aux', res0, res1)` (spec/00_scope.md R16). -/
structure Completed where
  out : Bytes
  aux : Option Bytes
  res0 : Word
  res1 : Word
  deriving DecidableEq, Repr

/-- The result of `Exec(cmd, IN, AUX)` (R16): `Ok(…)` or `Err(code)`. -/
abbrev Result := Except ErrorCode Completed

/-- The state (R40's record, then the platform's reset input, the host, and the model's own fields). -/
structure State where
  /-- The instance's parameters (R5): no step changes them. -/
  cfg : Config
  /-- `CTRL.IE` (R23). -/
  ie : Bool
  /-- `PHASE` (R34). -/
  phase : Phase
  /-- `STATUS.DONE` (R25). -/
  done : Bool
  /-- `STATUS.OVR` (R25). -/
  ovr : Bool
  /-- `STATUS.ECODE` (R25). `ERR` is derived from it. -/
  ecode : Byte
  /-- `IN_LEN` (R27). -/
  inLen : BitVec 16
  /-- `AUX_LEN` (R28). -/
  auxLen : BitVec 16
  /-- `OUT_LEN` (R29). -/
  outLen : BitVec 16
  /-- `RES0` (R30). -/
  res0 : Word
  /-- `RES1` (R30). -/
  res1 : Word
  /-- The IN buffer (R33). -/
  inBuf : Memory
  /-- The AUX buffer (R33). -/
  auxBuf : Memory
  /-- The OUT buffer (R33). -/
  outBuf : Memory
  /-- `CMDL`, the latched command word (R34); meaningful only while BUSY. -/
  cmdl : Word
  /-- `SNAP_IN` (R34); `none` when IN_LEN was above MAX_IN. -/
  snapIn : Option Bytes
  /-- `SNAP_AUX` (R34); `none` when AUX_LEN was above MAX_AUX. -/
  snapAux : Option Bytes
  /-- `REM`, the cycles left to completion (R34). -/
  rem : Nat
  /-- The hardware reset input (spec/70_reset_and_hazards.md R230). -/
  line : ResetLine
  /-- The host's instructions still to issue, in program order (spec/20_memory.md R59). -/
  host : List HostOp
  /-- The host's scratch registers (spec/30_encoding.md R80), by number, numbers rising; an unlisted one
  holds 0 (log 9). -/
  hostRegs : List (Nat × Word)
  /-- The byte strings the host has collected (R81), by number, numbers rising; an unlisted one is empty
  (log 9). -/
  hostStrs : List (Nat × Bytes)
  /-- A host `assert` has met a register that does not hold its value: the model's own record of it (log 9). -/
  hostFailed : Bool
  /-- Who moves next; when it is used up the fair default of the step applies (log 7). -/
  turns : List Turn
  /-- The number of free values drawn so far: the model's own counter (log 3). -/
  draws : Nat
  deriving DecidableEq, Repr

/-- Why the machine stops. -/
inductive Fault where
  /-- Raised by a host access whose address is outside the block's window: the block has no such
  address (spec/20_memory.md R50). Safe: the model stops where the platform would serve another unit
  (log 10). -/
  | outsideWindow
  deriving DecidableEq, Repr

/-- Why the model gives a step no meaning. -/
inductive Refusal where
  /-- Raised by `exec` for a command with no meaning yet. Safe. No arm uses it in this model. -/
  | notModelled (mnemonic : String)
  /-- Raised by a host access that is not 32 bits wide or not at a multiple of 4
  (spec/20_memory.md R52, spec/93_implementation_defined.md U3). Safe. -/
  | unadmittedAccess
  /-- Raised by a host access while the reset input is asserted
  (spec/70_reset_and_hazards.md R230, U4). Safe. -/
  | accessDuringReset
  /-- Raised by a host or engine step after a power-down and before a hardware reset
  (spec/60_exceptions.md R224, U16). Safe. -/
  | poweredDown
  deriving DecidableEq, Repr

/-- A step's outcome. -/
abbrev Stepped := Host.Outcome State Fault Refusal

/-- The state right after a hardware reset of an instance with parameters `c` (R42). No buffer byte
holds a value (R41). `CMDL`, the snapshots and `REM` have no meaning while IDLE: DESIGN CHOICE, log 14. The
host's program, its registers, the turns and the draws are empty: DESIGN CHOICE, logs 3, 7, 9. -/
def State.resetOf (c : Config) : State where
  cfg := c
  ie := false
  phase := .idle
  done := false
  ovr := false
  ecode := 0
  inLen := 0
  auxLen := 0
  outLen := 0
  res0 := 0
  res1 := 0
  inBuf := []
  auxBuf := []
  outBuf := []
  cmdl := 0
  snapIn := none
  snapAux := none
  rem := 0
  line := .released
  host := []
  hostRegs := []
  hostStrs := []
  hostFailed := false
  turns := []
  draws := 0

/-- The machine right after reset, for the capacities of spec/95_test_vectors.md section 8 (log 1). -/
def State.reset : State := State.resetOf Config.testVectors

end Sys2Proof.Machine
end

