-- ==== Sys2Proof/Machine/Flags.lean ====
section
/-! DEFINITION. The completion codes and the STATUS and CTRL fields (spec/10_state.md R23 to R25, R39,
spec/60_exceptions.md R201, R210). -/

namespace Sys2Proof.Machine

/-- The 8-bit completion code of an error (R201). 0x00 is success and no error's code. -/
def ErrorCode.code : ErrorCode → Byte
  | .invalidCharacter => 0x01#8
  | .checksumMismatch => 0x02#8
  | .tooShort => 0x03#8
  | .paddingError => 0x04#8
  | .invalidChecksum => 0x05#8
  | .unsupportedAddressType => 0x06#8
  | .unsupportedHashSize => 0x07#8
  | .incorrectDataLength => 0x08#8
  | .malformedAddressString => 0x09#8
  | .unknownAddressType => 0x0A#8
  | .unrecognizedScriptShape => 0x0B#8
  | .illegalCommand => 0x10#8
  | .parameterError => 0x11#8
  | .capacityExceeded => 0x12#8

/-- `STATUS.BUSY` (R25): `PHASE = BUSY`. -/
def State.busy (s : State) : Bool := s.phase == .busy

/-- `STATUS.ERR` (R25): `ECODE != 0` at all times. -/
def State.err (s : State) : Bool := s.ecode != 0

/-- The output line `IRQ = CTRL.IE & STATUS.DONE` (R39, R210). -/
def State.irq (s : State) : Bool := s.ie && s.done

/-- A flag as a word, at bit `k`. -/
def flagBit (k : Nat) (b : Bool) : Word := (BitVec.ofBool b).setWidth 32 <<< k

/-- What a read of STATUS returns (R25): BUSY, DONE, ERR, OVR in bits 0 to 3, ECODE in bits 15:8. -/
def statusWord (s : State) : Word :=
  flagBit 0 s.busy ||| flagBit 1 s.done ||| flagBit 2 s.err ||| flagBit 3 s.ovr ||| (s.ecode.setWidth 32 <<< 8)

/-- What a read of CTRL returns (R24): `zext_32(IE)`. -/
def ctrlWord (s : State) : Word := flagBit 0 s.ie

/-- A write of `v` to STATUS acts only through the W1C bits DONE (bit 1) and OVR (bit 3) (R25). -/
def clearStatus (v : Word) (s : State) : State :=
  { s with done := s.done && !v.getLsbD 1, ovr := s.ovr && !v.getLsbD 3 }

end Sys2Proof.Machine
end

