-- ==== Sys2Proof/Machine/Tables.lean ====
section
/-! DEFINITION. The fixed constants (spec/00_scope.md R5, R7, R8, R10, R11; spec/10_state.md R22) and the
byte classes of spec/43_cashaddr_codec.md. The tables are the spec's own, which marks the first three as
general knowledge (log 18). -/

namespace Sys2Proof.Machine

/-- The ASCII bytes of a list of characters (R13). -/
def ascii (cs : List Char) : Bytes := cs.map fun c => BitVec.ofNat 8 c.toNat

/-- The Base58 alphabet (R7): digit value `v` is the `v`-th byte. -/
def base58Alphabet : Bytes :=
  ascii ['1', '2', '3', '4', '5', '6', '7', '8', '9', 'A', 'B', 'C', 'D', 'E', 'F', 'G', 'H', 'J', 'K', 'L'] ++
  ascii ['M', 'N', 'P', 'Q', 'R', 'S', 'T', 'U', 'V', 'W', 'X', 'Y', 'Z', 'a', 'b', 'c', 'd', 'e', 'f', 'g'] ++
  ascii ['h', 'i', 'j', 'k', 'm', 'n', 'o', 'p', 'q', 'r', 's', 't', 'u', 'v', 'w', 'x', 'y', 'z']

/-- The alphabet's zero-symbol, `1` (R7). -/
def zeroSymbol : Byte := 0x31#8

/-- The CashAddr charset (R8): 5-bit value `v` is the `v`-th byte. -/
def charset : Bytes :=
  ascii ['q', 'p', 'z', 'r', 'y', '9', 'x', '8', 'g', 'f', '2', 't', 'v', 'd', 'w', '0'] ++
  ascii ['s', '3', 'j', 'n', '5', '4', 'k', 'h', 'c', 'e', '6', 'm', 'u', 'a', '7', 'l']

/-- The PolyMod generator constants `G[0]` to `G[4]` (R10). -/
def polyGenerators : List (BitVec 40) :=
  [0x98F2BC8E61#40, 0x79B76D99E2#40, 0xF33E5FB3C4#40, 0xAE2EABE2A8#40, 0x1E4F43E470#40]

/-- The size code of a hash of `n` bytes, from the table of its length in bits (R11; R171). -/
def sizeCode (n : Nat) : Option Byte :=
  match 8 * n with
  | 160 => some 0
  | 192 => some 1
  | 224 => some 2
  | 256 => some 3
  | 320 => some 4
  | 384 => some 5
  | 448 => some 6
  | 512 => some 7
  | _ => none

/-- `MIN_B58CHK_LEN` (R5, spec/40_base58check.md R109; conflict C2). -/
def minB58chkLen : Nat := 5

/-- The constant that ID reads as, `B58C` (spec/10_state.md R22). -/
def idValue : Word := 0x42353843#32

/-- The CashAddr separator `:` (R17). -/
def separator : Byte := 0x3A#8

/-- A digit byte, 0x30 to 0x39 (head of spec/43_cashaddr_codec.md). -/
def isDigit (b : Byte) : Bool := 0x30 ≤ b.toNat && b.toNat ≤ 0x39

/-- An upper-case letter, 0x41 to 0x5A. -/
def isUpper (b : Byte) : Bool := 0x41 ≤ b.toNat && b.toNat ≤ 0x5A

/-- A lower-case letter, 0x61 to 0x7A. -/
def isLower (b : Byte) : Bool := 0x61 ≤ b.toNat && b.toNat ≤ 0x7A

/-- `lc(b)`: an upper-case letter in lower case, any other byte as it is. -/
def lowerCase (b : Byte) : Byte := if isUpper b then b + 0x20#8 else b

end Sys2Proof.Machine
end

