-- ==== Sys2Proof/Machine/Ops.lean ====
section
/-! DEFINITION. The shared operations over buffers and registers: reading and writing buffer bytes, free
values, acceptance (spec/20_memory.md R56), completion (R58), the block's equivalents of taking an
exception and returning from one (spec/60_exceptions.md R203, R213, R214), and reset
(spec/70_reset_and_hazards.md R230, R231). -/

namespace Sys2Proof.Machine

/-! ## Sorted tables and buffers -/

/-- The entry of a sorted table at a key. -/
def tableGet {α : Type} : List (Nat × α) → Nat → Option α
  | [], _ => none
  | (k, v) :: rest, key => if k = key then some v else tableGet rest key

/-- Write an entry, keeping the keys strictly rising. -/
def tableSet {α : Type} : List (Nat × α) → Nat → α → List (Nat × α)
  | [], key, x => [(key, x)]
  | (k, v) :: rest, key, x =>
    if key < k then (key, x) :: (k, v) :: rest
    else if key = k then (key, x) :: rest
    else (k, v) :: tableSet rest key x

/-- The byte at index `i` of a buffer: `none` if it was never written since reset (R40, R41). -/
def Memory.read (m : Memory) (i : Nat) : Option Byte := tableGet m i

/-- Store a byte at index `i`. -/
def Memory.write (m : Memory) (i : Nat) (b : Byte) : Memory := tableSet m i b

/-- Store a byte string from index `i` up. -/
def Memory.writeBytes (m : Memory) (i : Nat) : Bytes → Memory
  | [] => m
  | b :: bs => Memory.writeBytes (m.write i b) (i + 1) bs

/-- The buffer in which exactly the bytes of a string, from index 0, hold a value. -/
def Memory.ofBytes (bs : Bytes) : Memory := Memory.writeBytes [] 0 bs

/-- The entries' indices are strictly rising and below a bound. -/
def Memory.wfFrom (lo hi : Nat) : Memory → Bool
  | [] => true
  | (k, _) :: rest => decide (lo ≤ k) && decide (k < hi) && Memory.wfFrom (k + 1) hi rest

/-- The canonical form of a buffer of capacity `cap`: indices strictly rising, each below the capacity.
An unlisted index reads as no value, so no entry can equal what an unlisted one reads as. -/
def Memory.wf (cap : Nat) (m : Memory) : Bool := Memory.wfFrom 0 cap m

/-- The buffer of a state. -/
def State.buf (s : State) : Buf → Memory
  | .inp => s.inBuf
  | .aux => s.auxBuf
  | .out => s.outBuf

/-- The host's scratch register `rN` (spec/30_encoding.md R80). The spec gives it no reset value: DESIGN
CHOICE (log 9, unsafe), one that nothing has loaded holds 0. -/
def State.hostReg (s : State) (n : Nat) : Word := (tableGet s.hostRegs n).getD 0

/-- The host's byte string (R81). DESIGN CHOICE (log 9, unsafe): one never collected is empty. -/
def State.hostStr (s : State) (n : Nat) : Bytes := (tableGet s.hostStrs n).getD []

/-- A buffer's capacity (spec/00_scope.md R5). -/
def capacity (c : Config) : Buf → Nat
  | .inp => c.maxIn
  | .aux => c.maxAux
  | .out => c.maxOut

/-! ## Bytes with no specified value (R41) -/

/-- The byte a read finds, with the number of draws so far: a byte with no value is drawn freely. -/
def byteOrDraw (o : Option Byte) (draws : Nat) : Byte × Nat :=
  match o with
  | some b => (b, draws)
  | none => (Config.freeByte draws, draws + 1)

/-- The `n` bytes from index `i` up, each byte with no value drawn freely. -/
def Memory.operand (m : Memory) : (n i draws : Nat) → Bytes × Nat
  | 0, _, draws => ([], draws)
  | n + 1, i, draws =>
    let b := byteOrDraw (m.read i) draws
    let r := Memory.operand m n (i + 1) b.2
    (b.1 :: r.1, r.2)

/-- A snapshot of `len` bytes of a buffer of capacity `cap` (R56): `none` when the length is above it. -/
def Memory.snapshot (m : Memory) (cap len draws : Nat) : Option Bytes × Nat :=
  if len ≤ cap then
    let r := m.operand len 0 draws
    (some r.1, r.2)
  else (none, draws)

/-! ## Acceptance (R56) -/

/-- Acceptance of the command word `v`, in one indivisible step. The latency is a free value, at least 1
(spec/70_reset_and_hazards.md R240, log 6). OVR and CTRL are unchanged. -/
def accept (v : Word) (s : State) : State :=
  let i := s.inBuf.snapshot s.cfg.maxIn s.inLen.toNat s.draws
  let a := s.auxBuf.snapshot s.cfg.maxAux s.auxLen.toNat i.2
  { s with
    cmdl := v
    snapIn := i.1
    snapAux := a.1
    rem := Config.latency v i.1 a.1 a.2 + 1
    draws := a.2 + 1
    done := false
    ecode := 0
    outLen := 0
    res0 := 0
    res1 := 0
    phase := .busy }

/-! ## Completion (R58): the block's equivalent of taking an exception (spec/60_exceptions.md R213) -/

/-- A prefix written to AUX by a completion, if the command returns one (R58). -/
def writeAux (p : Option Bytes) (s : State) : State :=
  match p with
  | none => s
  | some bs => { s with auxBuf := s.auxBuf.writeBytes 0 bs, auxLen := BitVec.ofNat 16 bs.length }

/-- A successful completion (R202). OUT bytes from OUT_LEN up hold no value afterwards (R41). -/
def completeOk (r : Completed) (s : State) : State :=
  { writeAux r.aux s with
    outBuf := Memory.ofBytes r.out
    outLen := BitVec.ofNat 16 r.out.length
    res0 := r.res0
    res1 := r.res1
    ecode := 0
    done := true
    phase := .idle }

/-- An error completion (R203): the code is recorded and nothing else. AUX and AUX_LEN are unchanged, and
no OUT byte holds a value afterwards. -/
def completeErr (e : ErrorCode) (s : State) : State :=
  { s with
    outBuf := []
    outLen := 0
    res0 := 0
    res1 := 0
    ecode := e.code
    done := true
    phase := .idle }

/-- Completion with the result of `Exec` (R58). -/
def complete (r : Result) (s : State) : State :=
  match r with
  | .ok c => completeOk c s
  | .error e => completeErr e s

/-- The host's acknowledgement, the block's equivalent of returning (R214): `ack` writes 0xA to STATUS
(spec/30_encoding.md R81), which clears DONE and OVR and restores nothing. -/
def acknowledge (s : State) : State := clearStatus 0x0000000A#32 s

/-! ## Reset -/

/-- The one state change of both resets (R230, R231): the block's state takes its reset values; the
instance's parameters, the host, the turns and the draws are not the block's state (log 24). -/
def resetBlock (s : State) : State :=
  { State.resetOf s.cfg with
    line := s.line
    host := s.host
    hostRegs := s.hostRegs
    hostStrs := s.hostStrs
    hostFailed := s.hostFailed
    turns := s.turns
    draws := s.draws }

/-- Hardware reset on the release of the reset input (R230). -/
def hardReset (s : State) : State := { resetBlock s with line := .released }

/-- A write of `v` to CTRL (spec/10_state.md R23, R24): SRST = 1 resets and ignores the rest of the word
(R231); otherwise IE takes bit 0. Accepted in both phases. -/
def writeCtrl (v : Word) (s : State) : State :=
  if v.getLsbD 1 then resetBlock s else { s with ie := v.getLsbD 0 }

end Sys2Proof.Machine
end

