-- ==== Sys2Proof/Machine/Operands.lean ====
section
/-! DEFINITION. The operand forms of the commands (spec/30_encoding.md R75) with their checks
(spec/60_exceptions.md R204 to R206) and the arithmetic notation of spec/00_scope.md R14. -/

namespace Sys2Proof.Machine

/-- `mask(n) = 2^n - 1` (R14). -/
def mask (n : Nat) : Nat := 2 ^ n - 1

/-- `zext_32` of a byte (R14). -/
def zext (b : Byte) : Word := b.setWidth 32

/-- `BE(s)`: the natural a byte string denotes read big-endian (R14). -/
def beNat (s : Bytes) : Nat := s.foldl (fun n b => 256 * n + b.toNat) 0

/-- The digits of a natural in a base, least significant first: repeated division until it is 0. The
first argument bounds the number of divisions. -/
def digitsUpTo (base : Nat) : Nat → Nat → List Nat
  | 0, _ => []
  | k + 1, n => if n = 0 then [] else n % base :: digitsUpTo base k (n / base)

/-- The digits of a natural in a base of 2 or more, least significant first; no digit for 0. -/
def digitsOf (base n : Nat) : List Nat := digitsUpTo base (n.log2 + 1) n

/-- `minBE(N)`: the shortest byte string that denotes `N` (R14). -/
def minBE (n : Nat) : Bytes := (digitsOf 256 n).reverse.map (BitVec.ofNat 8)

/-- The command-level check of a used operand (R204): `CapacityExceeded` if its length register was above
its capacity at acceptance. An operand the command does not use is not checked. -/
def readOperand (snap : Option Bytes) (k : Bytes → Result) : Result :=
  match snap with
  | some bs => k bs
  | none => .error .capacityExceeded

/-- The symbol-range check over the whole operand (spec/42_cashaddr_checksum.md R153): `ParameterError`
before any computation if a byte is 32 or more. -/
def requireSymbols (vals : Bytes) (k : Result) : Result :=
  if vals.any (fun b => 32 ≤ b.toNat) then .error .parameterError else k

/-- The operation's own error, if it raises one (spec/00_scope.md R15: `raise`). -/
def orRaise {α : Type} (r : Except ErrorCode α) (k : α → Result) : Result :=
  match r with
  | .ok a => k a
  | .error e => .error e

/-- `finish(out, res0, res1)` with or without `aux'` (R202), after the output checks of R206: AUX first,
then OUT. A result is written whole or not at all. -/
def finish (c : Config) (out : Bytes) (aux : Option Bytes) (res0 res1 : Word) : Result :=
  if c.maxAux < (aux.getD []).length then .error .capacityExceeded
  else if c.maxOut < out.length then .error .capacityExceeded
  else .ok { out := out, aux := aux, res0 := res0, res1 := res1 }

end Sys2Proof.Machine
end

