-- ==== Sys2Proof/Machine/Sha256.lean ====
section
/-! DEFINITION. `HASH2`, SHA-256 applied twice (spec/00_scope.md R9). The spec names the FIPS 180-4 function
and does not list its tables: they are PRESUMED from that standard (log 17). -/

namespace Sys2Proof.Machine

/-- The 64 round constants of FIPS 180-4. -/
def shaK : List Word :=
  [0x428a2f98#32, 0x71374491#32, 0xb5c0fbcf#32, 0xe9b5dba5#32, 0x3956c25b#32, 0x59f111f1#32, 0x923f82a4#32, 0xab1c5ed5#32,
   0xd807aa98#32, 0x12835b01#32, 0x243185be#32, 0x550c7dc3#32, 0x72be5d74#32, 0x80deb1fe#32, 0x9bdc06a7#32, 0xc19bf174#32] ++
  [0xe49b69c1#32, 0xefbe4786#32, 0x0fc19dc6#32, 0x240ca1cc#32, 0x2de92c6f#32, 0x4a7484aa#32, 0x5cb0a9dc#32, 0x76f988da#32,
   0x983e5152#32, 0xa831c66d#32, 0xb00327c8#32, 0xbf597fc7#32, 0xc6e00bf3#32, 0xd5a79147#32, 0x06ca6351#32, 0x14292967#32] ++
  [0x27b70a85#32, 0x2e1b2138#32, 0x4d2c6dfc#32, 0x53380d13#32, 0x650a7354#32, 0x766a0abb#32, 0x81c2c92e#32, 0x92722c85#32,
   0xa2bfe8a1#32, 0xa81a664b#32, 0xc24b8b70#32, 0xc76c51a3#32, 0xd192e819#32, 0xd6990624#32, 0xf40e3585#32, 0x106aa070#32] ++
  [0x19a4c116#32, 0x1e376c08#32, 0x2748774c#32, 0x34b0bcb5#32, 0x391c0cb3#32, 0x4ed8aa4a#32, 0x5b9cca4f#32, 0x682e6ff3#32,
   0x748f82ee#32, 0x78a5636f#32, 0x84c87814#32, 0x8cc70208#32, 0x90befffa#32, 0xa4506ceb#32, 0xbef9a3f7#32, 0xc67178f2#32]

/-- The eight working words of SHA-256. -/
structure ShaState where
  a : Word
  b : Word
  c : Word
  d : Word
  e : Word
  f : Word
  g : Word
  h : Word
  deriving DecidableEq, Repr

/-- The initial hash value. -/
def shaInit : ShaState :=
  ⟨0x6a09e667#32, 0xbb67ae85#32, 0x3c6ef372#32, 0xa54ff53a#32, 0x510e527f#32, 0x9b05688c#32, 0x1f83d9ab#32, 0x5be0cd19#32⟩

/-- Σ0. -/
def shaBigSigma0 (x : Word) : Word := x.rotateRight 2 ^^^ x.rotateRight 13 ^^^ x.rotateRight 22
/-- Σ1. -/
def shaBigSigma1 (x : Word) : Word := x.rotateRight 6 ^^^ x.rotateRight 11 ^^^ x.rotateRight 25
/-- σ0. -/
def shaSigma0 (x : Word) : Word := x.rotateRight 7 ^^^ x.rotateRight 18 ^^^ (x >>> 3)
/-- σ1. -/
def shaSigma1 (x : Word) : Word := x.rotateRight 17 ^^^ x.rotateRight 19 ^^^ (x >>> 10)
/-- Ch. -/
def shaCh (x y z : Word) : Word := (x &&& y) ^^^ (~~~x &&& z)
/-- Maj. -/
def shaMaj (x y z : Word) : Word := (x &&& y) ^^^ (x &&& z) ^^^ (y &&& z)

/-- One round, with the sum of its message word and its constant. -/
def shaRound (s : ShaState) (kw : Word) : ShaState :=
  let t1 := s.h + shaBigSigma1 s.e + shaCh s.e s.f s.g + kw
  let t2 := shaBigSigma0 s.a + shaMaj s.a s.b s.c
  ⟨t1 + t2, s.a, s.b, s.c, s.d + t1, s.e, s.f, s.g⟩

/-- The first `n` words of the message schedule, from a window of the next 16 words. -/
def shaSchedule : Nat → List Word → List Word
  | 0, _ => []
  | _ + 1, [] => []
  | n + 1, w0 :: rest =>
    w0 :: shaSchedule n
      (rest ++ [shaSigma1 (rest.getD 13 0) + rest.getD 8 0 + shaSigma0 (rest.getD 0 0) + w0])

/-- The compression of one 16-word block. -/
def shaCompress (s : ShaState) (block : List Word) : ShaState :=
  let r := ((shaSchedule 64 block).zip shaK).foldl (fun t p => shaRound t (p.1 + p.2)) s
  ⟨s.a + r.a, s.b + r.b, s.c + r.c, s.d + r.d, s.e + r.e, s.f + r.f, s.g + r.g, s.h + r.h⟩

/-- The padded message: a 1 bit, zeros, and the length in bits as 8 bytes, a multiple of 64 bytes. -/
def shaPad (m : Bytes) : Bytes :=
  m ++ [0x80#8] ++ List.replicate ((55 + 64 - m.length % 64) % 64) 0#8 ++
    (List.range 8).map fun i => BitVec.ofNat 8 (8 * m.length / 256 ^ (7 - i))

/-- Big-endian 32-bit words of a byte string. -/
def shaWords : Bytes → List Word
  | b3 :: b2 :: b1 :: b0 :: rest => (b3 ++ b2 ++ b1 ++ b0 : BitVec 32) :: shaWords rest
  | _ => []

/-- The compression of `n` blocks in order. -/
def shaBlocks : Nat → List Word → ShaState → ShaState
  | 0, _, s => s
  | n + 1, ws, s => shaBlocks n (ws.drop 16) (shaCompress s (ws.take 16))

/-- The four bytes of a word, most significant first. -/
def shaWordBytes (w : Word) : Bytes :=
  [w.extractLsb' 24 8, w.extractLsb' 16 8, w.extractLsb' 8 8, w.extractLsb' 0 8]

/-- SHA-256. -/
def sha256 (m : Bytes) : Bytes :=
  let ws := shaWords (shaPad m)
  let r := shaBlocks (ws.length / 16) ws shaInit
  [r.a, r.b, r.c, r.d, r.e, r.f, r.g, r.h].flatMap shaWordBytes

/-- `HASH2(m)` (R9). -/
def hash2 (m : Bytes) : Bytes := sha256 (sha256 m)

/-- The Base58Check checksum: `HASH2(d)[0..3]` in digest order (spec/40_base58check.md R107). -/
def checksum4 (d : Bytes) : Bytes := (hash2 d).take 4

end Sys2Proof.Machine
end

