-- ==== Sys2Proof/Machine/Base58.lean ====
section
/-! DEFINITION. The Base58Check codec (spec/40_base58check.md R100 to R112): B58_ENC, B58_DEC, B58CHK_ENC
and B58CHK_DEC. -/

namespace Sys2Proof.Machine

/-! ## Datapath functions -/

/-- The character of a base-58 digit (spec/00_scope.md R7). -/
def base58Char (d : Nat) : Byte := base58Alphabet.getD d zeroSymbol

/-- `ALPHA⁻¹(c)`: the digit of a character, `none` outside the alphabet (R102). -/
def base58Digit (c : Byte) : Option Nat := base58Alphabet.idxOf? c

/-- The number of leading bytes of `s` equal to `b`: the counter `B58Z` (spec/10_state.md R35). -/
def leadingCount (b : Byte) (s : Bytes) : Nat := (s.takeWhile (· == b)).length

/-- `Base58Encode(s)` (R100). -/
def base58Encode (s : Bytes) : Bytes :=
  List.replicate (leadingCount 0 s) zeroSymbol ++ (digitsOf 58 (beNat s)).reverse.map base58Char

/-- The accumulator `B58N` of decode after the characters of a string: `58·B58N + digit` each (R102). -/
def base58Accumulate : Nat → Bytes → Except ErrorCode Nat
  | n, [] => .ok n
  | n, c :: t =>
    match base58Digit c with
    | some d => base58Accumulate (58 * n + d) t
    | none => .error .invalidCharacter

/-- `Base58Decode(t)` (R102): one zero byte for each leading zero-symbol, then the shortest rendering. -/
def base58Decode (t : Bytes) : Except ErrorCode Bytes :=
  match base58Accumulate 0 t with
  | .ok n => .ok (List.replicate (leadingCount zeroSymbol t) 0#8 ++ minBE n)
  | .error e => .error e

/-- `[v] ‖ p` with its checksum (R106, R107). -/
def base58checkBytes (v : Byte) (p : Bytes) : Bytes := (v :: p) ++ checksum4 (v :: p)

/-- Base58Check `Decode` (R108): the version byte and the payload. The checks' order is the source's:
characters, then length, then checksum. -/
def base58checkDecode (t : Bytes) : Except ErrorCode (Byte × Bytes) :=
  match base58Decode t with
  | .error e => .error e
  | .ok d =>
    if d.length < minB58chkLen then .error .tooShort
    else
      let body := d.take (d.length - 4)
      if checksum4 body ≠ d.drop (d.length - 4) then .error .checksumMismatch
      else .ok (body.headD 0, body.tail)

/-! ## Commands -/

/-- `Exec` of B58_ENC (R104). -/
def resultB58Enc (s : State) : Result :=
  readOperand s.snapIn fun bs => finish s.cfg (base58Encode bs) none 0 0

/-- `Exec` of B58_DEC (R105). -/
def resultB58Dec (s : State) : Result :=
  readOperand s.snapIn fun t => orRaise (base58Decode t) fun bs => finish s.cfg bs none 0 0

/-- `Exec` of B58CHK_ENC (R106). -/
def resultB58chkEnc (ver : Byte) (s : State) : Result :=
  readOperand s.snapIn fun p => finish s.cfg (base58Encode (base58checkBytes ver p)) none 0 0

/-- `Exec` of B58CHK_DEC (R108): RES0 = the version byte, which is not checked against any table (R110). -/
def resultB58chkDec (s : State) : Result :=
  readOperand s.snapIn fun t => orRaise (base58checkDecode t) fun r => finish s.cfg r.2 none (zext r.1) 0

/-- B58_ENC. -/
def execB58Enc (s : State) : Stepped := .next (complete (resultB58Enc s) s)

/-- B58_DEC. -/
def execB58Dec (s : State) : Stepped := .next (complete (resultB58Dec s) s)

/-- B58CHK_ENC. -/
def execB58chkEnc (ver : Byte) (s : State) : Stepped := .next (complete (resultB58chkEnc ver s) s)

/-- B58CHK_DEC. -/
def execB58chkDec (s : State) : Stepped := .next (complete (resultB58chkDec s) s)

end Sys2Proof.Machine
end

