-- ==== Sys2Proof/WellFormed.lean ====
section
/-! DEFINITION. Which terms of `Instr` have an encoding (spec/30_encoding.md R70): every field value fits
its field. -/

namespace Sys2Proof

/-- `FROM` and `TO` are 4-bit fields. The values 0 and 9 to 15 are well-formed: they decode, and the
command completes with `ParameterError` (spec/41_bitpack.md R130). -/
def Instr.wf : Instr → Bool
  | .b58Enc => true
  | .b58Dec => true
  | .b58chkEnc _ => true
  | .b58chkDec => true
  | .convbits fromBits toBits _ => decide (fromBits < 16) && decide (toBits < 16)
  | .polymod => true
  | .caExpand => true
  | .caCrchk => true
  | .caVerify => true
  | .caPack _ => true
  | .caEnc => true
  | .caDec => true
  | .caChkenc _ => true
  | .caChkdec => true

end Sys2Proof
end

