-- ==== Sys2Proof/Decode.lean ====
section
/-! DEFINITION. Command words (spec/30_encoding.md R70 to R79): the fields of format C, the decoder, total
over all 2^32 words, and the encoder. -/

namespace Sys2Proof

/-! ## The fields of format C (R70) -/

/-- `OP`, bits 7:0. -/
def cmdOp (w : Word) : Byte := w.extractLsb' 0 8
/-- `FROM`, bits 11:8, an unsigned natural (R76). -/
def cmdFrom (w : Word) : Nat := (w.extractLsb' 8 4).toNat
/-- `TO`, bits 15:12. -/
def cmdTo (w : Word) : Nat := (w.extractLsb' 12 4).toNat
/-- `PAD`, bit 16; 1 is true (R76). -/
def cmdPad (w : Word) : Bool := w.getLsbD 16
/-- `ATYPE`, bits 19:17. -/
def cmdAtype (w : Word) : BitVec 3 := w.extractLsb' 17 3
/-- `RSV`, bits 23:20, which must be 0. -/
def cmdRsv (w : Word) : BitVec 4 := w.extractLsb' 20 4
/-- `VER`, bits 31:24. -/
def cmdVer (w : Word) : Byte := w.extractLsb' 24 8

/-- The code of an address type (spec/00_scope.md R12). -/
def AddrType.code : AddrType → BitVec 3
  | .unknown => 0#3
  | .p2pkh => 1#3
  | .p2sh => 2#3
  | .p2shP2wpkh => 3#3
  | .p2shP2wsh => 4#3
  | .p2wpkh => 5#3
  | .p2wsh => 6#3
  | .p2pk => 7#3

/-- The address type of a 3-bit code (R12); all eight codes name one. -/
def AddrType.ofCode (c : BitVec 3) : AddrType :=
  match c.toNat with
  | 0 => .unknown
  | 1 => .p2pkh
  | 2 => .p2sh
  | 3 => .p2shP2wpkh
  | 4 => .p2shP2wsh
  | 5 => .p2wpkh
  | 6 => .p2wsh
  | _ => .p2pk

/-! ## The decoder -/

/-- Why a word is illegal (R77). All three complete with `IllegalCommand` (R74); the spec does not tell
them apart, the names are the model's (log 25). -/
inductive CmdReject where
  /-- An `OP` value that R72 does not list. -/
  | reservedOp
  /-- A nonzero `RSV` field. -/
  | reservedBits
  /-- A nonzero bit of a field the command does not use. -/
  | unusedField
  deriving DecidableEq, Repr

/-- The bits of the fields FROM, TO and PAD. -/
def convMask : Word := 0x0001FF00#32
/-- The bits of the field ATYPE. -/
def atypeMask : Word := 0x000E0000#32
/-- The bits of the field VER. -/
def verMask : Word := 0xFF000000#32

/-- The field-use rule R74: of the word's bits outside `OP`, only those of `used` may be set. -/
def fieldUse (w used : Word) (i : Instr) : Except CmdReject Instr :=
  if cmdRsv w ≠ 0 then .error .reservedBits
  else if w &&& ~~~(0xFF#32 ||| used) ≠ 0 then .error .unusedField
  else .ok i

/-- The decoder (R71): `OP` alone selects the command, then the field-use rule applies. Total over all
words (R78). -/
def decode (w : Word) : Except CmdReject Instr :=
  match (cmdOp w).toNat with
  | 0x01 => fieldUse w 0 .b58Enc
  | 0x02 => fieldUse w 0 .b58Dec
  | 0x03 => fieldUse w verMask (.b58chkEnc (cmdVer w))
  | 0x04 => fieldUse w 0 .b58chkDec
  | 0x10 => fieldUse w convMask (.convbits (cmdFrom w) (cmdTo w) (cmdPad w))
  | 0x20 => fieldUse w 0 .polymod
  | 0x21 => fieldUse w 0 .caExpand
  | 0x22 => fieldUse w 0 .caCrchk
  | 0x23 => fieldUse w 0 .caVerify
  | 0x30 => fieldUse w atypeMask (.caPack (.ofCode (cmdAtype w)))
  | 0x31 => fieldUse w 0 .caEnc
  | 0x32 => fieldUse w 0 .caDec
  | 0x33 => fieldUse w atypeMask (.caChkenc (.ofCode (cmdAtype w)))
  | 0x34 => fieldUse w 0 .caChkdec
  | _ => .error .reservedOp

/-! ## The encoder -/

/-- The opcode of a command (R72). -/
def Instr.opcode : Instr → Byte
  | .b58Enc => 0x01#8
  | .b58Dec => 0x02#8
  | .b58chkEnc _ => 0x03#8
  | .b58chkDec => 0x04#8
  | .convbits _ _ _ => 0x10#8
  | .polymod => 0x20#8
  | .caExpand => 0x21#8
  | .caCrchk => 0x22#8
  | .caVerify => 0x23#8
  | .caPack _ => 0x30#8
  | .caEnc => 0x31#8
  | .caDec => 0x32#8
  | .caChkenc _ => 0x33#8
  | .caChkdec => 0x34#8

/-- R79: `VER<<24 | ATYPE<<17 | PAD<<16 | TO<<12 | FROM<<8 | OP`. -/
def encodeFields (ver : Byte) (atype : BitVec 3) (pad : Bool) (toBits fromBits : BitVec 4) (op : Byte) : Word :=
  (ver.setWidth 32 <<< 24) ||| (atype.setWidth 32 <<< 17) ||| ((BitVec.ofBool pad).setWidth 32 <<< 16) |||
    (toBits.setWidth 32 <<< 12) ||| (fromBits.setWidth 32 <<< 8) ||| op.setWidth 32

/-- The word of a command (R79); a field the command does not use is 0 (R74). -/
def encode (i : Instr) : Word :=
  match i with
  | .b58Enc => encodeFields 0 0 false 0 0 i.opcode
  | .b58Dec => encodeFields 0 0 false 0 0 i.opcode
  | .b58chkEnc ver => encodeFields ver 0 false 0 0 i.opcode
  | .b58chkDec => encodeFields 0 0 false 0 0 i.opcode
  | .convbits fromBits toBits pad =>
    encodeFields 0 0 pad (BitVec.ofNat 4 toBits) (BitVec.ofNat 4 fromBits) i.opcode
  | .polymod => encodeFields 0 0 false 0 0 i.opcode
  | .caExpand => encodeFields 0 0 false 0 0 i.opcode
  | .caCrchk => encodeFields 0 0 false 0 0 i.opcode
  | .caVerify => encodeFields 0 0 false 0 0 i.opcode
  | .caPack atype => encodeFields 0 atype.code false 0 0 i.opcode
  | .caEnc => encodeFields 0 0 false 0 0 i.opcode
  | .caDec => encodeFields 0 0 false 0 0 i.opcode
  | .caChkenc atype => encodeFields 0 atype.code false 0 0 i.opcode
  | .caChkdec => encodeFields 0 0 false 0 0 i.opcode

/-! ## The opcode table and its words -/

/-- One row of spec/opcode_table.json: a word is the row's command exactly when its bits under `mask`
equal `pat` (R74). -/
structure OpRow where
  mnemonic : String
  mask : Word
  pat : Word
  deriving DecidableEq, Repr

/-- spec/opcode_table.json, row by row. The decoder does not use it: that the two agree is a claim. -/
def opcodeRows : List OpRow :=
  [ ⟨"B58_ENC", 0xFFFFFFFF#32, 0x00000001#32⟩,
    ⟨"B58_DEC", 0xFFFFFFFF#32, 0x00000002#32⟩,
    ⟨"B58CHK_ENC", 0x00FFFFFF#32, 0x00000003#32⟩,
    ⟨"B58CHK_DEC", 0xFFFFFFFF#32, 0x00000004#32⟩,
    ⟨"CONVBITS", 0xFFFE00FF#32, 0x00000010#32⟩,
    ⟨"POLYMOD", 0xFFFFFFFF#32, 0x00000020#32⟩,
    ⟨"CA_EXPAND", 0xFFFFFFFF#32, 0x00000021#32⟩,
    ⟨"CA_CRCHK", 0xFFFFFFFF#32, 0x00000022#32⟩,
    ⟨"CA_VERIFY", 0xFFFFFFFF#32, 0x00000023#32⟩,
    ⟨"CA_PACK", 0xFFF1FFFF#32, 0x00000030#32⟩,
    ⟨"CA_ENC", 0xFFFFFFFF#32, 0x00000031#32⟩,
    ⟨"CA_DEC", 0xFFFFFFFF#32, 0x00000032#32⟩,
    ⟨"CA_CHKENC", 0xFFF1FFFF#32, 0x00000033#32⟩,
    ⟨"CA_CHKDEC", 0xFFFFFFFF#32, 0x00000034#32⟩ ]

/-- The command word whose low `nbits` bits are those of `w`, every bit above them 0. A command is one
32-bit register word (R71), so no byte order is involved (log 21). -/
def tableWord (nbits w : Nat) : Word := BitVec.ofNat 32 (w % 2 ^ nbits)

/-- The command the decoder reads from a word numbered as spec/opcode_table.json numbers it. -/
def decodeTableWord (nbits w : Nat) : Option Instr :=
  match decode (tableWord nbits w) with
  | .ok i => some i
  | .error _ => none

end Sys2Proof
end

