-- ==== Sys2Proof/Machine/BitPack.lean ====
section
/-! DEFINITION. The bit-width converter (spec/41_bitpack.md R130 to R138): CONVBITS. -/

namespace Sys2Proof.Machine

/-! ## Datapath function -/

/-- The group whose lowest bit is bit `sh` of the accumulator: `(CB_ACC >> sh) & mask(toBits)` (R131). -/
def convGroup (toBits acc sh : Nat) : Byte := BitVec.ofNat 8 ((acc >>> sh) &&& mask toBits)

/-- The inner loop of R131: emit groups while `CB_NBITS >= toBits`; with them, the bits left. The first
argument bounds the iterations (each takes at least one bit). -/
def convEmit (toBits acc : Nat) : Nat → Nat → Bytes × Nat
  | 0, nbits => ([], nbits)
  | k + 1, nbits =>
    if toBits ≤ nbits then
      let r := convEmit toBits acc k (nbits - toBits)
      (convGroup toBits acc (nbits - toBits) :: r.1, r.2)
    else ([], nbits)

/-- `CB_ACC` after a value: shift, OR the value in, mask to `fromBits+toBits-1` bits (R131). The value is
not range-checked (R132). -/
def convAcc (fromBits toBits acc : Nat) (v : Byte) : Nat :=
  ((acc <<< fromBits) ||| v.toNat) &&& mask (fromBits + toBits - 1)

/-- The loop over the values of R131: the groups emitted, then `CB_ACC` and `CB_NBITS` at the end. -/
def convLoop (fromBits toBits : Nat) : Bytes → Nat → Nat → Bytes × Nat × Nat
  | [], acc, nbits => ([], acc, nbits)
  | v :: vs, acc, nbits =>
    let acc' := convAcc fromBits toBits acc v
    let e := convEmit toBits acc' (nbits + fromBits) (nbits + fromBits)
    let r := convLoop fromBits toBits vs acc' e.2
    (e.1 ++ r.1, r.2)

/-- The would-be final group: the leftover bits high, zeros below (R134, conflict C1). -/
def convLast (toBits acc nbits : Nat) : Byte := BitVec.ofNat 8 ((acc <<< (toBits - nbits)) &&& mask toBits)

/-- `ConvertBits(data, fromBits, toBits, pad)` (R131). -/
def convertBits (data : Bytes) (fromBits toBits : Nat) (pad : Bool) : Except ErrorCode Bytes :=
  let r := convLoop fromBits toBits data 0 0
  let out := r.1
  let acc := r.2.1
  let nbits := r.2.2
  if pad then
    if 0 < nbits then .ok (out ++ [convLast toBits acc nbits]) else .ok out
  else if fromBits ≤ nbits then .error .paddingError
  else if convLast toBits acc nbits ≠ 0 then .error .paddingError
  else .ok out

/-- The field range of R130: both widths from 1 to 8. -/
def convWidthsOk (fromBits toBits : Nat) : Bool :=
  decide (1 ≤ fromBits) && decide (fromBits ≤ 8) && decide (1 ≤ toBits) && decide (toBits ≤ 8)

/-! ## Command -/

/-- `Exec` of CONVBITS (R133): `ParameterError`, then `PaddingError`, then the output check. -/
def resultConvbits (fromBits toBits : Nat) (pad : Bool) (s : State) : Result :=
  readOperand s.snapIn fun data =>
    if convWidthsOk fromBits toBits then
      orRaise (convertBits data fromBits toBits pad) fun out => finish s.cfg out none 0 0
    else .error .parameterError

/-- CONVBITS. -/
def execConvbits (fromBits toBits : Nat) (pad : Bool) (s : State) : Stepped :=
  .next (complete (resultConvbits fromBits toBits pad s) s)

end Sys2Proof.Machine
end

