-- ==== Sys2Proof/Machine/PolyMod.lean ====
section
/-! DEFINITION. The GF(32) BCH checksum engine (spec/42_cashaddr_checksum.md R150 to R162): POLYMOD,
CA_EXPAND, CA_CRCHK and CA_VERIFY. -/

namespace Sys2Proof.Machine

/-! ## Datapath functions -/

/-- XOR in `G[i]` for every set bit `i` of `c0`, from bit `i` up (R150). -/
def polyReduce (c0 : BitVec 5) : Nat → List (BitVec 40) → BitVec 40 → BitVec 40
  | _, [], c => c
  | i, g :: gs, c => polyReduce c0 (i + 1) gs (if c0.getLsbD i then c ^^^ g else c)

/-- One step of `PM_C` (R150): shift the low 35 bits left by 5, OR the value in, reduce by the top 5. -/
def polyStep (c : BitVec 40) (d : Byte) : BitVec 40 :=
  polyReduce (c.extractLsb' 35 5) 0 polyGenerators
    (((c &&& 0x07FFFFFFFF#40) <<< 5) ||| d.setWidth 40)

/-- `PolyMod(values)` (R150). -/
def polyMod (values : Bytes) : BitVec 40 := values.foldl polyStep 1#40 ^^^ 1#40

/-- `ExpandPrefix` (R154): each character's low 5 bits, then one zero. -/
def expandPrefix (pfx : Bytes) : Bytes := pfx.map (fun c => c &&& 0x1F#8) ++ [0x00#8]

/-- `CreateChecksum` (R157): the eight 5-bit groups of the PolyMod, most significant first. -/
def createChecksum (pfx payload : Bytes) : Bytes :=
  let m := polyMod (expandPrefix pfx ++ payload ++ List.replicate 8 0#8)
  (List.range 8).map fun i => (m >>> (5 * (7 - i))).setWidth 8 &&& 0x1F#8

/-- `VerifyChecksum` (R159). -/
def verifyChecksum (pfx values : Bytes) : Bool := polyMod (expandPrefix pfx ++ values) == 0#40

/-! ## Commands -/

/-- `Exec` of POLYMOD (R152): RES0 = bits 31:0, RES1[7:0] = bits 39:32. -/
def resultPolymod (s : State) : Result :=
  readOperand s.snapIn fun vals =>
    requireSymbols vals
      (finish s.cfg [] none ((polyMod vals).extractLsb' 0 32) (zext ((polyMod vals).extractLsb' 32 8)))

/-- `Exec` of CA_EXPAND (R156): reads AUX only; any byte is taken. -/
def resultCaExpand (s : State) : Result :=
  readOperand s.snapAux fun pfx => finish s.cfg (expandPrefix pfx) none 0 0

/-- `Exec` of CA_CRCHK (R158). -/
def resultCaCrchk (s : State) : Result :=
  readOperand s.snapIn fun payload => readOperand s.snapAux fun pfx =>
    requireSymbols payload (finish s.cfg (createChecksum pfx payload) none 0 0)

/-- `Exec` of CA_VERIFY (R160): the answer is RES0 bit 0, ECODE is 0 either way. -/
def resultCaVerify (s : State) : Result :=
  readOperand s.snapIn fun vals => readOperand s.snapAux fun pfx =>
    requireSymbols vals (finish s.cfg [] none (if verifyChecksum pfx vals then 1 else 0) 0)

/-- POLYMOD. -/
def execPolymod (s : State) : Stepped := .next (complete (resultPolymod s) s)

/-- CA_EXPAND. -/
def execCaExpand (s : State) : Stepped := .next (complete (resultCaExpand s) s)

/-- CA_CRCHK. -/
def execCaCrchk (s : State) : Stepped := .next (complete (resultCaCrchk s) s)

/-- CA_VERIFY. -/
def execCaVerify (s : State) : Stepped := .next (complete (resultCaVerify s) s)

end Sys2Proof.Machine
end

