-- ==== Sys2Proof/Machine/CashAddr.lean ====
section
/-! DEFINITION. The CashAddr codec (spec/43_cashaddr_codec.md R170 to R188): CA_PACK, CA_ENC, CA_DEC,
CA_CHKENC and CA_CHKDEC. -/

namespace Sys2Proof.Machine

/-! ## Packing -/

/-- The type bits of the version byte (R170, conflict C8); no other type has any. -/
def typeBits : AddrType → Option Byte
  | .p2pkh => some 0x00#8
  | .p2sh => some 0x08#8
  | .unknown => none
  | .p2shP2wpkh => none
  | .p2shP2wsh => none
  | .p2wpkh => none
  | .p2wsh => none
  | .p2pk => none

/-- The version byte `typebits | sizecode` of a hash of `n` bytes (R170 to R172): the type is checked
before the size. -/
def packVersion (atype : AddrType) (n : Nat) : Except ErrorCode Byte :=
  match typeBits atype with
  | none => .error .unsupportedAddressType
  | some tb =>
    match sizeCode n with
    | none => .error .unsupportedHashSize
    | some sz => .ok (tb ||| sz)

/-- `PackAddressData(atype, hash)` (R172): the version byte and the 5-bit values. -/
def packAddressData (atype : AddrType) (hash : Bytes) : Except ErrorCode (Byte × Bytes) :=
  match packVersion atype hash.length with
  | .error e => .error e
  | .ok ver =>
    match convertBits (ver :: hash) 8 5 true with
    | .error e => .error e
    | .ok vals => .ok (ver, vals)

/-! ## Strings -/

/-- `CHARSET[v]` (spec/00_scope.md R8), for a value below 32. -/
def charsetChar (v : Byte) : Byte := charset.getD v.toNat 0

/-- `CashAddrEncode` (R174). -/
def cashAddrEncode (pfx payload : Bytes) : Bytes :=
  pfx ++ [separator] ++ (payload ++ createChecksum pfx payload).map charsetChar

/-- `REV[c]` with the code-point range (R178, R179): the value of a character, either case. -/
def charsetValue (c : Byte) : Option Byte :=
  if 0x80 ≤ c.toNat then none else (charset.idxOf? (lowerCase c)).map (BitVec.ofNat 8)

/-- The values of the characters after the separator (R177), `InvalidCharacter` at the first that has
none. -/
def charsetValues : Bytes → Except ErrorCode Bytes
  | [] => .ok []
  | c :: cs =>
    match charsetValue c with
    | none => .error .invalidCharacter
    | some v =>
      match charsetValues cs with
      | .error e => .error e
      | .ok vs => .ok (v :: vs)

/-- The part before the first separator. -/
def beforeSeparator (s : Bytes) : Bytes := s.takeWhile (· != separator)

/-- The part after the first separator. -/
def afterSeparator (s : Bytes) : Bytes := (s.dropWhile (· != separator)).tail

/-- The four malformation checks of R177, which share one code. -/
def malformed (s : Bytes) : Bool :=
  s.count separator != 1 || (beforeSeparator s).isEmpty || (beforeSeparator s).any isDigit ||
    (s.any isLower && s.any isUpper)

/-- `CashAddrDecode(s)` (R177): the lower-case prefix and the payload values. -/
def cashAddrDecode (s : Bytes) : Except ErrorCode (Bytes × Bytes) :=
  if malformed s then .error .malformedAddressString
  else
    let pfx := (beforeSeparator s).map lowerCase
    match charsetValues (afterSeparator s) with
    | .error e => .error e
    | .ok vals =>
      if vals.length < 8 then .error .invalidChecksum
      else if verifyChecksum pfx vals then .ok (pfx, vals.take (vals.length - 8))
      else .error .invalidChecksum

/-- `CheckEncodeCashAddress(atype, hash, prefix)` (R182). -/
def checkEncodeCashAddress (atype : AddrType) (hash pfx : Bytes) : Except ErrorCode Bytes :=
  match packAddressData atype hash with
  | .error e => .error e
  | .ok r => .ok (cashAddrEncode pfx r.2)

/-- The type of a version byte (R184): any byte but 0x00 and 0x08 leaves it Unknown (R186). -/
def versionType (ver : Byte) : AddrType :=
  if ver = 0x00#8 then .p2pkh else if ver = 0x08#8 then .p2sh else .unknown

/-- What CheckDecodeCashAddress returns (R184). -/
structure CheckedAddress where
  atype : AddrType
  ver : Byte
  hash : Bytes
  pfx : Bytes
  deriving DecidableEq, Repr

/-- `CheckDecodeCashAddress(s)` (R184). -/
def checkDecodeCashAddress (s : Bytes) : Except ErrorCode CheckedAddress :=
  match cashAddrDecode s with
  | .error e => .error e
  | .ok r =>
    match convertBits r.2 5 8 false with
    | .error e => .error e
    | .ok d =>
      if d.length ≠ 21 then .error .incorrectDataLength
      else .ok { atype := versionType (d.headD 0), ver := d.headD 0, hash := d.tail, pfx := r.1 }

/-! ## Commands -/

/-- `Exec` of CA_PACK (R173): RES0 = the version byte. -/
def resultCaPack (atype : AddrType) (s : State) : Result :=
  readOperand s.snapIn fun hash =>
    orRaise (packAddressData atype hash) fun r => finish s.cfg r.2 none (zext r.1) 0

/-- `Exec` of CA_ENC (R175): the prefix is taken as it is (R176). -/
def resultCaEnc (s : State) : Result :=
  readOperand s.snapIn fun payload => readOperand s.snapAux fun pfx =>
    requireSymbols payload (finish s.cfg (cashAddrEncode pfx payload) none 0 0)

/-- `Exec` of CA_DEC (R180): the lower-case prefix goes to AUX. -/
def resultCaDec (s : State) : Result :=
  readOperand s.snapIn fun str =>
    orRaise (cashAddrDecode str) fun r => finish s.cfg r.2 (some r.1) 0 0

/-- `Exec` of CA_CHKENC (R183). -/
def resultCaChkenc (atype : AddrType) (s : State) : Result :=
  readOperand s.snapIn fun hash => readOperand s.snapAux fun pfx =>
    orRaise (checkEncodeCashAddress atype hash pfx) fun out => finish s.cfg out none 0 0

/-- `Exec` of CA_CHKDEC (R185): RES0[2:0] = the type, RES0[15:8] = the version byte, the prefix to AUX. -/
def resultCaChkdec (s : State) : Result :=
  readOperand s.snapIn fun str =>
    orRaise (checkDecodeCashAddress str) fun r =>
      finish s.cfg r.hash (some r.pfx) (r.atype.code.setWidth 32 ||| (zext r.ver <<< 8)) 0

/-- CA_PACK. -/
def execCaPack (atype : AddrType) (s : State) : Stepped := .next (complete (resultCaPack atype s) s)

/-- CA_ENC. -/
def execCaEnc (s : State) : Stepped := .next (complete (resultCaEnc s) s)

/-- CA_DEC. -/
def execCaDec (s : State) : Stepped := .next (complete (resultCaDec s) s)

/-- CA_CHKENC. -/
def execCaChkenc (atype : AddrType) (s : State) : Stepped := .next (complete (resultCaChkenc atype s) s)

/-- CA_CHKDEC. -/
def execCaChkdec (s : State) : Stepped := .next (complete (resultCaChkdec s) s)

end Sys2Proof.Machine
end

