-- ==== Sys2Proof/Machine/Dispatch.lean ====
section
/-! DEFINITION. The one dispatch from a command to its meaning (spec/30_encoding.md R72). -/

namespace Sys2Proof.Machine

def exec (i : Instr) (s : State) : Host.Outcome State Fault Refusal :=
  match i with
  | .b58Enc => Sys2Proof.Machine.execB58Enc s
  | .b58Dec => Sys2Proof.Machine.execB58Dec s
  | .b58chkEnc ver => Sys2Proof.Machine.execB58chkEnc ver s
  | .b58chkDec => Sys2Proof.Machine.execB58chkDec s
  | .convbits fromBits toBits pad => Sys2Proof.Machine.execConvbits fromBits toBits pad s
  | .polymod => Sys2Proof.Machine.execPolymod s
  | .caExpand => Sys2Proof.Machine.execCaExpand s
  | .caCrchk => Sys2Proof.Machine.execCaCrchk s
  | .caVerify => Sys2Proof.Machine.execCaVerify s
  | .caPack atype => Sys2Proof.Machine.execCaPack atype s
  | .caEnc => Sys2Proof.Machine.execCaEnc s
  | .caDec => Sys2Proof.Machine.execCaDec s
  | .caChkenc atype => Sys2Proof.Machine.execCaChkenc atype s
  | .caChkdec => Sys2Proof.Machine.execCaChkdec s

end Sys2Proof.Machine
end

