-- ==== Sys2Proof/Machine/Window.lean ====
section
/-! DEFINITION. Host accesses to the block's window (spec/20_memory.md R50 to R57, spec/10_state.md R21 to
R33): the map, reads and writes in both phases, and which accesses are admitted. -/

namespace Sys2Proof.Machine

/-! ## The window map (R51) -/

/-- The register at an offset below 0x4000 (spec/10_state.md section 3); the others are reserved. -/
def registerAt (off : Nat) : WindowWord :=
  match off with
  | 0x000 => .id
  | 0x004 => .ctrl
  | 0x008 => .status
  | 0x00C => .cmd
  | 0x010 => .inLen
  | 0x014 => .auxLen
  | 0x018 => .outLen
  | 0x01C => .res0
  | 0x020 => .res1
  | 0x024 => .capIn
  | 0x028 => .capAux
  | 0x02C => .capOut
  | _ => .reserved

/-- The word of byte `i` of a buffer: reserved at and above the capacity (R51). -/
def bufferWord (c : Config) (b : Buf) (i : Nat) : WindowWord :=
  if i < capacity c b then .bufByte b i else .reserved

/-- What the window word at an offset (a multiple of 4) is (R51). -/
def windowWord (c : Config) (off : Nat) : WindowWord :=
  if off < 0x4000 then registerAt off
  else if off < 0x8000 then bufferWord c .inp ((off - 0x4000) / 4)
  else if off < 0xC000 then bufferWord c .aux ((off - 0x8000) / 4)
  else bufferWord c .out ((off - 0xC000) / 4)

/-- The offset of the window word of byte `i` of a buffer (R51). -/
def bufferOffset (b : Buf) (i : Nat) : Nat :=
  match b with
  | .inp => 0x4000 + 4 * i
  | .aux => 0x8000 + 4 * i
  | .out => 0xC000 + 4 * i

/-! ## Reads -/

/-- What a read of a buffer byte finds: an OUT byte holds no value while BUSY (R57). -/
def visibleByte (s : State) (b : Buf) (i : Nat) : Option Byte :=
  match b, s.phase with
  | .out, .busy => none
  | _, _ => (s.buf b).read i

/-- A read of a window word: the value returned, and the state, which a read changes only by counting a
free draw (R55: no read has a side effect). A buffer read returns `zext_32(byte)` (R53). -/
def readWord (w : WindowWord) (s : State) : Word × State :=
  match w with
  | .id => (idValue, s)
  | .ctrl => (ctrlWord s, s)
  | .status => (statusWord s, s)
  | .cmd => (0, s)
  | .inLen => (s.inLen.setWidth 32, s)
  | .auxLen => (s.auxLen.setWidth 32, s)
  | .outLen => (s.outLen.setWidth 32, s)
  | .res0 => (s.res0, s)
  | .res1 => (s.res1, s)
  | .capIn => (BitVec.ofNat 32 s.cfg.maxIn, s)
  | .capAux => (BitVec.ofNat 32 s.cfg.maxAux, s)
  | .capOut => (BitVec.ofNat 32 s.cfg.maxOut, s)
  | .reserved => (0, s)
  | .bufByte b i =>
    let r := byteOrDraw (visibleByte s b i) s.draws
    (zext r.1, { s with draws := r.2 })

/-! ## Writes -/

/-- A write that is ignored and sets OVR while BUSY (R57), and otherwise does `k`. -/
def unlessBusy (s : State) (k : State) : State :=
  match s.phase with
  | .busy => { s with ovr := true }
  | .idle => k

/-- A write of `v` to a window word. CMD accepts (R26, R56); the length registers keep bits 15:0 (R27,
R28); a buffer word stores bits 7:0 (R53); OUT_LEN, RES0, RES1 and OUT words ignore writes (R29, R30, R53);
ID, CAP_* and reserved words ignore writes in both phases without setting OVR (R22, R31, R32). -/
def writeWord (w : WindowWord) (v : Word) (s : State) : State :=
  match w with
  | .id => s
  | .ctrl => writeCtrl v s
  | .status => clearStatus v s
  | .cmd => unlessBusy s (accept v s)
  | .inLen => unlessBusy s { s with inLen := v.extractLsb' 0 16 }
  | .auxLen => unlessBusy s { s with auxLen := v.extractLsb' 0 16 }
  | .outLen => unlessBusy s s
  | .res0 => unlessBusy s s
  | .res1 => unlessBusy s s
  | .capIn => s
  | .capAux => s
  | .capOut => s
  | .reserved => s
  | .bufByte .inp i => unlessBusy s { s with inBuf := s.inBuf.write i (v.extractLsb' 0 8) }
  | .bufByte .aux i => unlessBusy s { s with auxBuf := s.auxBuf.write i (v.extractLsb' 0 8) }
  | .bufByte .out _ => unlessBusy s s

/-! ## Admission (R52) -/

/-- The gate every host access passes: outside the window there is no such address (R50, log 10); without
power or during reset it is refused (spec/60_exceptions.md R224, spec/70_reset_and_hazards.md R230); an
access that is not 32 bits wide, or not at an offset that is a multiple of 4, is refused (R52). -/
def admitAccess (addr width : Nat) (s : State) (k : Nat → Stepped) : Stepped :=
  if addr < s.cfg.base ∨ s.cfg.base + 0x10000 ≤ addr then .fault .outsideWindow
  else
    match s.line with
    | .powerLost => .refused .poweredDown
    | .asserted => .refused .accessDuringReset
    | .released =>
      if width ≠ 4 ∨ (addr - s.cfg.base) % 4 ≠ 0 then .refused .unadmittedAccess
      else k (addr - s.cfg.base)

/-- `MemWrite(addr, width, v)` (spec/00_scope.md R15). -/
def memWrite (addr width : Nat) (v : Word) (s : State) : Stepped :=
  admitAccess addr width s fun off => .next (writeWord (windowWord s.cfg off) v s)

/-- `MemRead(addr, width)` (R15): `k` receives the value and the state after the read. -/
def memRead (addr width : Nat) (s : State) (k : Word → State → Stepped) : Stepped :=
  admitAccess addr width s fun off =>
    let r := readWord (windowWord s.cfg off) s
    k r.1 r.2

end Sys2Proof.Machine
end

