-- ==== Sys2Proof/Machine/HostAgent.lean ====
section
/-! DEFINITION. The host agent: its instructions and their expansions (spec/30_encoding.md R80, R81), and
one host step (spec/70_reset_and_hazards.md R241). -/

namespace Sys2Proof.Machine

/-! ## Host programs (R80, R81), for an instance with parameters `c` -/

/-- `write off, imm`. -/
def opWrite (c : Config) (off : Nat) (imm : Word) : HostOp := .write (c.base + off) 4 imm

/-- `read off -> rN`. -/
def opRead (c : Config) (off dst : Nat) : HostOp := .read (c.base + off) 4 dst

/-- `poll off, mask, val`. -/
def opPoll (c : Config) (off : Nat) (msk val : Word) : HostOp := .poll (c.base + off) 4 msk val

/-- The offset of a buffer's length register (spec/10_state.md section 3). -/
def lengthOffset : Buf → Nat
  | .inp => 0x010
  | .aux => 0x014
  | .out => 0x018

/-- The byte writes of `loadbuf`, from index `i` up. -/
def loadBytes (c : Config) (b : Buf) : Nat → Bytes → List HostOp
  | _, [] => []
  | i, x :: xs => opWrite c (bufferOffset b i) (zext x) :: loadBytes c b (i + 1) xs

/-- `loadbuf buf, b0 b1 …` (R81): the length, then the bytes in order. -/
def loadbuf (c : Config) (b : Buf) (bs : Bytes) : List HostOp :=
  opWrite c (lengthOffset b) (BitVec.ofNat 32 bs.length) :: loadBytes c b 0 bs

/-- `run MNEMONIC fields` (R81): write CMD, then poll until BUSY = 0. -/
def runCmd (c : Config) (i : Instr) : List HostOp :=
  [opWrite c 0x00C (encode i), opPoll c 0x008 0x1 0x0]

/-- `readbuf OUT -> s` (R81), with the length in register `lenReg`. -/
def readbuf (c : Config) (lenReg str : Nat) : List HostOp := [opRead c 0x018 lenReg, .collect lenReg 0 str]

/-- `ack` (R81). -/
def opAck (c : Config) : HostOp := opWrite c 0x008 0x0000000A#32

/-! ## A host step -/

/-- The bytes a string of the host holds so far; `collect` starts it afresh at index 0. -/
def collected (s : State) (i str : Nat) : Bytes :=
  if i = 0 then [] else s.hostStr str

/-- The number of bytes `collect` reads: `rL[15:0]` (R81). DESIGN CHOICE (log 9): a length register that
nothing has loaded holds 0, so `collect` reads no byte. -/
def collectLength (s : State) (lenReg : Nat) : Nat := ((s.hostReg lenReg).extractLsb' 0 16).toNat

/-- `assert rN = imm` (R80): a check, not an access. DESIGN CHOICE (log 9): the spec does not say what a check
that does not hold does; it is recorded, and the host goes on. -/
def checkReg (src : Nat) (imm : Word) (s : State) : State :=
  { s with hostFailed := s.hostFailed || s.hostReg src != imm }

/-- The host issues the instruction `op`; `s` is the state with `op` taken off the list. DESIGN CHOICE (log 9):
`loadStr` of a string never collected loads the empty string. -/
def hostExec (op : HostOp) (s : State) : Stepped :=
  match op with
  | .write addr width v => memWrite addr width v s
  | .read addr width dst =>
    memRead addr width s fun v t => .next { t with hostRegs := tableSet t.hostRegs dst v }
  | .poll addr width msk val =>
    memRead addr width s fun v t =>
      if v &&& msk = val then .next t else .next { t with host := .poll addr width msk val :: t.host }
  | .assertReg src imm => .next (checkReg src imm s)
  | .collect lenReg i str =>
    if i < collectLength s lenReg then
      memRead (s.cfg.base + bufferOffset .out i) 4 s fun v t =>
        .next { t with
          hostStrs := tableSet t.hostStrs str (collected t i str ++ [v.extractLsb' 0 8])
          host := .collect lenReg (i + 1) str :: t.host }
    else .next { s with hostStrs := tableSet s.hostStrs str (collected s i str) }
  | .loadStr b str => .next { s with host := loadbuf s.cfg b (s.hostStr str) ++ s.host }

/-- One host step. A host with nothing left to issue does nothing. -/
def hostStep (s : State) : Stepped :=
  match s.host with
  | [] => .next s
  | op :: rest => hostExec op { s with host := rest }

end Sys2Proof.Machine
end

