-- ==== Sys2Proof/Machine/Engine.lean ====
section
/-! DEFINITION. The engine tick (spec/70_reset_and_hazards.md R241, spec/20_memory.md R58) and one turn of
each agent. -/

namespace Sys2Proof.Machine

/-- `Exec` of the latched word with its completion (R58; spec/60_exceptions.md R204): an illegal word
completes with `IllegalCommand`, whatever its operands. -/
def runLatched (s : State) : Stepped :=
  match decode s.cmdl with
  | .ok i => exec i s
  | .error _ => .next (completeErr .illegalCommand s)

/-- An engine tick (R241): only while BUSY; `REM > 1` counts down, `REM = 1` completes. -/
def tick (s : State) : Stepped :=
  match s.phase with
  | .idle => .next s
  | .busy => if 1 < s.rem then .next { s with rem := s.rem - 1 } else runLatched { s with rem := 0 }

/-- The engine's turn: no engine step happens while reset is asserted (R241), none is modelled after a
power-down (spec/60_exceptions.md R224). -/
def engineTurn (s : State) : Stepped :=
  match s.line with
  | .released => tick s
  | .asserted => .next s
  | .powerLost => .refused .poweredDown

/-- The host's turn; after a power-down it is refused until a hardware reset (R224). While reset is asserted an
access is refused (R230); DESIGN CHOICE (log 12): the host's instructions that access nothing (`assertReg`,
`loadStr`, the end of `collect`) go on, since the spec bars only accesses and the block's steps there. -/
def hostTurn (s : State) : Stepped :=
  match s.line with
  | .released => hostStep s
  | .asserted => hostStep s
  | .powerLost => .refused .poweredDown

/-- Release of the reset input: the hardware reset (R230). Releasing an input that is not asserted does
nothing (log 12). -/
def releaseReset (s : State) : State :=
  match s.line with
  | .asserted => hardReset s
  | .released => s
  | .powerLost => s

/-- The turn at the head of `turns`; `s` is the state with it taken off. DESIGN CHOICE (log 13): a power-down
while reset is asserted forgets the assertion, so the hardware reset that R224 requires is a new assertion and
its release. -/
def takeTurn (t : Turn) (s : State) : Stepped :=
  match t with
  | .host => hostTurn s
  | .engine => engineTurn s
  | .assertReset => .next { s with line := .asserted }
  | .releaseReset => .next (releaseReset s)
  | .powerDown => .next { s with line := .powerLost }

/-- Who moves when `turns` is used up: a BUSY engine ticks, so that ticks are fair (R241), and otherwise
the host moves (log 7). -/
def defaultTurn (s : State) : Stepped :=
  match s.line, s.phase with
  | .released, .busy => engineTurn s
  | _, _ => hostTurn s

/-- One step of the machine. -/
def stepTurn (s : State) : Stepped :=
  match s.turns with
  | [] => defaultTurn s
  | t :: ts => takeTurn t { s with turns := ts }

/-- The state in which the command word `v` is latched and the very next step is its completion: the
acceptance of `v` (R56) with the smallest latency, and the engine's turn put first (log 16). -/
def latchWord (v : Word) (s : State) : State :=
  { accept v s with rem := 1, line := .released, turns := .engine :: s.turns }

end Sys2Proof.Machine
end

