-- ==== Sys2Proof/Machine/Step.lean ====
section
/-! DEFINITION. The step function (spec/70_reset_and_hazards.md R241) and where a command word is placed
for the next step to run it. -/

namespace Sys2Proof.Machine

/-- One step: one host step, engine tick or platform event. -/
def step (s : State) : Host.Outcome State Fault Refusal := stepTurn s

/-- `s` with the command word of `nbits` bits `w` accepted and due, so that the next step runs it (log 16). -/
def State.withFetchWord (s : State) (nbits w : Nat) : State := latchWord (tableWord nbits w) s

end Sys2Proof.Machine
end

