-- ==== Sys2Proof/Safety.lean ====
section
/-! DEFINITION. The terms claims are stated in: the invariant of the machine, what it means that a command
completes with a result or with an error, who moves next, and the bit streams of
spec/41_bitpack.md. -/

namespace Sys2Proof.Machine

/-! ## The invariant -/

/-- The codes a completion can write (spec/60_exceptions.md R201, spec/93_implementation_defined.md U7):
success, the nine codec errors and the three of the block. 0x0A and 0x0B are reserved. -/
def legalCodes : List Byte :=
  [0x00#8, 0x01#8, 0x02#8, 0x03#8, 0x04#8, 0x05#8, 0x06#8, 0x07#8, 0x08#8, 0x09#8, 0x10#8, 0x11#8, 0x12#8]

/-- While BUSY, the latency is not used up and the results are as acceptance left them (spec/20_memory.md
R56, spec/70_reset_and_hazards.md R241, R243). -/
def State.busyInv (s : State) : Prop :=
  s.phase = .busy →
    1 ≤ s.rem ∧ s.done = false ∧ s.ecode = 0 ∧ s.outLen = 0 ∧ s.res0 = 0 ∧ s.res1 = 0

/-- After an error completion there is no result (spec/10_state.md R29, R30). -/
def State.errorInv (s : State) : Prop := s.ecode ≠ 0 → s.outLen = 0 ∧ s.res0 = 0 ∧ s.res1 = 0

/-- A snapshot is never longer than its buffer (R34). -/
def snapshotFits (snap : Option Bytes) (cap : Nat) : Prop := ∀ bs, snap = some bs → bs.length ≤ cap

/-- The invariant every step keeps: legal parameters, buffers in canonical form and within their
capacities, result bytes that hold values (R29, R41), codes of the table, and the three above. -/
def State.Inv (s : State) : Prop :=
  s.cfg.wf = true ∧
  s.inBuf.wf s.cfg.maxIn = true ∧ s.auxBuf.wf s.cfg.maxAux = true ∧ s.outBuf.wf s.cfg.maxOut = true ∧
  s.outLen.toNat ≤ s.cfg.maxOut ∧ (∀ k, k < s.outLen.toNat → (s.outBuf.read k).isSome = true) ∧
  s.ecode ∈ legalCodes ∧ s.busyInv ∧ s.errorInv ∧
  snapshotFits s.snapIn s.cfg.maxIn ∧ snapshotFits s.snapAux s.cfg.maxAux

/-! ## Completion -/

/-- The AUX buffer and AUX_LEN after a completion that returns `aux` (spec/20_memory.md R58): a returned
prefix is written from index 0, the bytes above it and everything else stay. -/
def auxAfter (s t : State) (aux : Option Bytes) : Prop :=
  match aux with
  | none => t.auxLen = s.auxLen ∧ t.auxBuf = s.auxBuf
  | some p =>
    t.auxLen.toNat = p.length ∧ ∀ k, t.auxBuf.read k = if k < p.length then p[k]? else s.auxBuf.read k

/-- The command `i` in state `s` completes successfully with these results (spec/60_exceptions.md R202):
OUT holds exactly `out`, and no OUT byte above it has a value. -/
def CompletesWith (i : Instr) (s : State) (out : Bytes) (aux : Option Bytes) (res0 res1 : Word) : Prop :=
  ∃ t, exec i s = .next t ∧ t.ecode = 0 ∧ t.err = false ∧ t.done = true ∧ t.phase = .idle ∧
    t.outLen.toNat = out.length ∧ (∀ k, t.outBuf.read k = out[k]?) ∧ t.res0 = res0 ∧ t.res1 = res1 ∧
    auxAfter s t aux

/-- The command `i` in state `s` completes with the error code `code` (R203): no result, AUX and AUX_LEN as
they were, no OUT byte with a value. -/
def FailsWith (i : Instr) (s : State) (code : Byte) : Prop :=
  ∃ t, exec i s = .next t ∧ t.ecode = code ∧ t.err = true ∧ t.done = true ∧ t.phase = .idle ∧
    t.outLen = 0 ∧ (∀ k, t.outBuf.read k = none) ∧ t.res0 = 0 ∧ t.res1 = 0 ∧
    t.auxLen = s.auxLen ∧ t.auxBuf = s.auxBuf

/-- Completes with this result if it fits OUT, and with `CapacityExceeded` (0x12) if it does not (R206). -/
def CompletesIfFits (i : Instr) (s : State) (out : Bytes) (res0 res1 : Word) : Prop :=
  (out.length ≤ s.cfg.maxOut → CompletesWith i s out none res0 res1) ∧
  (s.cfg.maxOut < out.length → FailsWith i s 0x12#8)

/-- The same for a command that also returns the prefix `p` to AUX. -/
def CompletesIfBothFit (i : Instr) (s : State) (out p : Bytes) (res0 res1 : Word) : Prop :=
  (p.length ≤ s.cfg.maxAux ∧ out.length ≤ s.cfg.maxOut → CompletesWith i s out (some p) res0 res1) ∧
  (s.cfg.maxAux < p.length ∨ s.cfg.maxOut < out.length → FailsWith i s 0x12#8)

/-- What every command leaves unchanged (spec/20_memory.md R58): the parameters, CTRL, OVR, IN_LEN, IN, the
latched command and its snapshots, REM, the reset input, the host, the turns and the draws. That CMDL, the
snapshots and REM stay is the model's choice (log 15). -/
def sameOutsideResults (s t : State) : Prop :=
  t.cfg = s.cfg ∧ t.ie = s.ie ∧ t.ovr = s.ovr ∧ t.inLen = s.inLen ∧ (∀ k, t.inBuf.read k = s.inBuf.read k) ∧
  t.cmdl = s.cmdl ∧ t.snapIn = s.snapIn ∧ t.snapAux = s.snapAux ∧ t.rem = s.rem ∧ t.line = s.line ∧
  t.host = s.host ∧ t.hostRegs = s.hostRegs ∧ t.hostStrs = s.hostStrs ∧ t.hostFailed = s.hostFailed ∧
  t.turns = s.turns ∧ t.draws = s.draws

/-- The bytes of OUT that a completion leaves with a value are those below OUT_LEN (spec/10_state.md R41). -/
def outBelowLength (t : State) : Prop :=
  ∀ k, (t.outBuf.read k).isSome = true ↔ k < t.outLen.toNat

/-! ## Operand use (spec/30_encoding.md R75) and codes (spec/60_exceptions.md R201) -/

/-- The commands that read IN. -/
def readsIn : Instr → Bool
  | .caExpand => false
  | .b58Enc => true
  | .b58Dec => true
  | .b58chkEnc _ => true
  | .b58chkDec => true
  | .convbits _ _ _ => true
  | .polymod => true
  | .caCrchk => true
  | .caVerify => true
  | .caPack _ => true
  | .caEnc => true
  | .caDec => true
  | .caChkenc _ => true
  | .caChkdec => true

/-- The commands that read AUX. -/
def readsAux : Instr → Bool
  | .caExpand => true
  | .caCrchk => true
  | .caVerify => true
  | .caEnc => true
  | .caChkenc _ => true
  | .b58Enc => false
  | .b58Dec => false
  | .b58chkEnc _ => false
  | .b58chkDec => false
  | .convbits _ _ _ => false
  | .polymod => false
  | .caPack _ => false
  | .caDec => false
  | .caChkdec => false

/-- The commands that write AUX on success. -/
def writesAux (i : Instr) : Bool := i == .caDec || i == .caChkdec

/-- The codes a legal command can complete with, by the "raised by" column of R201. -/
def raisedBy : Instr → List Byte
  | .b58Enc => [0x00#8, 0x12#8]
  | .b58Dec => [0x00#8, 0x01#8, 0x12#8]
  | .b58chkEnc _ => [0x00#8, 0x12#8]
  | .b58chkDec => [0x00#8, 0x01#8, 0x02#8, 0x03#8, 0x12#8]
  | .convbits _ _ pad => if pad then [0x00#8, 0x11#8, 0x12#8] else [0x00#8, 0x04#8, 0x11#8, 0x12#8]
  | .polymod => [0x00#8, 0x11#8, 0x12#8]
  | .caExpand => [0x00#8, 0x12#8]
  | .caCrchk => [0x00#8, 0x11#8, 0x12#8]
  | .caVerify => [0x00#8, 0x11#8, 0x12#8]
  | .caPack _ => [0x00#8, 0x06#8, 0x07#8, 0x12#8]
  | .caEnc => [0x00#8, 0x11#8, 0x12#8]
  | .caDec => [0x00#8, 0x01#8, 0x05#8, 0x09#8, 0x12#8]
  | .caChkenc _ => [0x00#8, 0x06#8, 0x07#8, 0x12#8]
  | .caChkdec => [0x00#8, 0x01#8, 0x04#8, 0x05#8, 0x08#8, 0x09#8, 0x12#8]

/-! ## Who moves next -/

/-- The host issues its next instruction in this step, outside reset. -/
abbrev HostMoves (s : State) : Prop :=
  s.line = .released ∧ (s.turns.head? = some .host ∨ (s.turns = [] ∧ s.phase = .idle))

/-- The engine ticks in this step, outside reset. -/
abbrev EngineMoves (s : State) : Prop :=
  s.line = .released ∧ (s.turns.head? = some .engine ∨ (s.turns = [] ∧ s.phase = .busy))

/-- The turn taken off. -/
def State.passTurn (s : State) : State := { s with turns := s.turns.tail }

/-- The turn and the host's instruction taken off. -/
def State.issued (s : State) : State := { s with turns := s.turns.tail, host := s.host.tail }

/-- Every host-visible field and every buffer byte is as after reset (spec/10_state.md R42). -/
def resetValues (t : State) : Prop :=
  t.phase = .idle ∧ t.ie = false ∧ t.busy = false ∧ t.done = false ∧ t.err = false ∧ t.ovr = false ∧
  t.ecode = 0 ∧ t.inLen = 0 ∧ t.auxLen = 0 ∧ t.outLen = 0 ∧ t.res0 = 0 ∧ t.res1 = 0 ∧ t.irq = false ∧
  (∀ b k, (t.buf b).read k = none)

/-- A snapshot of `len` bytes of a buffer of capacity `cap` (spec/20_memory.md R56): every byte that was
written is in it at its index; `none` when the length is above the capacity. -/
def snapshotOf (m : Memory) (cap len : Nat) (snap : Option Bytes) : Prop :=
  (len ≤ cap →
    ∃ bs, snap = some bs ∧ bs.length = len ∧ ∀ k b, k < len → m.read k = some b → bs[k]? = some b) ∧
  (cap < len → snap = none)

/-- The value of STATUS as a number, field by field (spec/10_state.md R25). -/
def statusValue (s : State) : Word :=
  BitVec.ofNat 32 ((if s.phase = .busy then 1 else 0) + (if s.done then 2 else 0) +
    (if s.ecode ≠ 0 then 4 else 0) + (if s.ovr then 8 else 0) + 256 * s.ecode.toNat)

/-! ## Strings of bits and characters -/

/-- The low `w` bits of a value, most significant first. -/
def bitsOf (w v : Nat) : List Bool := (List.range w).reverse.map fun k => v.testBit k

/-- The big-endian bit stream of values of `w` bits each (spec/41_bitpack.md R136, R138). -/
def bitStream (w : Nat) (vals : Bytes) : List Bool := vals.flatMap fun v => bitsOf w v.toNat

/-- Two bit strings, bit by bit. -/
def orBits (a b : List Bool) : List Bool := List.zipWith (· || ·) a b

/-- The bit stream of values of any size, from the bits still pending (spec/41_bitpack.md R131, R132): the
value is ORed into the pending bits with `f` zeros below, right-aligned and cut to that length; the whole groups
of `t` bits then leave, so that no later value reaches them. -/
def mergedStream (f t : Nat) : List Bool → Bytes → List Bool
  | pending, [] => pending
  | pending, v :: vs =>
    let bits := orBits (pending ++ List.replicate f false) (bitsOf (pending.length + f) v.toNat)
    let whole := bits.length / t * t
    bits.take whole ++ mergedStream f t (bits.drop whole) vs

/-- Every value fits `w` bits. -/
def fitsBits (w : Nat) (vals : Bytes) : Prop := ∀ v ∈ vals, v.toNat < 2 ^ w

/-- A prefix that `CA_DEC` accepts in lower case (spec/43_cashaddr_codec.md R187): nonempty, with no digit,
no `:` and no upper-case letter. -/
def plainLowerPrefix (p : Bytes) : Prop :=
  p ≠ [] ∧ ∀ b ∈ p, isDigit b = false ∧ isUpper b = false ∧ b ≠ separator

end Sys2Proof.Machine
end

