-- ==== Sys2Proof/Certificates/Slice0/Obligations.lean ====
section
/-! DEFINITION. The statements for the provers. Each docstring names the rules of spec/ it rests on;
OBLIGATIONS.json lists them. -/

open Sys2Proof Sys2Proof.Machine

/-! ## Encoding (spec/30_encoding.md) -/

/-- The words of R79's examples and of vectors V-E1 to V-E7, read from the spec, decode as it says. -/
def Obligations.SpecWordsDecode : Prop :=
  (∀ p ∈ [(0x00015810#32, Instr.convbits 8 5 true), (0x05000003#32, .b58chkEnc 0x05#8),
      (0x00040030#32, .caPack .p2sh), (0x00000001#32, .b58Enc), (0x00000020#32, .polymod),
      (0x000E0033#32, .caChkenc .p2pk), (0xFF000003#32, .b58chkEnc 0xFF#8), (0x00000034#32, .caChkdec)],
    decode p.1 = .ok p.2 ∧ encode p.2 = p.1) ∧
  (∀ w ∈ [0x00000000#32, 0x00000005#32, 0x00100001#32, 0x01000001#32, 0x00000103#32, 0x00010030#32],
    ∃ e, decode w = .error e)

/-- R70, R74, R79: no bit of a field is dropped. -/
def Obligations.DecodeOfEncodeGivesTheCommand : Prop :=
  ∀ i : Instr, i.wf = true → decode (encode i) = .ok i

/-- R78: a word decodes to a command exactly when a row of the opcode table matches it; the row is the one
of the command's opcode, the word is the command's with its field values, and no two rows match one word. (The spec's own inference.) -/
def Obligations.DecoderAgreesWithOpcodeTable : Prop :=
  (∀ (w : Word) (i : Instr), decode w = .ok i →
    i.wf = true ∧ encode i = w ∧ ∃ r ∈ opcodeRows, w &&& r.mask = r.pat ∧ r.pat.extractLsb' 0 8 = i.opcode) ∧
  (∀ (w : Word), ∀ r ∈ opcodeRows, w &&& r.mask = r.pat → ∃ i, decode w = .ok i) ∧
  (∀ (w : Word), ∀ r ∈ opcodeRows, ∀ r' ∈ opcodeRows, w &&& r.mask = r.pat → w &&& r'.mask = r'.pat → r = r')

/-! ## The step and the engine (spec/20_memory.md R58, spec/70_reset_and_hazards.md R240, R241) -/

/-- R58, R241: the tick that finds REM = 1 runs the command that CMDL decodes to. REM is 0 afterwards; the
default turn is the model's (log 7). -/
def Obligations.DueTickRunsTheDecodedCommand : Prop :=
  ∀ (s : State) (i : Instr), EngineMoves s → s.phase = .busy → s.rem = 1 → decode s.cmdl = .ok i →
    step s = exec i { s.passTurn with rem := 0 }

/-- What withFetchWord places is run by the very next step (log 16): from any state, the step is `exec` of
the decoded command in the state that acceptance leaves. -/
def Obligations.FetchedWordRunsInTheNextStep : Prop :=
  ∀ (s : State) (i : Instr), i.wf = true →
    step (s.withFetchWord 32 (encode i).toNat) =
      exec i { s.withFetchWord 32 (encode i).toNat with rem := 0, turns := s.turns }

/-- R77, R204: an illegal word completes with `IllegalCommand`, whatever the snapshots are, and writes no
result. -/
def Obligations.IllegalWordCompletesWithIllegalCommand : Prop :=
  ∀ s : State, EngineMoves s → s.phase = .busy → s.rem = 1 → (∀ i, decode s.cmdl ≠ .ok i) →
    ∃ t, step s = .next t ∧ t.ecode = 0x10#8 ∧ t.err = true ∧ t.done = true ∧ t.phase = .idle ∧
      t.outLen = 0 ∧ t.res0 = 0 ∧ t.res1 = 0 ∧ t.auxLen = s.auxLen ∧ t.auxBuf = s.auxBuf ∧
      t.inLen = s.inLen ∧ t.inBuf = s.inBuf ∧ t.ie = s.ie ∧ t.ovr = s.ovr

/-- R241, R224: a tick while REM is above 1 only counts down; a tick while IDLE, and one while reset is
asserted, does nothing; an IDLE engine keeps all its state while the host issues nothing. What
an engine turn with no tick does is the model's choice (log 8). -/
def Obligations.TickCountsDownAndIdleKeepsState : Prop :=
  ∀ s : State,
    (EngineMoves s → s.phase = .busy → 1 < s.rem → step s = .next { s.passTurn with rem := s.rem - 1 }) ∧
    (EngineMoves s → s.phase = .idle → step s = .next s.passTurn) ∧
    (s.line = .asserted → s.turns.head? = some .engine → step s = .next s.passTurn) ∧
    (HostMoves s → s.phase = .idle → s.host = [] → step s = .next s.passTurn)

/-- R240: every command completes. With the engine's ticks alone, it does so after REM of them. That a BUSY engine ticks when no turn is
listed is the model's fair default (log 7). -/
def Obligations.BusyCommandCompletes : Prop :=
  ∀ s : State, s.line = .released → s.turns = [] → s.phase = .busy → 1 ≤ s.rem →
    ∃ t, core.run s.rem s = .next t ∧ t.phase = .idle ∧ t.done = true

/-! ## Acceptance and the host window (spec/20_memory.md R50 to R57, spec/10_state.md R21 to R33) -/

/-- R56: a write of `v` to CMD while IDLE. -/
def Obligations.CmdWriteWhileIdleIsAccepted : Prop :=
  ∀ (s : State) (v : Word) (rest : List HostOp), HostMoves s → s.phase = .idle →
    s.host = .write (s.cfg.base + 0x00C) 4 v :: rest →
    ∃ t, step s = .next t ∧ t.cmdl = v ∧ t.phase = .busy ∧ t.busy = true ∧ t.done = false ∧ t.ecode = 0 ∧
      t.err = false ∧ t.outLen = 0 ∧ t.res0 = 0 ∧ t.res1 = 0 ∧ 1 ≤ t.rem ∧
      snapshotOf s.inBuf s.cfg.maxIn s.inLen.toNat t.snapIn ∧
      snapshotOf s.auxBuf s.cfg.maxAux s.auxLen.toNat t.snapAux ∧
      t.ovr = s.ovr ∧ t.ie = s.ie ∧ t.irq = false ∧ t.inLen = s.inLen ∧ t.auxLen = s.auxLen ∧
      t.inBuf = s.inBuf ∧ t.auxBuf = s.auxBuf ∧ t.cfg = s.cfg ∧ t.line = s.line ∧ t.host = rest ∧
      t.turns = s.turns.tail ∧ t.hostRegs = s.hostRegs ∧ t.hostStrs = s.hostStrs ∧
      t.hostFailed = s.hostFailed

/-- R57: a write while BUSY to CMD, a length or result register, or a buffer word below capacity is lost and
sets OVR; a write to ID or CAP_* is ignored without OVR. -/
def Obligations.WriteWhileBusyIsLost : Prop :=
  ∀ (s : State) (off : Nat) (v : Word) (rest : List HostOp), s.cfg.wf = true → HostMoves s →
    s.phase = .busy → s.host = .write (s.cfg.base + off) 4 v :: rest →
    ((off ∈ [0x00C, 0x010, 0x014, 0x018, 0x01C, 0x020] ∨
        ∃ b i, i < capacity s.cfg b ∧ off = bufferOffset b i) →
      step s = .next { s.issued with ovr := true }) ∧
    (off ∈ [0x000, 0x024, 0x028, 0x02C] → step s = .next s.issued)

/-- R22, R27 to R31, R53: register and buffer writes while IDLE. A length register keeps bits 15:0, a buffer
word stores bits 7:0, and the read-only words ignore writes without OVR. -/
def Obligations.WriteWhileIdleStores : Prop :=
  ∀ (s : State) (off : Nat) (v : Word) (rest : List HostOp), s.cfg.wf = true → HostMoves s →
    s.phase = .idle → s.host = .write (s.cfg.base + off) 4 v :: rest →
    (off = 0x010 → step s = .next { s.issued with inLen := BitVec.ofNat 16 (v.toNat % 65536) }) ∧
    (off = 0x014 → step s = .next { s.issued with auxLen := BitVec.ofNat 16 (v.toNat % 65536) }) ∧
    (off ∈ [0x000, 0x018, 0x01C, 0x020, 0x024, 0x028, 0x02C] → step s = .next s.issued) ∧
    (∀ i, i < s.cfg.maxOut → off = bufferOffset .out i → step s = .next s.issued) ∧
    (∀ i, i < s.cfg.maxIn → off = bufferOffset .inp i →
      ∃ m, step s = .next { s.issued with inBuf := m } ∧
        ∀ k, m.read k = if k = i then some (BitVec.ofNat 8 (v.toNat % 256)) else s.inBuf.read k) ∧
    (∀ i, i < s.cfg.maxAux → off = bufferOffset .aux i →
      ∃ m, step s = .next { s.issued with auxBuf := m } ∧
        ∀ k, m.read k = if k = i then some (BitVec.ofNat 8 (v.toNat % 256)) else s.auxBuf.read k)

/-- R22 to R31: what a read of each register returns, in either phase. -/
def Obligations.RegisterReadReturnsItsFields : Prop :=
  ∀ (s : State) (off dst : Nat) (v : Word) (rest : List HostOp), HostMoves s →
    s.host = .read (s.cfg.base + off) 4 dst :: rest →
    (off, v) ∈ [(0x000, 0x42353843#32), (0x004, if s.ie then 1#32 else 0#32), (0x008, statusValue s),
      (0x00C, 0#32), (0x010, BitVec.ofNat 32 s.inLen.toNat), (0x014, BitVec.ofNat 32 s.auxLen.toNat),
      (0x018, BitVec.ofNat 32 s.outLen.toNat), (0x01C, s.res0), (0x020, s.res1),
      (0x024, BitVec.ofNat 32 s.cfg.maxIn), (0x028, BitVec.ofNat 32 s.cfg.maxAux),
      (0x02C, BitVec.ofNat 32 s.cfg.maxOut)] →
    step s = .next { s.issued with hostRegs := tableSet s.hostRegs dst v }

/-- R53, R55, R57: a read of a buffer byte returns it zero-extended, and changes nothing of the block. For a
byte with no specified value, an OUT byte while BUSY among them, nothing is said but that it is a byte. (Log 4.) -/
def Obligations.BufferReadReturnsTheByte : Prop :=
  ∀ (s : State) (b : Buf) (i dst : Nat) (rest : List HostOp), s.cfg.wf = true → HostMoves s →
    i < capacity s.cfg b → s.host = .read (s.cfg.base + bufferOffset b i) 4 dst :: rest →
    ∃ t v, step s = .next t ∧ v.toNat < 256 ∧
      t = { s.issued with hostRegs := tableSet s.hostRegs dst v, draws := t.draws } ∧
      ∀ x, (b ≠ .out ∨ s.phase = .idle) → (s.buf b).read i = some x → v.toNat = x.toNat

/-- R32 and R51: the reserved words, registers from 0x030 up and buffer words at or above a capacity, read 0
and ignore writes without OVR, in either phase. -/
def Obligations.ReservedWordReadsZeroAndIgnoresWrites : Prop :=
  ∀ (s : State) (off dst : Nat) (v : Word) (rest : List HostOp), s.cfg.wf = true → HostMoves s →
    ((0x030 ≤ off ∧ off ≤ 0x3FFC ∧ off % 4 = 0) ∨
      ∃ b i, capacity s.cfg b ≤ i ∧ i < 4096 ∧ off = bufferOffset b i) →
    (s.host = .read (s.cfg.base + off) 4 dst :: rest →
      step s = .next { s.issued with hostRegs := tableSet s.hostRegs dst 0#32 }) ∧
    (s.host = .write (s.cfg.base + off) 4 v :: rest → step s = .next s.issued)

/-- R52: an access in the window that is not 32 bits wide, or not at a multiple of 4, is refused. -/
def Obligations.UnadmittedAccessIsRefused : Prop :=
  ∀ (s : State) (off width dst : Nat) (v msk : Word) (rest : List HostOp), HostMoves s → off < 0x10000 →
    (width ≠ 4 ∨ off % 4 ≠ 0) →
    (s.host = .write (s.cfg.base + off) width v :: rest ∨ s.host = .read (s.cfg.base + off) width dst :: rest ∨
      s.host = .poll (s.cfg.base + off) width msk v :: rest) →
    step s = .refused .unadmittedAccess

/-- R23 to R25: in either phase, a write to STATUS acts only through its W1C bits DONE and OVR, and a write to
CTRL with SRST = 0 sets IE to bit 0 and nothing else. -/
def Obligations.ControlWritesActOnTheirBitsOnly : Prop :=
  ∀ (s : State) (v : Word) (rest : List HostOp), HostMoves s →
    (s.host = .write (s.cfg.base + 0x008) 4 v :: rest →
      step s = .next { s.issued with
        done := if v.getLsbD 1 then false else s.done
        ovr := if v.getLsbD 3 then false else s.ovr }) ∧
    (s.host = .write (s.cfg.base + 0x004) 4 v :: rest → v.getLsbD 1 = false →
      step s = .next { s.issued with ie := v.getLsbD 0 })

/-- R59(c), R247: while BUSY no host step changes the running command, its snapshots, the operand buffers or
the length registers, unless it is the soft reset. -/
def Obligations.HostCannotChangeTheRunningCommand : Prop :=
  ∀ s t : State, s.phase = .busy → s.turns.head? = some .host → step s = .next t →
    (t.phase = .busy ∧ t.cmdl = s.cmdl ∧ t.snapIn = s.snapIn ∧ t.snapAux = s.snapAux ∧ t.rem = s.rem ∧
      t.inBuf = s.inBuf ∧ t.auxBuf = s.auxBuf ∧ t.outBuf = s.outBuf ∧ t.inLen = s.inLen ∧
      t.auxLen = s.auxLen ∧ t.outLen = s.outLen ∧ t.res0 = s.res0 ∧ t.res1 = s.res1 ∧ t.ecode = s.ecode) ∨
    (∃ v rest, s.host = .write (s.cfg.base + 0x004) 4 v :: rest ∧ v.getLsbD 1 = true ∧ resetValues t)

/-- R82, R56: only a write of CMD by the host starts a command, and the word written is the one latched. -/
def Obligations.OnlyCmdWriteStartsACommand : Prop :=
  ∀ s t : State, s.phase = .idle → step s = .next t → t.phase = .busy →
    ∃ v rest, s.host = .write (s.cfg.base + 0x00C) 4 v :: rest ∧ t.cmdl = v

/-- R210, R213: DONE is set only by a completion, the engine's tick that finds the latency used up. -/
def Obligations.DoneIsSetOnlyByCompletion : Prop :=
  ∀ s t : State, s.done = false → step s = .next t → t.done = true →
    s.phase = .busy ∧ s.rem ≤ 1 ∧ EngineMoves s ∧ t.phase = .idle

/-- R80: `poll` of STATUS goes on when the masked value matches, and otherwise stays to read again. One read per
step is the model's choice (log 9). -/
def Obligations.PollOfStatusRepeatsUntilItMatches : Prop :=
  ∀ (s : State) (msk val : Word) (rest : List HostOp), HostMoves s →
    s.host = .poll (s.cfg.base + 0x008) 4 msk val :: rest →
    (statusValue s &&& msk = val → step s = .next s.issued) ∧
    (statusValue s &&& msk ≠ val → step s = .next s.passTurn)

/-- R80: `assert` is a check, not an access: it changes nothing of the block and the host goes on; and a
register that a read has loaded holds the value until it is loaded again. That a check that does not hold is
recorded, and that a register nothing has loaded holds 0, are the model's choices (log 9). -/
def Obligations.AssertChecksAndGoesOn : Prop :=
  ∀ (s : State) (src : Nat) (imm : Word) (rest : List HostOp), HostMoves s → s.host = .assertReg src imm :: rest →
    (s.hostReg src = imm → step s = .next s.issued) ∧
    (s.hostReg src ≠ imm → step s = .next { s.issued with hostFailed := true }) ∧
    (s.hostRegs = [] → s.hostReg src = 0) ∧
    (∀ n dst v, ({ s with hostRegs := tableSet s.hostRegs dst v } : State).hostReg n =
      if n = dst then v else s.hostReg n)

/-- R81: `loadbuf IN` and `loadbuf AUX` of `n` bytes take `n + 1` host steps and leave the length register
and the first `n` bytes of the buffer as written; nothing else changes. The host's
list and the default turn are the model's (logs 7, 9). -/
def Obligations.LoadbufFillsTheBuffer : Prop :=
  ∀ (s : State) (bs : Bytes) (rest : List HostOp), s.cfg.wf = true → s.line = .released → s.turns = [] →
    s.phase = .idle →
    (bs.length ≤ s.cfg.maxIn → s.host = loadbuf s.cfg .inp bs ++ rest →
      ∃ m, core.run (bs.length + 1) s =
          .next { s with host := rest, inLen := BitVec.ofNat 16 bs.length, inBuf := m } ∧
        ∀ k, m.read k = if k < bs.length then bs[k]? else s.inBuf.read k) ∧
    (bs.length ≤ s.cfg.maxAux → s.host = loadbuf s.cfg .aux bs ++ rest →
      ∃ m, core.run (bs.length + 1) s =
          .next { s with host := rest, auxLen := BitVec.ofNat 16 bs.length, auxBuf := m } ∧
        ∀ k, m.read k = if k < bs.length then bs[k]? else s.auxBuf.read k)

/-! ## Reset, interrupt, power (spec/70_reset_and_hazards.md, spec/60_exceptions.md) -/

/-- R42, for every instance: the reset values, the constants and IRQ. The numbers of `State.reset` are the model's (log 1). -/
def Obligations.ResetStateHasTheResetValues : Prop :=
  (∀ c : Config, resetValues (State.resetOf c) ∧ statusWord (State.resetOf c) = 0 ∧
    ctrlWord (State.resetOf c) = 0 ∧ (readWord .id (State.resetOf c)).1 = 0x42353843#32 ∧
    (readWord .capIn (State.resetOf c)).1 = BitVec.ofNat 32 c.maxIn ∧
    (readWord .capAux (State.resetOf c)).1 = BitVec.ofNat 32 c.maxAux ∧
    (readWord .capOut (State.resetOf c)).1 = BitVec.ofNat 32 c.maxOut) ∧
  ∃ c, State.reset = State.resetOf c ∧ c.wf = true

/-- R230: while the reset input is asserted a host access is refused, on the host's turn and on the default one
(log 7); its release, in either phase, leaves the reset values. ID and CAP_* are constants and not part of the
change. That an access of a wrong width or alignment is refused under the same name is the model's order of
checks (log 11), and that the host's list stays is the model's choice (log 24). -/
def Obligations.HardwareResetRule : Prop :=
  ∀ s : State, s.line = .asserted →
    (∀ (off width dst : Nat) (v msk : Word) (rest : List HostOp), off < 0x10000 →
      (s.turns.head? = some .host ∨ s.turns = []) →
      (s.host = .write (s.cfg.base + off) width v :: rest ∨ s.host = .read (s.cfg.base + off) width dst :: rest ∨
        s.host = .poll (s.cfg.base + off) width msk v :: rest) →
      step s = .refused .accessDuringReset) ∧
    (s.turns.head? = some .releaseReset →
      ∃ t, step s = .next t ∧ t.line = .released ∧ resetValues t ∧ t.cfg = s.cfg ∧ t.host = s.host)

/-- R231: soft reset, accepted while BUSY or IDLE: no completion, no result, IE 0 whatever bit 0 was, OVR not
set, no buffer byte with a value. That the host's list, registers, strings and checks and the turns stay is the
model's choice (log 24). -/
def Obligations.SoftResetRule : Prop :=
  ∀ (s : State) (v : Word) (rest : List HostOp), HostMoves s →
    s.host = .write (s.cfg.base + 0x004) 4 v :: rest → v.getLsbD 1 = true →
    ∃ t, step s = .next t ∧ resetValues t ∧ t.cfg = s.cfg ∧ t.line = .released ∧ t.host = rest ∧
      t.turns = s.turns.tail ∧ t.hostRegs = s.hostRegs ∧ t.hostStrs = s.hostStrs ∧
      t.hostFailed = s.hostFailed

/-- R210: what raises and what lowers IRQ. A completion with IE set raises it; setting IE while DONE = 1
raises it at once; `ack` (R214), a CTRL write with IE = 0 and an acceptance lower it. -/
def Obligations.InterruptLineRule : Prop :=
  ∀ s : State,
    (∀ (i : Instr) (t : State), exec i s = .next t → t.irq = s.ie) ∧
    (∀ rest t, HostMoves s → s.host = opAck s.cfg :: rest → step s = .next t →
      t.irq = false ∧ t.ovr = false ∧ t.ecode = s.ecode) ∧
    (∀ v rest t, HostMoves s → s.host = .write (s.cfg.base + 0x004) 4 v :: rest → step s = .next t →
      t.irq = (v.getLsbD 0 && !v.getLsbD 1 && s.done)) ∧
    (∀ v rest t, HostMoves s → s.phase = .idle → s.host = .write (s.cfg.base + 0x00C) 4 v :: rest →
      step s = .next t → t.irq = false)

/-- R224 with U16: after a power-down every host and engine step is refused until a hardware reset, which
restores the reset values. The refusal is the model's choice (log 13). -/
def Obligations.PowerLossIsRefusedUntilReset : Prop :=
  (∀ s : State, s.turns.head? = some .powerDown → ∃ t, step s = .next t ∧ t.line = .powerLost) ∧
  (∀ s : State, s.line = .powerLost →
    (s.turns = [] ∨ s.turns.head? = some .host ∨ s.turns.head? = some .engine → step s = .refused .poweredDown) ∧
    (∀ ts, s.turns = .assertReset :: .releaseReset :: ts →
      ∃ t, core.run 2 s = .next t ∧ t.line = .released ∧ resetValues t ∧ t.cfg = s.cfg))

/-! ## Errors and frames (spec/60_exceptions.md) -/

/-- R203 (and R208): an error completion records its code and nothing else. That CMDL,
the snapshots and REM stay is the model's choice (log 15). -/
def Obligations.ErrorCompletionRecordsOnlyTheCode : Prop :=
  ∀ (i : Instr) (s t : State), exec i s = .next t → t.ecode ≠ 0 →
    t.outLen = 0 ∧ t.res0 = 0 ∧ t.res1 = 0 ∧ t.err = true ∧ t.done = true ∧ t.phase = .idle ∧
    t.auxLen = s.auxLen ∧ (∀ k, t.auxBuf.read k = s.auxBuf.read k) ∧ (∀ k, t.outBuf.read k = none) ∧
    sameOutsideResults s t

/-- R201: each command completes only with a code that the table's "raised by" column gives it. -/
def Obligations.CommandsRaiseOnlyTheirCodes : Prop :=
  ∀ (i : Instr) (s t : State), exec i s = .next t → t.ecode ∈ raisedBy i

/-- R58, R75: the frame of the twelve commands that do not write AUX: B58_ENC, B58_DEC, B58CHK_ENC,
B58CHK_DEC, CONVBITS, POLYMOD, CA_EXPAND, CA_CRCHK, CA_VERIFY, CA_PACK, CA_ENC and CA_CHKENC. They store to
OUT alone, from index 0, and the OUT bytes above OUT_LEN have no value afterwards (R41). That CMDL,
the snapshots and REM stay is the model's choice (log 15). -/
def Obligations.FrameOfCommandsThatKeepAux : Prop :=
  ∀ (i : Instr) (s t : State), i ≠ .caDec → i ≠ .caChkdec → s.cfg.wf = true → exec i s = .next t →
    sameOutsideResults s t ∧ t.auxLen = s.auxLen ∧ (∀ k, t.auxBuf.read k = s.auxBuf.read k) ∧
    outBelowLength t

/-- R58, R180, R185: the frame of CA_DEC and CA_CHKDEC: AUX and AUX_LEN change only on success, and then only
the bytes of AUX below the new AUX_LEN. That CMDL,
the snapshots and REM stay is the model's choice (log 15). -/
def Obligations.FrameOfCommandsThatReturnAPrefix : Prop :=
  ∀ (i : Instr) (s t : State), i = .caDec ∨ i = .caChkdec → s.cfg.wf = true → exec i s = .next t →
    sameOutsideResults s t ∧ outBelowLength t ∧
    (t.ecode ≠ 0 → t.auxLen = s.auxLen ∧ ∀ k, t.auxBuf.read k = s.auxBuf.read k) ∧
    (t.ecode = 0 → ∀ k, t.auxLen.toNat ≤ k → t.auxBuf.read k = s.auxBuf.read k)

/-- R209: a command's code and results depend only on the parameters and its snapshots. The prefix that CA_DEC
and CA_CHKDEC return on success (R202, R213) is a result: AUX_LEN and the AUX bytes below it. -/
def Obligations.ResultsDependOnlyOnTheSnapshots : Prop :=
  ∀ (i : Instr) (s s' t t' : State), s.cfg = s'.cfg → s.snapIn = s'.snapIn → s.snapAux = s'.snapAux →
    exec i s = .next t → exec i s' = .next t' →
    t.ecode = t'.ecode ∧ t.outLen = t'.outLen ∧ t.outBuf = t'.outBuf ∧ t.res0 = t'.res0 ∧ t.res1 = t'.res1 ∧
    (writesAux i = true → t.ecode = 0 →
      t.auxLen = t'.auxLen ∧ ∀ k, k < t.auxLen.toNat → t.auxBuf.read k = t'.auxBuf.read k)

/-- R204: a used operand whose length was above its capacity completes with `CapacityExceeded`, whatever the
command's fields and its other operand are. -/
def Obligations.UsedOperandAboveCapacityFails : Prop :=
  ∀ (i : Instr) (s : State),
    ((readsIn i = true ∧ s.snapIn = none) ∨ (readsAux i = true ∧ s.snapAux = none)) → FailsWith i s 0x12#8

/-! ## Base58Check (spec/40_base58check.md) -/

/-- R104, R206: B58_ENC completes with the encoding of its operand if it fits OUT. -/
def Obligations.B58EncCompletes : Prop :=
  ∀ (s : State) (bs : Bytes), s.cfg.wf = true → s.snapIn = some bs →
    CompletesIfFits .b58Enc s (base58Encode bs) 0 0

/-- R100, R101: the encoding is one `1` for each leading zero byte, then the base-58 digits of the bytes read
big-endian, of which the first is not 0. -/
def Obligations.Base58EncodeIsTheDigitString : Prop :=
  ∀ bs : Bytes, ∃ ds : List Nat,
    base58Encode bs = List.replicate (leadingCount 0#8 bs) 0x31#8 ++ ds.map (fun d => base58Alphabet.getD d 0#8) ∧
    (∀ d ∈ ds, d < 58) ∧ ds.head? ≠ some 0 ∧ ds.foldl (fun n d => 58 * n + d) 0 = beNat bs

/-- R102, R105: B58_DEC completes with `InvalidCharacter` exactly when a byte is outside the alphabet, and
otherwise with the leading zero bytes and the shortest rendering of the digits' value. -/
def Obligations.B58DecCompletes : Prop :=
  ∀ (s : State) (t : Bytes), s.cfg.wf = true → s.snapIn = some t →
    ((∃ c ∈ t, c ∉ base58Alphabet) → FailsWith .b58Dec s 0x01#8) ∧
    (∀ ds : List Nat, t.map (fun c => base58Alphabet.idxOf? c) = ds.map some →
      ∃ body : Bytes, body.head? ≠ some 0#8 ∧ beNat body = ds.foldl (fun n d => 58 * n + d) 0 ∧
        CompletesIfFits .b58Dec s (List.replicate (leadingCount 0x31#8 t) 0#8 ++ body) 0 0)

/-- R103: the two functions are inverse bijections between byte strings and strings over the alphabet. (The spec's own inference.) -/
def Obligations.Base58IsABijection : Prop :=
  (∀ bs : Bytes, base58Decode (base58Encode bs) = .ok bs) ∧
  (∀ t : Bytes, (∀ c ∈ t, c ∈ base58Alphabet) → ∃ bs, base58Decode t = .ok bs ∧ base58Encode bs = t) ∧
  (∀ bs : Bytes, ∀ c ∈ base58Encode bs, c ∈ base58Alphabet)

/-- R106, R107: B58CHK_ENC encodes the version byte, the payload and the first 4 bytes of `HASH2` of both. -/
def Obligations.B58chkEncCompletes : Prop :=
  ∀ (s : State) (v : Byte) (p : Bytes), s.cfg.wf = true → s.snapIn = some p →
    ((hash2 ([v] ++ p)).take 4).length = 4 ∧
    CompletesIfFits (.b58chkEnc v) s (base58Encode ([v] ++ p ++ (hash2 ([v] ++ p)).take 4)) 0 0

/-- R108, R109: B58CHK_DEC's outcome in the rule's order. -/
def Obligations.B58chkDecOutcome : Prop :=
  ∀ (s : State) (t : Bytes), s.cfg.wf = true → s.snapIn = some t →
    ((∃ c ∈ t, c ∉ base58Alphabet) → FailsWith .b58chkDec s 0x01#8) ∧
    (∀ d, base58Decode t = .ok d → d.length < 5 → FailsWith .b58chkDec s 0x03#8) ∧
    (∀ v p ck, base58Decode t = .ok ([v] ++ p ++ ck) → ck.length = 4 → (hash2 ([v] ++ p)).take 4 ≠ ck →
      FailsWith .b58chkDec s 0x02#8) ∧
    (∀ v p ck, base58Decode t = .ok ([v] ++ p ++ ck) → ck.length = 4 → (hash2 ([v] ++ p)).take 4 = ck →
      CompletesIfFits .b58chkDec s p (BitVec.ofNat 32 v.toNat) 0)

/-- R111: B58CHK_DEC of what B58CHK_ENC wrote gives the payload and the version byte back. (The spec's own inference.) -/
def Obligations.Base58CheckRoundTrip : Prop :=
  ∀ (s₁ s₂ : State) (v : Byte) (p str : Bytes), s₂.cfg.wf = true → s₁.snapIn = some p →
    CompletesWith (.b58chkEnc v) s₁ str none 0 0 → s₂.snapIn = some str → p.length ≤ s₂.cfg.maxOut →
    CompletesWith .b58chkDec s₂ p none (BitVec.ofNat 32 v.toNat) 0

/-! ## Bit-width converter (spec/41_bitpack.md) -/

/-- R130, R133: CONVBITS's outcome in the rule's order. -/
def Obligations.ConvbitsOutcome : Prop :=
  ∀ (s : State) (f t : Nat) (pad : Bool) (data : Bytes), s.cfg.wf = true → s.snapIn = some data →
    (¬(1 ≤ f ∧ f ≤ 8 ∧ 1 ≤ t ∧ t ≤ 8) → FailsWith (.convbits f t pad) s 0x11#8) ∧
    (1 ≤ f ∧ f ≤ 8 ∧ 1 ≤ t ∧ t ≤ 8 →
      (convertBits data f t pad = .error .paddingError → FailsWith (.convbits f t pad) s 0x04#8) ∧
      (∀ out, convertBits data f t pad = .ok out → CompletesIfFits (.convbits f t pad) s out 0 0) ∧
      (convertBits data f t pad = .error .paddingError ∨ ∃ out, convertBits data f t pad = .ok out))

/-- R134, R132, R135, R138: with padding, the output is the input's big-endian bit stream cut into groups of
`toBits`, the last one filled with zeros below. For a value of `2^fromBits` or more the stream is the merged one
(R132); for values that fit, it is their concatenation. R135 and R138 are the spec's own inference from R131. -/
def Obligations.PaddedConversionKeepsTheBitStream : Prop :=
  ∀ (f t : Nat) (data : Bytes), 1 ≤ f → f ≤ 8 → 1 ≤ t → t ≤ 8 →
    (∃ out, convertBits data f t true = .ok out ∧ out.length = (data.length * f + (t - 1)) / t ∧
      fitsBits t out ∧
      bitStream t out = mergedStream f t [] data ++ List.replicate (out.length * t - data.length * f) false) ∧
    (fitsBits f data → mergedStream f t [] data = bitStream f data)

/-- R136, R135: without padding, the conversion succeeds exactly when the leftover bits are fewer than
`fromBits` and all zero; they are then dropped (the spec's own inference from R131). R136 is about values that
fit; for the others the stream is the merged one (R132). -/
def Obligations.UnpaddedConversionAcceptance : Prop :=
  ∀ (f t : Nat) (data : Bytes), 1 ≤ f → f ≤ 8 → 1 ≤ t → t ≤ 8 →
    let leftover := (data.length * f) % t
    let stream := mergedStream f t [] data
    ((leftover < f ∧ ∀ b ∈ stream.drop (data.length * f - leftover), b = false) →
      ∃ out, convertBits data f t false = .ok out ∧ out.length = (data.length * f) / t ∧ fitsBits t out ∧
        bitStream t out ++ List.replicate leftover false = stream) ∧
    (¬(leftover < f ∧ ∀ b ∈ stream.drop (data.length * f - leftover), b = false) →
      convertBits data f t false = .error .paddingError) ∧
    (fitsBits f data → stream = bitStream f data)

/-- R137: 8 to 5 with padding and back without gives every byte string back, with fewer than 5 zero padding
bits in between; the converse holds for the 5-bit strings the way back accepts. (The spec's own inference.) -/
def Obligations.BytesToSymbolsRoundTrip : Prop :=
  (∀ d : Bytes, ∃ vals, convertBits d 8 5 true = .ok vals ∧ vals.length = (8 * d.length + 4) / 5 ∧
    5 * vals.length - 8 * d.length < 5 ∧
    bitStream 5 vals = bitStream 8 d ++ List.replicate (5 * vals.length - 8 * d.length) false ∧
    convertBits vals 5 8 false = .ok d) ∧
  (∀ vals d : Bytes, fitsBits 5 vals → convertBits vals 5 8 false = .ok d → convertBits d 8 5 true = .ok vals)

/-! ## Checksum engine (spec/42_cashaddr_checksum.md) -/

/-- R152, R153: POLYMOD rejects a byte of 32 or more before computing, and otherwise returns the 40 bits. -/
def Obligations.PolymodOutcome : Prop :=
  ∀ (s : State) (vals : Bytes), s.cfg.wf = true → s.snapIn = some vals →
    ((∃ b ∈ vals, 32 ≤ b.toNat) → FailsWith .polymod s 0x11#8) ∧
    (fitsBits 5 vals →
      CompletesWith .polymod s [] none (BitVec.ofNat 32 ((polyMod vals).toNat % 2 ^ 32))
        (BitVec.ofNat 32 ((polyMod vals).toNat / 2 ^ 32)))

/-- R151: the empty PolyMod, the step as an XOR of its three parts, its linearity over GF(2) in the
accumulator and the 5-bit value, and the verifying residue 1. (The spec's own inference.) -/
def Obligations.PolyModStepIsLinear : Prop :=
  polyMod [] = 0 ∧
  (∀ (c : BitVec 40) (d : Byte), d.toNat < 32 →
    polyStep c d = ((c &&& 0x07FFFFFFFF#40) <<< 5) ^^^ d.setWidth 40 ^^^
      (List.range 5).foldl (fun a i => if c.getLsbD (35 + i) then a ^^^ polyGenerators.getD i 0 else a) 0) ∧
  (∀ (c c' : BitVec 40) (d d' : Byte), d.toNat < 32 → d'.toNat < 32 →
    polyStep (c ^^^ c') (d ^^^ d') = polyStep c d ^^^ polyStep c' d') ∧
  (∀ vals : Bytes, polyMod vals = 0 ↔ vals.foldl polyStep 1 = 1)

/-- R154, R156: CA_EXPAND takes any byte and reads AUX only: IN may be above its capacity (V-E10). -/
def Obligations.CaExpandCompletes : Prop :=
  ∀ (s : State) (p : Bytes), s.cfg.wf = true → s.snapAux = some p →
    CompletesIfFits .caExpand s (p.map (fun c => BitVec.ofNat 8 (c.toNat % 32)) ++ [0#8]) 0 0

/-- R155: the expansion and the checksum do not depend on the case of the prefix's letters. (The spec's own inference.) -/
def Obligations.ChecksumIgnoresPrefixCase : Prop :=
  ∀ p x : Bytes, expandPrefix (p.map lowerCase) = expandPrefix p ∧
    createChecksum (p.map lowerCase) x = createChecksum p x

/-- R157, R158: CA_CRCHK returns the eight groups of the PolyMod, most significant first. -/
def Obligations.CaCrchkOutcome : Prop :=
  ∀ (s : State) (x p : Bytes), s.cfg.wf = true → s.snapIn = some x → s.snapAux = some p →
    ((∃ b ∈ x, 32 ≤ b.toNat) → FailsWith .caCrchk s 0x11#8) ∧
    (fitsBits 5 x → ∃ ck : Bytes, CompletesIfFits .caCrchk s ck 0 0 ∧ ck.length = 8 ∧ fitsBits 5 ck ∧
      ck.foldl (fun n b => 32 * n + b.toNat) 0 =
        (polyMod (expandPrefix p ++ x ++ [0#8, 0#8, 0#8, 0#8, 0#8, 0#8, 0#8, 0#8])).toNat)

/-- R159, R160: CA_VERIFY completes with code 0 either way; RES0 is the answer. -/
def Obligations.CaVerifyOutcome : Prop :=
  ∀ (s : State) (x p : Bytes), s.cfg.wf = true → s.snapIn = some x → s.snapAux = some p →
    ((∃ b ∈ x, 32 ≤ b.toNat) → FailsWith .caVerify s 0x11#8) ∧
    (fitsBits 5 x →
      CompletesWith .caVerify s [] none (if polyMod (expandPrefix p ++ x) = 0 then 1 else 0) 0)

/-- R161: a payload followed by its checksum verifies. (The spec's own inference.) -/
def Obligations.CreatedChecksumVerifies : Prop :=
  ∀ p x : Bytes, fitsBits 5 x → verifyChecksum p (x ++ createChecksum p x) = true

/-! ## CashAddr codec (spec/43_cashaddr_codec.md) -/

/-- R170 to R173: CA_PACK's outcome. The symbols are the bits of the version byte and the hash, the last
group filled with zeros below (R134). -/
def Obligations.CaPackOutcome : Prop :=
  ∀ (s : State) (a : AddrType) (h : Bytes), s.cfg.wf = true → s.snapIn = some h →
    (a ≠ .p2pkh → a ≠ .p2sh → FailsWith (.caPack a) s 0x06#8) ∧
    (a = .p2pkh ∨ a = .p2sh → h.length ∉ [20, 24, 28, 32, 40, 48, 56, 64] → FailsWith (.caPack a) s 0x07#8) ∧
    (∀ tb sz, (a, tb) ∈ [(AddrType.p2pkh, 0), (.p2sh, 8)] →
      (h.length, sz) ∈ [(20, 0), (24, 1), (28, 2), (32, 3), (40, 4), (48, 5), (56, 6), (64, 7)] →
      ∃ vals : Bytes, CompletesIfFits (.caPack a) s vals (BitVec.ofNat 32 (tb + sz)) 0 ∧
        vals.length = (8 * (h.length + 1) + 4) / 5 ∧ fitsBits 5 vals ∧
        bitStream 5 vals = bitStream 8 (BitVec.ofNat 8 (tb + sz) :: h) ++
          List.replicate (5 * vals.length - 8 * (h.length + 1)) false)

/-- R174 to R176: CA_ENC takes the prefix as it is. -/
def Obligations.CaEncOutcome : Prop :=
  ∀ (s : State) (x p : Bytes), s.cfg.wf = true → s.snapIn = some x → s.snapAux = some p →
    ((∃ b ∈ x, 32 ≤ b.toNat) → FailsWith .caEnc s 0x11#8) ∧
    (fitsBits 5 x → CompletesIfFits .caEnc s
      (p ++ [0x3A#8] ++ (x ++ createChecksum p x).map (fun v => charset.getD v.toNat 0#8)) 0 0)

/-- R178, R179: the reverse charset, either case, below 0x80 only. -/
def Obligations.ReverseCharsetRule : Prop :=
  ∀ (c v : Byte), charsetValue c = some v ↔
    c.toNat < 0x80 ∧ v.toNat < 32 ∧ charset[v.toNat]? = some (lowerCase c)

/-- R177, R180, R181: CA_DEC's outcome in the rule's order. -/
def Obligations.CaDecOutcome : Prop :=
  ∀ (s : State) (str : Bytes), s.cfg.wf = true → s.snapIn = some str →
    ((str.count 0x3A#8 ≠ 1 ∨ str.head? = some 0x3A#8 ∨
        (∃ pre post, str = pre ++ 0x3A#8 :: post ∧ ∃ b ∈ pre, isDigit b = true) ∨
        ((∃ b ∈ str, isLower b = true) ∧ ∃ b ∈ str, isUpper b = true)) →
      FailsWith .caDec s 0x09#8) ∧
    (∀ pre post : Bytes, str = pre ++ 0x3A#8 :: post → pre ≠ [] → 0x3A#8 ∉ pre → 0x3A#8 ∉ post →
      (∀ b ∈ pre, isDigit b = false) →
      ¬((∃ b ∈ str, isLower b = true) ∧ ∃ b ∈ str, isUpper b = true) →
      ((∃ c ∈ post, charsetValue c = none) → FailsWith .caDec s 0x01#8) ∧
      (∀ vals : Bytes, post.map charsetValue = vals.map some →
        (vals.length < 8 → FailsWith .caDec s 0x05#8) ∧
        (∀ x ck : Bytes, vals = x ++ ck → ck.length = 8 →
          (polyMod (expandPrefix (pre.map lowerCase) ++ vals) ≠ 0 → FailsWith .caDec s 0x05#8) ∧
          (polyMod (expandPrefix (pre.map lowerCase) ++ vals) = 0 →
            CompletesIfBothFit .caDec s x (pre.map lowerCase) 0 0))))

/-- R182, R183: CA_CHKENC is CA_PACK followed by CA_ENC. -/
def Obligations.CaChkencOutcome : Prop :=
  ∀ (s : State) (a : AddrType) (h p : Bytes), s.cfg.wf = true → s.snapIn = some h → s.snapAux = some p →
    (a ≠ .p2pkh → a ≠ .p2sh → FailsWith (.caChkenc a) s 0x06#8) ∧
    (a = .p2pkh ∨ a = .p2sh → h.length ∉ [20, 24, 28, 32, 40, 48, 56, 64] →
      FailsWith (.caChkenc a) s 0x07#8) ∧
    (a = .p2pkh ∨ a = .p2sh → h.length ∈ [20, 24, 28, 32, 40, 48, 56, 64] →
      ∃ ver vals, packAddressData a h = .ok (ver, vals) ∧
        CompletesIfFits (.caChkenc a) s
          (p ++ [0x3A#8] ++ (vals ++ createChecksum p vals).map (fun v => charset.getD v.toNat 0#8)) 0 0)

/-- R184 to R186: CA_CHKDEC's outcome in the rule's order; an unknown version byte is a success of type
Unknown. -/
def Obligations.CaChkdecOutcome : Prop :=
  ∀ (s : State) (str : Bytes), s.cfg.wf = true → s.snapIn = some str →
    (∀ e, cashAddrDecode str = .error e →
      e ∈ [.malformedAddressString, .invalidCharacter, .invalidChecksum] ∧ FailsWith .caChkdec s e.code) ∧
    (∀ p vals, cashAddrDecode str = .ok (p, vals) →
      (convertBits vals 5 8 false = .error .paddingError → FailsWith .caChkdec s 0x04#8) ∧
      (∀ d, convertBits vals 5 8 false = .ok d → d.length ≠ 21 → FailsWith .caChkdec s 0x08#8) ∧
      (∀ ver h, convertBits vals 5 8 false = .ok (ver :: h) → h.length = 20 →
        CompletesIfBothFit .caChkdec s h p
          (BitVec.ofNat 32 ((if ver = 0x00#8 then 1 else if ver = 0x08#8 then 2 else 0) + 256 * ver.toNat)) 0))

/-- R187: where nothing exceeds a capacity, CA_CHKENC succeeds for every valid hash length, and CA_CHKDEC of
what it wrote gives type, version, hash and prefix back for a 20-byte hash and `IncorrectDataLength` for every
other length. (The spec's own inference.) -/
def Obligations.CashAddrRoundTrip : Prop :=
  ∀ (s₁ : State) (a : AddrType) (h p : Bytes), s₁.cfg.wf = true → a = .p2pkh ∨ a = .p2sh →
    h.length ∈ [20, 24, 28, 32, 40, 48, 56, 64] → plainLowerPrefix p →
    s₁.snapIn = some h → s₁.snapAux = some p →
    p.length + 1 + (8 * (h.length + 1) + 4) / 5 + 8 ≤ s₁.cfg.maxOut →
    ∃ str, CompletesWith (.caChkenc a) s₁ str none 0 0 ∧
      ∀ s₂ : State, s₂.cfg.wf = true → s₂.snapIn = some str →
        (h.length = 20 → p.length ≤ s₂.cfg.maxAux → 20 ≤ s₂.cfg.maxOut →
          CompletesWith .caChkdec s₂ h (some p) (if a = .p2pkh then 0x00000001#32 else 0x00000802#32) 0) ∧
        (h.length ≠ 20 → FailsWith .caChkdec s₂ 0x08#8)

/-! ## Invariants -/

/-- The state after reset meets the invariant, for every legal instance. -/
def Obligations.ResetStateMeetsTheInvariant : Prop :=
  ∀ c : Config, c.wf = true → (State.resetOf c).Inv

/-- Every step keeps the invariant: canonical buffers within their capacities, results that hold values,
codes of the table, a BUSY engine with its results cleared; and no step changes the parameters (R31, R230). -/
def Obligations.EveryStepKeepsTheInvariant : Prop :=
  ∀ s t : State, step s = .next t → t.cfg = s.cfg ∧ (s.Inv → t.Inv)
end

