-- ==== Sys2Proof/Laws/Memory.lean ====
section
/-! SUPPORT. The laws of buffers: what a read finds after a write, that every operation keeps the canonical
form, and that equal contents in canonical form are equal lists. -/

namespace Sys2Proof.Machine

/-! ## Sorted tables -/

@[simp] theorem tableGet_nil {α : Type} (k : Nat) : tableGet ([] : List (Nat × α)) k = none := rfl

/-- What a look-up finds after a write, whatever the table's form. -/
theorem tableGet_tableSet {α : Type} (t : List (Nat × α)) (key j : Nat) (x : α) :
    tableGet (tableSet t key x) j = if j = key then some x else tableGet t j := by
  induction t with
  | nil => simp [tableSet, tableGet, eq_comm]
  | cons p rest ih =>
    obtain ⟨k, v⟩ := p
    simp only [tableSet]
    split_ifs with h1 h2 <;> simp only [tableGet, ih] <;> split_ifs <;> first | rfl | omega

/-! ## Reads after writes -/

@[simp] theorem Memory.read_nil (k : Nat) : Memory.read [] k = none := rfl

theorem Memory.read_write (m : Memory) (i k : Nat) (b : Byte) :
    (m.write i b).read k = if k = i then some b else m.read k := tableGet_tableSet m i k b

theorem Memory.read_write_same (m : Memory) (i : Nat) (b : Byte) : (m.write i b).read i = some b := by
  simp [Memory.read_write]

theorem Memory.read_write_other (m : Memory) {i k : Nat} (b : Byte) (h : k ≠ i) :
    (m.write i b).read k = m.read k := by
  simp [Memory.read_write, h]

/-- A string stored from index `i` up is found there; every other byte is as it was. -/
theorem Memory.read_writeBytes (m : Memory) (i k : Nat) (bs : Bytes) :
    (m.writeBytes i bs).read k = if i ≤ k ∧ k < i + bs.length then bs[k - i]? else m.read k := by
  induction bs generalizing m i with
  | nil => simp [Memory.writeBytes]
  | cons b bs ih =>
    rw [Memory.writeBytes, ih, Memory.read_write, List.length_cons]
    rcases Nat.lt_trichotomy k i with hk | rfl | hk
    · rw [if_neg (by omega), if_neg (by omega), if_neg (by omega)]
    · rw [if_neg (by omega), if_pos rfl, if_pos (by omega)]; simp
    · obtain ⟨j, rfl⟩ : ∃ j, k = i + 1 + j := ⟨k - (i + 1), by omega⟩
      have h1 : i + 1 + j - (i + 1) = j := by omega
      have h2 : i + 1 + j - i = j + 1 := by omega
      rw [h1, h2, List.getElem?_cons_succ]
      by_cases hj : j < bs.length
      · rw [if_pos (by omega), if_pos (by omega)]
      · rw [if_neg (by omega), if_neg (by omega), if_neg (by omega)]

/-- A buffer made of a string holds exactly its bytes. -/
@[simp] theorem Memory.read_ofBytes (bs : Bytes) (k : Nat) : (Memory.ofBytes bs).read k = bs[k]? := by
  rw [Memory.ofBytes, Memory.read_writeBytes]
  by_cases h : k < bs.length
  · simp [h]
  · simp [h]

/-! ## The canonical form -/

@[simp] theorem Memory.wf_nil (cap : Nat) : Memory.wf cap [] = true := rfl

theorem Memory.wfFrom_mono {lo lo' hi : Nat} {m : Memory} (h : Memory.wfFrom lo hi m = true) (hl : lo' ≤ lo) :
    Memory.wfFrom lo' hi m = true := by
  cases m with
  | nil => rfl
  | cons p rest =>
    simp only [Memory.wfFrom, Bool.and_eq_true, decide_eq_true_eq] at h ⊢
    exact ⟨⟨by omega, h.1.2⟩, h.2⟩

theorem Memory.wfFrom_write {lo hi i : Nat} {m : Memory} (b : Byte) (h : Memory.wfFrom lo hi m = true)
    (hl : lo ≤ i) (hh : i < hi) : Memory.wfFrom lo hi (m.write i b) = true := by
  induction m generalizing lo with
  | nil => simp [Memory.write, tableSet, Memory.wfFrom, hl, hh]
  | cons p rest ih =>
    obtain ⟨k, v⟩ := p
    simp only [Memory.wfFrom, Bool.and_eq_true, decide_eq_true_eq] at h
    simp only [Memory.write, tableSet]
    split_ifs with h1 h2
    · simp only [Memory.wfFrom, Bool.and_eq_true, decide_eq_true_eq]
      exact ⟨⟨hl, hh⟩, ⟨by omega, h.1.2⟩, h.2⟩
    · subst h2
      simp only [Memory.wfFrom, Bool.and_eq_true, decide_eq_true_eq]
      exact ⟨⟨hl, hh⟩, h.2⟩
    · simp only [Memory.wfFrom, Bool.and_eq_true, decide_eq_true_eq]
      exact ⟨h.1, ih h.2 (by omega)⟩

/-- Storing a byte below the capacity keeps the canonical form. -/
theorem Memory.wf_write {cap i : Nat} {m : Memory} (b : Byte) (h : m.wf cap = true) (hi : i < cap) :
    (m.write i b).wf cap = true := Memory.wfFrom_write b h (Nat.zero_le i) hi

/-- Storing a string below the capacity keeps the canonical form. -/
theorem Memory.wf_writeBytes {cap i : Nat} {m : Memory} (bs : Bytes) (h : m.wf cap = true)
    (hi : i + bs.length ≤ cap) : (m.writeBytes i bs).wf cap = true := by
  induction bs generalizing m i with
  | nil => exact h
  | cons b bs ih =>
    rw [List.length_cons] at hi
    exact ih (Memory.wf_write b h (by omega)) (by omega)

/-- A buffer made of a string that fits is in canonical form. -/
theorem Memory.wf_ofBytes {cap : Nat} (bs : Bytes) (h : bs.length ≤ cap) :
    (Memory.ofBytes bs).wf cap = true := Memory.wf_writeBytes bs rfl (by omega)

/-- In canonical form nothing is listed outside the bounds. -/
theorem Memory.read_outside {lo hi k : Nat} {m : Memory} (h : Memory.wfFrom lo hi m = true)
    (hk : k < lo ∨ hi ≤ k) : m.read k = none := by
  induction m generalizing lo with
  | nil => rfl
  | cons p rest ih =>
    obtain ⟨j, v⟩ := p
    simp only [Memory.wfFrom, Bool.and_eq_true, decide_eq_true_eq] at h
    have hj : j ≠ k := by omega
    have := ih h.2 (by omega)
    simpa [Memory.read, tableGet, hj] using this

/-- Equal contents in canonical form are equal lists: equal buffers are equal data. -/
theorem Memory.ext_of_wf {lo hi : Nat} {m m' : Memory} (h : Memory.wfFrom lo hi m = true)
    (h' : Memory.wfFrom lo hi m' = true) (hr : ∀ k, m.read k = m'.read k) : m = m' := by
  induction m generalizing lo m' with
  | nil =>
    cases m' with
    | nil => rfl
    | cons q rest' => have := hr q.1; simp [Memory.read, tableGet] at this
  | cons p rest ih =>
    obtain ⟨k, v⟩ := p
    cases m' with
    | nil => have := hr k; simp [Memory.read, tableGet] at this
    | cons q rest' =>
      obtain ⟨k', v'⟩ := q
      have hw := h
      have hw' := h'
      simp only [Memory.wfFrom, Bool.and_eq_true, decide_eq_true_eq] at hw hw'
      have hrest : ∀ j, j ≤ k → Memory.read rest j = none := fun j hj =>
        Memory.read_outside hw.2 (.inl (by omega))
      have hrest' : ∀ j, j ≤ k' → Memory.read rest' j = none := fun j hj =>
        Memory.read_outside hw'.2 (.inl (by omega))
      have hk : k = k' := by
        by_contra hne
        rcases Nat.lt_or_gt_of_ne hne with hlt | hgt
        · have h2 := hrest' k (by omega)
          have h1 := hr k
          simp only [Memory.read, tableGet, if_true, if_neg (Ne.symm hne)] at h1 h2
          rw [h2] at h1
          exact absurd h1 (by simp)
        · have h2 := hrest k' (by omega)
          have h1 := hr k'
          simp only [Memory.read, tableGet, if_true, if_neg hne] at h1 h2
          rw [h2] at h1
          exact absurd h1 (by simp)
      subst hk
      have hv : v = v' := by have := hr k; simpa [Memory.read, tableGet] using this
      subst hv
      have : rest = rest' := by
        refine ih hw.2 hw'.2 fun j => ?_
        by_cases hj : k = j
        · rw [hrest j (by omega), hrest' j (by omega)]
        · have := hr j
          simpa [Memory.read, tableGet, hj] using this
      rw [this]

/-! ## Snapshots -/

theorem byteOrDraw_some (b : Byte) (d : Nat) : byteOrDraw (some b) d = (b, d) := rfl

@[simp] theorem Memory.operand_length (m : Memory) (n i d : Nat) : (m.operand n i d).1.length = n := by
  induction n generalizing i d with
  | zero => rfl
  | succ n ih => simp [Memory.operand, ih]

/-- A byte that was written is in the operand at its place (spec/20_memory.md R56). -/
theorem Memory.operand_getElem? (m : Memory) {n i d k : Nat} {b : Byte} (hk : k < n)
    (h : m.read (i + k) = some b) : (m.operand n i d).1[k]? = some b := by
  induction n generalizing i d k with
  | zero => omega
  | succ n ih =>
    cases k with
    | zero => simp only [Nat.add_zero] at h; simp [Memory.operand, h, byteOrDraw_some]
    | succ k =>
      simp only [Memory.operand, List.getElem?_cons_succ]
      exact ih (by omega) (by rw [← h]; congr 1; omega)

/-- Everything a snapshot is (spec/20_memory.md R56). -/
theorem Memory.snapshot_spec (m : Memory) (cap len d : Nat) : snapshotOf m cap len (m.snapshot cap len d).1 := by
  refine ⟨fun h => ?_, fun h => ?_⟩
  · refine ⟨(m.operand len 0 d).1, by simp [Memory.snapshot, h], by simp, fun k b hk hb => ?_⟩
    exact m.operand_getElem? hk (by simpa using hb)
  · have : ¬ len ≤ cap := by omega
    simp [Memory.snapshot, this]

/-- A snapshot fits its buffer (spec/10_state.md R34). -/
theorem Memory.snapshot_fits (m : Memory) (cap len d : Nat) : snapshotFits (m.snapshot cap len d).1 cap := by
  intro bs h
  by_cases hl : len ≤ cap
  · simp only [Memory.snapshot, if_pos hl, Option.some.injEq] at h
    rw [← h]; simpa using hl
  · simp [Memory.snapshot, hl] at h

end Sys2Proof.Machine
end

