-- ==== Sys2Proof/Laws/State.lean ====
section
/-! SUPPORT. One lemma per field of `State` for each shared update, so that no later proof unfolds one. -/

namespace Sys2Proof.Machine

/-! ## `clearStatus` -/

@[simp] theorem clearStatus_cfg (v : Word) (s : State) : (clearStatus v s).cfg = s.cfg := rfl
@[simp] theorem clearStatus_ie (v : Word) (s : State) : (clearStatus v s).ie = s.ie := rfl
@[simp] theorem clearStatus_phase (v : Word) (s : State) : (clearStatus v s).phase = s.phase := rfl
@[simp] theorem clearStatus_done (v : Word) (s : State) : (clearStatus v s).done = (s.done && !v.getLsbD 1) := rfl
@[simp] theorem clearStatus_ovr (v : Word) (s : State) : (clearStatus v s).ovr = (s.ovr && !v.getLsbD 3) := rfl
@[simp] theorem clearStatus_ecode (v : Word) (s : State) : (clearStatus v s).ecode = s.ecode := rfl
@[simp] theorem clearStatus_inLen (v : Word) (s : State) : (clearStatus v s).inLen = s.inLen := rfl
@[simp] theorem clearStatus_auxLen (v : Word) (s : State) : (clearStatus v s).auxLen = s.auxLen := rfl
@[simp] theorem clearStatus_outLen (v : Word) (s : State) : (clearStatus v s).outLen = s.outLen := rfl
@[simp] theorem clearStatus_res0 (v : Word) (s : State) : (clearStatus v s).res0 = s.res0 := rfl
@[simp] theorem clearStatus_res1 (v : Word) (s : State) : (clearStatus v s).res1 = s.res1 := rfl
@[simp] theorem clearStatus_inBuf (v : Word) (s : State) : (clearStatus v s).inBuf = s.inBuf := rfl
@[simp] theorem clearStatus_auxBuf (v : Word) (s : State) : (clearStatus v s).auxBuf = s.auxBuf := rfl
@[simp] theorem clearStatus_outBuf (v : Word) (s : State) : (clearStatus v s).outBuf = s.outBuf := rfl
@[simp] theorem clearStatus_cmdl (v : Word) (s : State) : (clearStatus v s).cmdl = s.cmdl := rfl
@[simp] theorem clearStatus_snapIn (v : Word) (s : State) : (clearStatus v s).snapIn = s.snapIn := rfl
@[simp] theorem clearStatus_snapAux (v : Word) (s : State) : (clearStatus v s).snapAux = s.snapAux := rfl
@[simp] theorem clearStatus_rem (v : Word) (s : State) : (clearStatus v s).rem = s.rem := rfl
@[simp] theorem clearStatus_line (v : Word) (s : State) : (clearStatus v s).line = s.line := rfl
@[simp] theorem clearStatus_host (v : Word) (s : State) : (clearStatus v s).host = s.host := rfl
@[simp] theorem clearStatus_hostRegs (v : Word) (s : State) : (clearStatus v s).hostRegs = s.hostRegs := rfl
@[simp] theorem clearStatus_hostStrs (v : Word) (s : State) : (clearStatus v s).hostStrs = s.hostStrs := rfl
@[simp] theorem clearStatus_hostFailed (v : Word) (s : State) : (clearStatus v s).hostFailed = s.hostFailed := rfl
@[simp] theorem clearStatus_turns (v : Word) (s : State) : (clearStatus v s).turns = s.turns := rfl
@[simp] theorem clearStatus_draws (v : Word) (s : State) : (clearStatus v s).draws = s.draws := rfl

/-! ## `accept` -/

@[simp] theorem accept_cfg (v : Word) (s : State) : (accept v s).cfg = s.cfg := rfl
@[simp] theorem accept_ie (v : Word) (s : State) : (accept v s).ie = s.ie := rfl
@[simp] theorem accept_phase (v : Word) (s : State) : (accept v s).phase = .busy := rfl
@[simp] theorem accept_done (v : Word) (s : State) : (accept v s).done = false := rfl
@[simp] theorem accept_ovr (v : Word) (s : State) : (accept v s).ovr = s.ovr := rfl
@[simp] theorem accept_ecode (v : Word) (s : State) : (accept v s).ecode = 0 := rfl
@[simp] theorem accept_inLen (v : Word) (s : State) : (accept v s).inLen = s.inLen := rfl
@[simp] theorem accept_auxLen (v : Word) (s : State) : (accept v s).auxLen = s.auxLen := rfl
@[simp] theorem accept_outLen (v : Word) (s : State) : (accept v s).outLen = 0 := rfl
@[simp] theorem accept_res0 (v : Word) (s : State) : (accept v s).res0 = 0 := rfl
@[simp] theorem accept_res1 (v : Word) (s : State) : (accept v s).res1 = 0 := rfl
@[simp] theorem accept_inBuf (v : Word) (s : State) : (accept v s).inBuf = s.inBuf := rfl
@[simp] theorem accept_auxBuf (v : Word) (s : State) : (accept v s).auxBuf = s.auxBuf := rfl
@[simp] theorem accept_outBuf (v : Word) (s : State) : (accept v s).outBuf = s.outBuf := rfl
@[simp] theorem accept_cmdl (v : Word) (s : State) : (accept v s).cmdl = v := rfl
@[simp] theorem accept_snapIn (v : Word) (s : State) : (accept v s).snapIn = (s.inBuf.snapshot s.cfg.maxIn s.inLen.toNat s.draws).1 := rfl
@[simp] theorem accept_snapAux (v : Word) (s : State) : (accept v s).snapAux = (s.auxBuf.snapshot s.cfg.maxAux s.auxLen.toNat (s.inBuf.snapshot s.cfg.maxIn s.inLen.toNat s.draws).2).1 := rfl
@[simp] theorem accept_line (v : Word) (s : State) : (accept v s).line = s.line := rfl
@[simp] theorem accept_host (v : Word) (s : State) : (accept v s).host = s.host := rfl
@[simp] theorem accept_hostRegs (v : Word) (s : State) : (accept v s).hostRegs = s.hostRegs := rfl
@[simp] theorem accept_hostStrs (v : Word) (s : State) : (accept v s).hostStrs = s.hostStrs := rfl
@[simp] theorem accept_hostFailed (v : Word) (s : State) : (accept v s).hostFailed = s.hostFailed := rfl
@[simp] theorem accept_turns (v : Word) (s : State) : (accept v s).turns = s.turns := rfl

/-- The latency drawn at acceptance is at least 1 (spec/70_reset_and_hazards.md R240). -/
theorem accept_rem_pos (v : Word) (s : State) : 1 ≤ (accept v s).rem := Nat.succ_le_succ (Nat.zero_le _)

/-! ## `writeAux` -/

@[simp] theorem writeAux_cfg (p : Option Bytes) (s : State) : (writeAux p s).cfg = s.cfg := by cases p <;> rfl
@[simp] theorem writeAux_ie (p : Option Bytes) (s : State) : (writeAux p s).ie = s.ie := by cases p <;> rfl
@[simp] theorem writeAux_phase (p : Option Bytes) (s : State) : (writeAux p s).phase = s.phase := by cases p <;> rfl
@[simp] theorem writeAux_done (p : Option Bytes) (s : State) : (writeAux p s).done = s.done := by cases p <;> rfl
@[simp] theorem writeAux_ovr (p : Option Bytes) (s : State) : (writeAux p s).ovr = s.ovr := by cases p <;> rfl
@[simp] theorem writeAux_ecode (p : Option Bytes) (s : State) : (writeAux p s).ecode = s.ecode := by cases p <;> rfl
@[simp] theorem writeAux_inLen (p : Option Bytes) (s : State) : (writeAux p s).inLen = s.inLen := by cases p <;> rfl
@[simp] theorem writeAux_outLen (p : Option Bytes) (s : State) : (writeAux p s).outLen = s.outLen := by cases p <;> rfl
@[simp] theorem writeAux_res0 (p : Option Bytes) (s : State) : (writeAux p s).res0 = s.res0 := by cases p <;> rfl
@[simp] theorem writeAux_res1 (p : Option Bytes) (s : State) : (writeAux p s).res1 = s.res1 := by cases p <;> rfl
@[simp] theorem writeAux_inBuf (p : Option Bytes) (s : State) : (writeAux p s).inBuf = s.inBuf := by cases p <;> rfl
@[simp] theorem writeAux_outBuf (p : Option Bytes) (s : State) : (writeAux p s).outBuf = s.outBuf := by cases p <;> rfl
@[simp] theorem writeAux_cmdl (p : Option Bytes) (s : State) : (writeAux p s).cmdl = s.cmdl := by cases p <;> rfl
@[simp] theorem writeAux_snapIn (p : Option Bytes) (s : State) : (writeAux p s).snapIn = s.snapIn := by cases p <;> rfl
@[simp] theorem writeAux_snapAux (p : Option Bytes) (s : State) : (writeAux p s).snapAux = s.snapAux := by cases p <;> rfl
@[simp] theorem writeAux_rem (p : Option Bytes) (s : State) : (writeAux p s).rem = s.rem := by cases p <;> rfl
@[simp] theorem writeAux_line (p : Option Bytes) (s : State) : (writeAux p s).line = s.line := by cases p <;> rfl
@[simp] theorem writeAux_host (p : Option Bytes) (s : State) : (writeAux p s).host = s.host := by cases p <;> rfl
@[simp] theorem writeAux_hostRegs (p : Option Bytes) (s : State) : (writeAux p s).hostRegs = s.hostRegs := by cases p <;> rfl
@[simp] theorem writeAux_hostStrs (p : Option Bytes) (s : State) : (writeAux p s).hostStrs = s.hostStrs := by cases p <;> rfl
@[simp] theorem writeAux_hostFailed (p : Option Bytes) (s : State) : (writeAux p s).hostFailed = s.hostFailed := by cases p <;> rfl
@[simp] theorem writeAux_turns (p : Option Bytes) (s : State) : (writeAux p s).turns = s.turns := by cases p <;> rfl
@[simp] theorem writeAux_draws (p : Option Bytes) (s : State) : (writeAux p s).draws = s.draws := by cases p <;> rfl

@[simp] theorem writeAux_none (s : State) : writeAux none s = s := rfl
@[simp] theorem writeAux_some_auxBuf (p : Bytes) (s : State) :
    (writeAux (some p) s).auxBuf = s.auxBuf.writeBytes 0 p := rfl
@[simp] theorem writeAux_some_auxLen (p : Bytes) (s : State) :
    (writeAux (some p) s).auxLen = BitVec.ofNat 16 p.length := rfl

/-! ## `completeOk` -/

@[simp] theorem completeOk_cfg (r : Completed) (s : State) : (completeOk r s).cfg = s.cfg := by simp [completeOk]
@[simp] theorem completeOk_ie (r : Completed) (s : State) : (completeOk r s).ie = s.ie := by simp [completeOk]
@[simp] theorem completeOk_phase (r : Completed) (s : State) : (completeOk r s).phase = .idle := by simp [completeOk]
@[simp] theorem completeOk_done (r : Completed) (s : State) : (completeOk r s).done = true := by simp [completeOk]
@[simp] theorem completeOk_ovr (r : Completed) (s : State) : (completeOk r s).ovr = s.ovr := by simp [completeOk]
@[simp] theorem completeOk_ecode (r : Completed) (s : State) : (completeOk r s).ecode = 0 := by simp [completeOk]
@[simp] theorem completeOk_inLen (r : Completed) (s : State) : (completeOk r s).inLen = s.inLen := by simp [completeOk]
@[simp] theorem completeOk_auxLen (r : Completed) (s : State) : (completeOk r s).auxLen = (writeAux r.aux s).auxLen := by simp [completeOk]
@[simp] theorem completeOk_outLen (r : Completed) (s : State) : (completeOk r s).outLen = BitVec.ofNat 16 r.out.length := by simp [completeOk]
@[simp] theorem completeOk_res0 (r : Completed) (s : State) : (completeOk r s).res0 = r.res0 := by simp [completeOk]
@[simp] theorem completeOk_res1 (r : Completed) (s : State) : (completeOk r s).res1 = r.res1 := by simp [completeOk]
@[simp] theorem completeOk_inBuf (r : Completed) (s : State) : (completeOk r s).inBuf = s.inBuf := by simp [completeOk]
@[simp] theorem completeOk_auxBuf (r : Completed) (s : State) : (completeOk r s).auxBuf = (writeAux r.aux s).auxBuf := by simp [completeOk]
@[simp] theorem completeOk_outBuf (r : Completed) (s : State) : (completeOk r s).outBuf = Memory.ofBytes r.out := by simp [completeOk]
@[simp] theorem completeOk_cmdl (r : Completed) (s : State) : (completeOk r s).cmdl = s.cmdl := by simp [completeOk]
@[simp] theorem completeOk_snapIn (r : Completed) (s : State) : (completeOk r s).snapIn = s.snapIn := by simp [completeOk]
@[simp] theorem completeOk_snapAux (r : Completed) (s : State) : (completeOk r s).snapAux = s.snapAux := by simp [completeOk]
@[simp] theorem completeOk_rem (r : Completed) (s : State) : (completeOk r s).rem = s.rem := by simp [completeOk]
@[simp] theorem completeOk_line (r : Completed) (s : State) : (completeOk r s).line = s.line := by simp [completeOk]
@[simp] theorem completeOk_host (r : Completed) (s : State) : (completeOk r s).host = s.host := by simp [completeOk]
@[simp] theorem completeOk_hostRegs (r : Completed) (s : State) : (completeOk r s).hostRegs = s.hostRegs := by simp [completeOk]
@[simp] theorem completeOk_hostStrs (r : Completed) (s : State) : (completeOk r s).hostStrs = s.hostStrs := by simp [completeOk]
@[simp] theorem completeOk_hostFailed (r : Completed) (s : State) : (completeOk r s).hostFailed = s.hostFailed := by simp [completeOk]
@[simp] theorem completeOk_turns (r : Completed) (s : State) : (completeOk r s).turns = s.turns := by simp [completeOk]
@[simp] theorem completeOk_draws (r : Completed) (s : State) : (completeOk r s).draws = s.draws := by simp [completeOk]

/-! ## `completeErr` -/

@[simp] theorem completeErr_cfg (e : ErrorCode) (s : State) : (completeErr e s).cfg = s.cfg := rfl
@[simp] theorem completeErr_ie (e : ErrorCode) (s : State) : (completeErr e s).ie = s.ie := rfl
@[simp] theorem completeErr_phase (e : ErrorCode) (s : State) : (completeErr e s).phase = .idle := rfl
@[simp] theorem completeErr_done (e : ErrorCode) (s : State) : (completeErr e s).done = true := rfl
@[simp] theorem completeErr_ovr (e : ErrorCode) (s : State) : (completeErr e s).ovr = s.ovr := rfl
@[simp] theorem completeErr_ecode (e : ErrorCode) (s : State) : (completeErr e s).ecode = e.code := rfl
@[simp] theorem completeErr_inLen (e : ErrorCode) (s : State) : (completeErr e s).inLen = s.inLen := rfl
@[simp] theorem completeErr_auxLen (e : ErrorCode) (s : State) : (completeErr e s).auxLen = s.auxLen := rfl
@[simp] theorem completeErr_outLen (e : ErrorCode) (s : State) : (completeErr e s).outLen = 0 := rfl
@[simp] theorem completeErr_res0 (e : ErrorCode) (s : State) : (completeErr e s).res0 = 0 := rfl
@[simp] theorem completeErr_res1 (e : ErrorCode) (s : State) : (completeErr e s).res1 = 0 := rfl
@[simp] theorem completeErr_inBuf (e : ErrorCode) (s : State) : (completeErr e s).inBuf = s.inBuf := rfl
@[simp] theorem completeErr_auxBuf (e : ErrorCode) (s : State) : (completeErr e s).auxBuf = s.auxBuf := rfl
@[simp] theorem completeErr_outBuf (e : ErrorCode) (s : State) : (completeErr e s).outBuf = [] := rfl
@[simp] theorem completeErr_cmdl (e : ErrorCode) (s : State) : (completeErr e s).cmdl = s.cmdl := rfl
@[simp] theorem completeErr_snapIn (e : ErrorCode) (s : State) : (completeErr e s).snapIn = s.snapIn := rfl
@[simp] theorem completeErr_snapAux (e : ErrorCode) (s : State) : (completeErr e s).snapAux = s.snapAux := rfl
@[simp] theorem completeErr_rem (e : ErrorCode) (s : State) : (completeErr e s).rem = s.rem := rfl
@[simp] theorem completeErr_line (e : ErrorCode) (s : State) : (completeErr e s).line = s.line := rfl
@[simp] theorem completeErr_host (e : ErrorCode) (s : State) : (completeErr e s).host = s.host := rfl
@[simp] theorem completeErr_hostRegs (e : ErrorCode) (s : State) : (completeErr e s).hostRegs = s.hostRegs := rfl
@[simp] theorem completeErr_hostStrs (e : ErrorCode) (s : State) : (completeErr e s).hostStrs = s.hostStrs := rfl
@[simp] theorem completeErr_hostFailed (e : ErrorCode) (s : State) : (completeErr e s).hostFailed = s.hostFailed := rfl
@[simp] theorem completeErr_turns (e : ErrorCode) (s : State) : (completeErr e s).turns = s.turns := rfl
@[simp] theorem completeErr_draws (e : ErrorCode) (s : State) : (completeErr e s).draws = s.draws := rfl

/-! ## `resetBlock` -/

@[simp] theorem resetBlock_cfg (s : State) : (resetBlock s).cfg = s.cfg := rfl
@[simp] theorem resetBlock_ie (s : State) : (resetBlock s).ie = false := rfl
@[simp] theorem resetBlock_phase (s : State) : (resetBlock s).phase = .idle := rfl
@[simp] theorem resetBlock_done (s : State) : (resetBlock s).done = false := rfl
@[simp] theorem resetBlock_ovr (s : State) : (resetBlock s).ovr = false := rfl
@[simp] theorem resetBlock_ecode (s : State) : (resetBlock s).ecode = 0 := rfl
@[simp] theorem resetBlock_inLen (s : State) : (resetBlock s).inLen = 0 := rfl
@[simp] theorem resetBlock_auxLen (s : State) : (resetBlock s).auxLen = 0 := rfl
@[simp] theorem resetBlock_outLen (s : State) : (resetBlock s).outLen = 0 := rfl
@[simp] theorem resetBlock_res0 (s : State) : (resetBlock s).res0 = 0 := rfl
@[simp] theorem resetBlock_res1 (s : State) : (resetBlock s).res1 = 0 := rfl
@[simp] theorem resetBlock_inBuf (s : State) : (resetBlock s).inBuf = [] := rfl
@[simp] theorem resetBlock_auxBuf (s : State) : (resetBlock s).auxBuf = [] := rfl
@[simp] theorem resetBlock_outBuf (s : State) : (resetBlock s).outBuf = [] := rfl
@[simp] theorem resetBlock_cmdl (s : State) : (resetBlock s).cmdl = 0 := rfl
@[simp] theorem resetBlock_snapIn (s : State) : (resetBlock s).snapIn = none := rfl
@[simp] theorem resetBlock_snapAux (s : State) : (resetBlock s).snapAux = none := rfl
@[simp] theorem resetBlock_rem (s : State) : (resetBlock s).rem = 0 := rfl
@[simp] theorem resetBlock_line (s : State) : (resetBlock s).line = s.line := rfl
@[simp] theorem resetBlock_host (s : State) : (resetBlock s).host = s.host := rfl
@[simp] theorem resetBlock_hostRegs (s : State) : (resetBlock s).hostRegs = s.hostRegs := rfl
@[simp] theorem resetBlock_hostStrs (s : State) : (resetBlock s).hostStrs = s.hostStrs := rfl
@[simp] theorem resetBlock_hostFailed (s : State) : (resetBlock s).hostFailed = s.hostFailed := rfl
@[simp] theorem resetBlock_turns (s : State) : (resetBlock s).turns = s.turns := rfl
@[simp] theorem resetBlock_draws (s : State) : (resetBlock s).draws = s.draws := rfl

/-! ## `hardReset` -/

@[simp] theorem hardReset_cfg (s : State) : (hardReset s).cfg = s.cfg := rfl
@[simp] theorem hardReset_ie (s : State) : (hardReset s).ie = false := rfl
@[simp] theorem hardReset_phase (s : State) : (hardReset s).phase = .idle := rfl
@[simp] theorem hardReset_done (s : State) : (hardReset s).done = false := rfl
@[simp] theorem hardReset_ovr (s : State) : (hardReset s).ovr = false := rfl
@[simp] theorem hardReset_ecode (s : State) : (hardReset s).ecode = 0 := rfl
@[simp] theorem hardReset_inLen (s : State) : (hardReset s).inLen = 0 := rfl
@[simp] theorem hardReset_auxLen (s : State) : (hardReset s).auxLen = 0 := rfl
@[simp] theorem hardReset_outLen (s : State) : (hardReset s).outLen = 0 := rfl
@[simp] theorem hardReset_res0 (s : State) : (hardReset s).res0 = 0 := rfl
@[simp] theorem hardReset_res1 (s : State) : (hardReset s).res1 = 0 := rfl
@[simp] theorem hardReset_inBuf (s : State) : (hardReset s).inBuf = [] := rfl
@[simp] theorem hardReset_auxBuf (s : State) : (hardReset s).auxBuf = [] := rfl
@[simp] theorem hardReset_outBuf (s : State) : (hardReset s).outBuf = [] := rfl
@[simp] theorem hardReset_cmdl (s : State) : (hardReset s).cmdl = 0 := rfl
@[simp] theorem hardReset_snapIn (s : State) : (hardReset s).snapIn = none := rfl
@[simp] theorem hardReset_snapAux (s : State) : (hardReset s).snapAux = none := rfl
@[simp] theorem hardReset_rem (s : State) : (hardReset s).rem = 0 := rfl
@[simp] theorem hardReset_line (s : State) : (hardReset s).line = .released := rfl
@[simp] theorem hardReset_host (s : State) : (hardReset s).host = s.host := rfl
@[simp] theorem hardReset_hostRegs (s : State) : (hardReset s).hostRegs = s.hostRegs := rfl
@[simp] theorem hardReset_hostStrs (s : State) : (hardReset s).hostStrs = s.hostStrs := rfl
@[simp] theorem hardReset_hostFailed (s : State) : (hardReset s).hostFailed = s.hostFailed := rfl
@[simp] theorem hardReset_turns (s : State) : (hardReset s).turns = s.turns := rfl
@[simp] theorem hardReset_draws (s : State) : (hardReset s).draws = s.draws := rfl

/-! ## `passTurn` -/

@[simp] theorem passTurn_cfg (s : State) : (s.passTurn).cfg = s.cfg := rfl
@[simp] theorem passTurn_ie (s : State) : (s.passTurn).ie = s.ie := rfl
@[simp] theorem passTurn_phase (s : State) : (s.passTurn).phase = s.phase := rfl
@[simp] theorem passTurn_done (s : State) : (s.passTurn).done = s.done := rfl
@[simp] theorem passTurn_ovr (s : State) : (s.passTurn).ovr = s.ovr := rfl
@[simp] theorem passTurn_ecode (s : State) : (s.passTurn).ecode = s.ecode := rfl
@[simp] theorem passTurn_inLen (s : State) : (s.passTurn).inLen = s.inLen := rfl
@[simp] theorem passTurn_auxLen (s : State) : (s.passTurn).auxLen = s.auxLen := rfl
@[simp] theorem passTurn_outLen (s : State) : (s.passTurn).outLen = s.outLen := rfl
@[simp] theorem passTurn_res0 (s : State) : (s.passTurn).res0 = s.res0 := rfl
@[simp] theorem passTurn_res1 (s : State) : (s.passTurn).res1 = s.res1 := rfl
@[simp] theorem passTurn_inBuf (s : State) : (s.passTurn).inBuf = s.inBuf := rfl
@[simp] theorem passTurn_auxBuf (s : State) : (s.passTurn).auxBuf = s.auxBuf := rfl
@[simp] theorem passTurn_outBuf (s : State) : (s.passTurn).outBuf = s.outBuf := rfl
@[simp] theorem passTurn_cmdl (s : State) : (s.passTurn).cmdl = s.cmdl := rfl
@[simp] theorem passTurn_snapIn (s : State) : (s.passTurn).snapIn = s.snapIn := rfl
@[simp] theorem passTurn_snapAux (s : State) : (s.passTurn).snapAux = s.snapAux := rfl
@[simp] theorem passTurn_rem (s : State) : (s.passTurn).rem = s.rem := rfl
@[simp] theorem passTurn_line (s : State) : (s.passTurn).line = s.line := rfl
@[simp] theorem passTurn_host (s : State) : (s.passTurn).host = s.host := rfl
@[simp] theorem passTurn_hostRegs (s : State) : (s.passTurn).hostRegs = s.hostRegs := rfl
@[simp] theorem passTurn_hostStrs (s : State) : (s.passTurn).hostStrs = s.hostStrs := rfl
@[simp] theorem passTurn_hostFailed (s : State) : (s.passTurn).hostFailed = s.hostFailed := rfl
@[simp] theorem passTurn_turns (s : State) : (s.passTurn).turns = s.turns.tail := rfl
@[simp] theorem passTurn_draws (s : State) : (s.passTurn).draws = s.draws := rfl

/-! ## `issued` -/

@[simp] theorem issued_cfg (s : State) : (s.issued).cfg = s.cfg := rfl
@[simp] theorem issued_ie (s : State) : (s.issued).ie = s.ie := rfl
@[simp] theorem issued_phase (s : State) : (s.issued).phase = s.phase := rfl
@[simp] theorem issued_done (s : State) : (s.issued).done = s.done := rfl
@[simp] theorem issued_ovr (s : State) : (s.issued).ovr = s.ovr := rfl
@[simp] theorem issued_ecode (s : State) : (s.issued).ecode = s.ecode := rfl
@[simp] theorem issued_inLen (s : State) : (s.issued).inLen = s.inLen := rfl
@[simp] theorem issued_auxLen (s : State) : (s.issued).auxLen = s.auxLen := rfl
@[simp] theorem issued_outLen (s : State) : (s.issued).outLen = s.outLen := rfl
@[simp] theorem issued_res0 (s : State) : (s.issued).res0 = s.res0 := rfl
@[simp] theorem issued_res1 (s : State) : (s.issued).res1 = s.res1 := rfl
@[simp] theorem issued_inBuf (s : State) : (s.issued).inBuf = s.inBuf := rfl
@[simp] theorem issued_auxBuf (s : State) : (s.issued).auxBuf = s.auxBuf := rfl
@[simp] theorem issued_outBuf (s : State) : (s.issued).outBuf = s.outBuf := rfl
@[simp] theorem issued_cmdl (s : State) : (s.issued).cmdl = s.cmdl := rfl
@[simp] theorem issued_snapIn (s : State) : (s.issued).snapIn = s.snapIn := rfl
@[simp] theorem issued_snapAux (s : State) : (s.issued).snapAux = s.snapAux := rfl
@[simp] theorem issued_rem (s : State) : (s.issued).rem = s.rem := rfl
@[simp] theorem issued_line (s : State) : (s.issued).line = s.line := rfl
@[simp] theorem issued_host (s : State) : (s.issued).host = s.host.tail := rfl
@[simp] theorem issued_hostRegs (s : State) : (s.issued).hostRegs = s.hostRegs := rfl
@[simp] theorem issued_hostStrs (s : State) : (s.issued).hostStrs = s.hostStrs := rfl
@[simp] theorem issued_hostFailed (s : State) : (s.issued).hostFailed = s.hostFailed := rfl
@[simp] theorem issued_turns (s : State) : (s.issued).turns = s.turns.tail := rfl
@[simp] theorem issued_draws (s : State) : (s.issued).draws = s.draws := rfl

/-! ## `checkReg` -/

@[simp] theorem checkReg_cfg (src : Nat) (imm : Word) (s : State) : (checkReg src imm s).cfg = s.cfg := rfl
@[simp] theorem checkReg_ie (src : Nat) (imm : Word) (s : State) : (checkReg src imm s).ie = s.ie := rfl
@[simp] theorem checkReg_phase (src : Nat) (imm : Word) (s : State) : (checkReg src imm s).phase = s.phase := rfl
@[simp] theorem checkReg_done (src : Nat) (imm : Word) (s : State) : (checkReg src imm s).done = s.done := rfl
@[simp] theorem checkReg_ovr (src : Nat) (imm : Word) (s : State) : (checkReg src imm s).ovr = s.ovr := rfl
@[simp] theorem checkReg_ecode (src : Nat) (imm : Word) (s : State) : (checkReg src imm s).ecode = s.ecode := rfl
@[simp] theorem checkReg_inLen (src : Nat) (imm : Word) (s : State) : (checkReg src imm s).inLen = s.inLen := rfl
@[simp] theorem checkReg_auxLen (src : Nat) (imm : Word) (s : State) : (checkReg src imm s).auxLen = s.auxLen := rfl
@[simp] theorem checkReg_outLen (src : Nat) (imm : Word) (s : State) : (checkReg src imm s).outLen = s.outLen := rfl
@[simp] theorem checkReg_res0 (src : Nat) (imm : Word) (s : State) : (checkReg src imm s).res0 = s.res0 := rfl
@[simp] theorem checkReg_res1 (src : Nat) (imm : Word) (s : State) : (checkReg src imm s).res1 = s.res1 := rfl
@[simp] theorem checkReg_inBuf (src : Nat) (imm : Word) (s : State) : (checkReg src imm s).inBuf = s.inBuf := rfl
@[simp] theorem checkReg_auxBuf (src : Nat) (imm : Word) (s : State) : (checkReg src imm s).auxBuf = s.auxBuf := rfl
@[simp] theorem checkReg_outBuf (src : Nat) (imm : Word) (s : State) : (checkReg src imm s).outBuf = s.outBuf := rfl
@[simp] theorem checkReg_cmdl (src : Nat) (imm : Word) (s : State) : (checkReg src imm s).cmdl = s.cmdl := rfl
@[simp] theorem checkReg_snapIn (src : Nat) (imm : Word) (s : State) : (checkReg src imm s).snapIn = s.snapIn := rfl
@[simp] theorem checkReg_snapAux (src : Nat) (imm : Word) (s : State) : (checkReg src imm s).snapAux = s.snapAux := rfl
@[simp] theorem checkReg_rem (src : Nat) (imm : Word) (s : State) : (checkReg src imm s).rem = s.rem := rfl
@[simp] theorem checkReg_line (src : Nat) (imm : Word) (s : State) : (checkReg src imm s).line = s.line := rfl
@[simp] theorem checkReg_host (src : Nat) (imm : Word) (s : State) : (checkReg src imm s).host = s.host := rfl
@[simp] theorem checkReg_hostRegs (src : Nat) (imm : Word) (s : State) : (checkReg src imm s).hostRegs = s.hostRegs := rfl
@[simp] theorem checkReg_hostStrs (src : Nat) (imm : Word) (s : State) : (checkReg src imm s).hostStrs = s.hostStrs := rfl
@[simp] theorem checkReg_turns (src : Nat) (imm : Word) (s : State) : (checkReg src imm s).turns = s.turns := rfl
@[simp] theorem checkReg_draws (src : Nat) (imm : Word) (s : State) : (checkReg src imm s).draws = s.draws := rfl
@[simp] theorem checkReg_hostFailed (src : Nat) (imm : Word) (s : State) :
    (checkReg src imm s).hostFailed = (s.hostFailed || s.hostReg src != imm) := rfl

/-! ## The host's registers and strings -/

@[simp] theorem passTurn_hostReg (s : State) (n : Nat) : s.passTurn.hostReg n = s.hostReg n := rfl
@[simp] theorem passTurn_hostStr (s : State) (n : Nat) : s.passTurn.hostStr n = s.hostStr n := rfl
@[simp] theorem issued_hostReg (s : State) (n : Nat) : s.issued.hostReg n = s.hostReg n := rfl
@[simp] theorem issued_hostStr (s : State) (n : Nat) : s.issued.hostStr n = s.hostStr n := rfl

end Sys2Proof.Machine
end

