-- ==== Sys2Proof/Laws/Ops.lean ====
section
/-! SUPPORT. What each shared operation can do, once: the operand forms, completion, every command, the host
window, and the step (one inversion lemma each). -/

namespace Sys2Proof.Machine

/-! ## Operand forms -/

@[simp] theorem readOperand_some (bs : Bytes) (k : Bytes → Result) : readOperand (some bs) k = k bs := rfl
@[simp] theorem readOperand_none (k : Bytes → Result) : readOperand none k = .error .capacityExceeded := rfl
@[simp] theorem orRaise_ok {α : Type} (a : α) (k : α → Result) : orRaise (.ok a) k = k a := rfl
@[simp] theorem orRaise_error {α : Type} (e : ErrorCode) (k : α → Result) :
    orRaise (.error e : Except ErrorCode α) k = .error e := rfl

/-- A successful readOperand had its operand. -/
theorem readOperand_ok {snap : Option Bytes} {k : Bytes → Result} {c : Completed}
    (h : readOperand snap k = .ok c) : ∃ bs, snap = some bs ∧ k bs = .ok c := by
  cases snap with
  | none => cases h
  | some bs => exact ⟨bs, rfl, h⟩

/-- A successful orRaise had a value. -/
theorem orRaise_eq_ok {α : Type} {r : Except ErrorCode α} {k : α → Result} {c : Completed}
    (h : orRaise r k = .ok c) : ∃ a, r = .ok a ∧ k a = .ok c := by
  cases r with
  | error e => cases h
  | ok a => exact ⟨a, rfl, h⟩

theorem requireSymbols_of_fits {vals : Bytes} (k : Result) (h : fitsBits 5 vals) : requireSymbols vals k = k := by
  have : (vals.any fun b => decide (32 ≤ b.toNat)) = false := by
    simpa [List.any_eq_false] using fun b hb => h b hb
  simp [requireSymbols, this]

theorem requireSymbols_of_large {vals : Bytes} (k : Result) (h : ∃ b ∈ vals, 32 ≤ b.toNat) :
    requireSymbols vals k = .error .parameterError := by
  have : (vals.any fun b => decide (32 ≤ b.toNat)) = true := by simpa [List.any_eq_true] using h
  simp [requireSymbols, this]

/-- A successful requireSymbols ran its continuation. -/
theorem requireSymbols_ok {vals : Bytes} {k : Result} {c : Completed} (h : requireSymbols vals k = .ok c) :
    k = .ok c := by
  unfold requireSymbols at h
  split at h
  · cases h
  · exact h

/-- What finish returns when everything fits (spec/60_exceptions.md R206). -/
theorem finish_of_fits {c : Config} {out : Bytes} {aux : Option Bytes} (r0 r1 : Word)
    (ha : (aux.getD []).length ≤ c.maxAux) (ho : out.length ≤ c.maxOut) :
    finish c out aux r0 r1 = .ok { out := out, aux := aux, res0 := r0, res1 := r1 } := by
  simp [finish, Nat.not_lt.mpr ha, Nat.not_lt.mpr ho]

/-- What finish returns when something does not. -/
theorem finish_of_overflow {c : Config} {out : Bytes} {aux : Option Bytes} (r0 r1 : Word)
    (h : c.maxAux < (aux.getD []).length ∨ c.maxOut < out.length) :
    finish c out aux r0 r1 = .error .capacityExceeded := by
  unfold finish
  split_ifs <;> first | rfl | omega

/-- A successful finish returned its arguments, and they fit. -/
theorem finish_ok {c : Config} {out : Bytes} {aux : Option Bytes} {r0 r1 : Word} {r : Completed}
    (h : finish c out aux r0 r1 = .ok r) :
    r = { out := out, aux := aux, res0 := r0, res1 := r1 } ∧
      (aux.getD []).length ≤ c.maxAux ∧ out.length ≤ c.maxOut := by
  unfold finish at h
  split_ifs at h with h1 h2
  exact ⟨(Except.ok.inj h).symm, by omega, by omega⟩

/-! ## Commands -/

/-- `Exec` of every command, as one function. -/
def resultOf (i : Instr) (s : State) : Result :=
  match i with
  | .b58Enc => resultB58Enc s
  | .b58Dec => resultB58Dec s
  | .b58chkEnc ver => resultB58chkEnc ver s
  | .b58chkDec => resultB58chkDec s
  | .convbits f t pad => resultConvbits f t pad s
  | .polymod => resultPolymod s
  | .caExpand => resultCaExpand s
  | .caCrchk => resultCaCrchk s
  | .caVerify => resultCaVerify s
  | .caPack a => resultCaPack a s
  | .caEnc => resultCaEnc s
  | .caDec => resultCaDec s
  | .caChkenc a => resultCaChkenc a s
  | .caChkdec => resultCaChkdec s

/-- Every command is its result followed by completion: no command stops. -/
theorem exec_eq (i : Instr) (s : State) : exec i s = .next (complete (resultOf i s) s) := by
  cases i <;> rfl

/-- The one inversion lemma of `exec`. -/
theorem exec_next {i : Instr} {s t : State} (h : exec i s = .next t) :
    (∃ c, resultOf i s = .ok c ∧ t = completeOk c s) ∨ (∃ e, resultOf i s = .error e ∧ t = completeErr e s) := by
  rw [exec_eq] at h
  have ht : t = complete (resultOf i s) s := (Host.Outcome.next.inj h).symm
  cases hr : resultOf i s with
  | ok c => exact .inl ⟨c, rfl, by rw [ht, hr]; rfl⟩
  | error e => exact .inr ⟨e, rfl, by rw [ht, hr]; rfl⟩

/-- A successful result fits the buffers it is written to (spec/60_exceptions.md R206), and only CA_DEC and
CA_CHKDEC return a prefix. -/
theorem resultOf_ok {i : Instr} {s : State} {c : Completed} (h : resultOf i s = .ok c) :
    c.out.length ≤ s.cfg.maxOut ∧ (c.aux.getD []).length ≤ s.cfg.maxAux ∧
      (writesAux i = false → c.aux = none) := by
  cases i <;> simp only [resultOf] at h
  case b58Enc =>
    obtain ⟨_, _, h⟩ := readOperand_ok h
    obtain ⟨rfl, ha, ho⟩ := finish_ok h; exact ⟨ho, ha, fun _ => rfl⟩
  case b58Dec =>
    obtain ⟨_, _, h⟩ := readOperand_ok h
    obtain ⟨_, _, h⟩ := orRaise_eq_ok h
    obtain ⟨rfl, ha, ho⟩ := finish_ok h; exact ⟨ho, ha, fun _ => rfl⟩
  case b58chkEnc =>
    obtain ⟨_, _, h⟩ := readOperand_ok h
    obtain ⟨rfl, ha, ho⟩ := finish_ok h; exact ⟨ho, ha, fun _ => rfl⟩
  case b58chkDec =>
    obtain ⟨_, _, h⟩ := readOperand_ok h
    obtain ⟨_, _, h⟩ := orRaise_eq_ok h
    obtain ⟨rfl, ha, ho⟩ := finish_ok h; exact ⟨ho, ha, fun _ => rfl⟩
  case convbits f t pad =>
    obtain ⟨_, _, h⟩ := readOperand_ok h
    split at h
    · obtain ⟨_, _, h⟩ := orRaise_eq_ok h
      obtain ⟨rfl, ha, ho⟩ := finish_ok h; exact ⟨ho, ha, fun _ => rfl⟩
    · cases h
  case polymod =>
    obtain ⟨_, _, h⟩ := readOperand_ok h
    obtain ⟨rfl, ha, ho⟩ := finish_ok (requireSymbols_ok h); exact ⟨ho, ha, fun _ => rfl⟩
  case caExpand =>
    obtain ⟨_, _, h⟩ := readOperand_ok h
    obtain ⟨rfl, ha, ho⟩ := finish_ok h; exact ⟨ho, ha, fun _ => rfl⟩
  case caCrchk =>
    obtain ⟨_, _, h⟩ := readOperand_ok h
    obtain ⟨_, _, h⟩ := readOperand_ok h
    obtain ⟨rfl, ha, ho⟩ := finish_ok (requireSymbols_ok h); exact ⟨ho, ha, fun _ => rfl⟩
  case caVerify =>
    obtain ⟨_, _, h⟩ := readOperand_ok h
    obtain ⟨_, _, h⟩ := readOperand_ok h
    obtain ⟨rfl, ha, ho⟩ := finish_ok (requireSymbols_ok h); exact ⟨ho, ha, fun _ => rfl⟩
  case caPack a =>
    obtain ⟨_, _, h⟩ := readOperand_ok h
    obtain ⟨_, _, h⟩ := orRaise_eq_ok h
    obtain ⟨rfl, ha, ho⟩ := finish_ok h; exact ⟨ho, ha, fun _ => rfl⟩
  case caEnc =>
    obtain ⟨_, _, h⟩ := readOperand_ok h
    obtain ⟨_, _, h⟩ := readOperand_ok h
    obtain ⟨rfl, ha, ho⟩ := finish_ok (requireSymbols_ok h); exact ⟨ho, ha, fun _ => rfl⟩
  case caDec =>
    obtain ⟨_, _, h⟩ := readOperand_ok h
    obtain ⟨_, _, h⟩ := orRaise_eq_ok h
    obtain ⟨rfl, ha, ho⟩ := finish_ok h; exact ⟨ho, ha, fun hw => by cases hw⟩
  case caChkenc a =>
    obtain ⟨_, _, h⟩ := readOperand_ok h
    obtain ⟨_, _, h⟩ := readOperand_ok h
    obtain ⟨_, _, h⟩ := orRaise_eq_ok h
    obtain ⟨rfl, ha, ho⟩ := finish_ok h; exact ⟨ho, ha, fun _ => rfl⟩
  case caChkdec =>
    obtain ⟨_, _, h⟩ := readOperand_ok h
    obtain ⟨_, _, h⟩ := orRaise_eq_ok h
    obtain ⟨rfl, ha, ho⟩ := finish_ok h; exact ⟨ho, ha, fun hw => by cases hw⟩

/-! ## Completion -/

/-- A legal instance's lengths fit their 16-bit registers. -/
theorem toNat_ofNat_of_le_cap {n cap : Nat} (h : n ≤ cap) (hc : cap ≤ 4096) : (BitVec.ofNat 16 n).toNat = n := by
  rw [BitVec.toNat_ofNat]; exact Nat.mod_eq_of_lt (by omega)

/-- The parameters' bounds, from the check (spec/00_scope.md R5). -/
theorem Config_wf_bounds {c : Config} (h : c.wf = true) :
    c.base % 0x10000 = 0 ∧ 1 ≤ c.maxIn ∧ c.maxIn ≤ 4096 ∧ 1 ≤ c.maxAux ∧ c.maxAux ≤ 4096 ∧ 1 ≤ c.maxOut ∧
      c.maxOut ≤ 4096 := by
  simpa [Config.wf, and_assoc] using h

/-- No error's code is 0 (spec/60_exceptions.md R201). -/
theorem ErrorCode_code_ne_zero (e : ErrorCode) : e.code ≠ 0 := by cases e <;> decide

/-- A result that fits, written by a completion, is what `CompletesWith` says. -/
theorem completesWith_of_result {i : Instr} {s : State} {out : Bytes} {aux : Option Bytes} {r0 r1 : Word}
    (hc : s.cfg.wf = true) (h : resultOf i s = .ok { out := out, aux := aux, res0 := r0, res1 := r1 }) :
    CompletesWith i s out aux r0 r1 := by
  obtain ⟨ho, ha, -⟩ := resultOf_ok h
  obtain ⟨-, -, -, -, hA, -, hO⟩ := Config_wf_bounds hc
  refine ⟨completeOk _ s, by rw [exec_eq, h]; rfl, rfl, rfl, rfl, rfl, ?_, ?_, rfl, rfl, ?_⟩
  · exact toNat_ofNat_of_le_cap ho hO
  · intro k; simp
  · cases aux with
    | none => exact ⟨rfl, rfl⟩
    | some p =>
      refine ⟨toNat_ofNat_of_le_cap ha hA, fun k => ?_⟩
      simp [Memory.read_writeBytes]

/-- An error, written by a completion, is what `FailsWith` says. -/
theorem failsWith_of_result {i : Instr} {s : State} {e : ErrorCode} (h : resultOf i s = .error e) :
    FailsWith i s e.code := by
  refine ⟨completeErr e s, by rw [exec_eq, h]; rfl, rfl, ?_, rfl, rfl, rfl, fun k => rfl, rfl, rfl, rfl, rfl⟩
  exact bne_iff_ne.mpr (ErrorCode_code_ne_zero e)

/-- The rule for a command whose result is one `finish` without a prefix. -/
theorem completesIfFits_of_finish {i : Instr} {s : State} {out : Bytes} {r0 r1 : Word} (hc : s.cfg.wf = true)
    (h : resultOf i s = finish s.cfg out none r0 r1) : CompletesIfFits i s out r0 r1 := by
  refine ⟨fun ho => completesWith_of_result hc ?_, fun ho => failsWith_of_result (e := .capacityExceeded) ?_⟩
  · rw [h, finish_of_fits _ _ (by simp) ho]
  · rw [h, finish_of_overflow _ _ (.inr ho)]

/-- The rule for a command whose result is one `finish` with a prefix. -/
theorem completesIfBothFit_of_finish {i : Instr} {s : State} {out p : Bytes} {r0 r1 : Word}
    (hc : s.cfg.wf = true) (h : resultOf i s = finish s.cfg out (some p) r0 r1) :
    CompletesIfBothFit i s out p r0 r1 := by
  refine ⟨fun ho => completesWith_of_result hc ?_, fun ho => failsWith_of_result (e := .capacityExceeded) ?_⟩
  · rw [h, finish_of_fits _ _ (by simpa using ho.1) ho.2]
  · rw [h, finish_of_overflow _ _ (by simpa using ho)]

/-! ## Host accesses -/

/-- An access that goes on was admitted (spec/20_memory.md R52). -/
theorem admit_next {addr width : Nat} {s t : State} {k : Nat → Stepped} (h : admitAccess addr width s k = .next t) :
    s.line = .released ∧ s.cfg.base ≤ addr ∧ addr < s.cfg.base + 0x10000 ∧ width = 4 ∧
      (addr - s.cfg.base) % 4 = 0 ∧ k (addr - s.cfg.base) = .next t := by
  unfold admitAccess at h
  by_cases h1 : addr < s.cfg.base ∨ s.cfg.base + 0x10000 ≤ addr
  · rw [if_pos h1] at h; cases h
  · rw [if_neg h1] at h
    cases hl : s.line <;> rw [hl] at h <;> try cases h
    by_cases h2 : width ≠ 4 ∨ (addr - s.cfg.base) % 4 ≠ 0
    · simp only [if_pos h2] at h; cases h
    · simp only [if_neg h2] at h
      refine ⟨rfl, ?_, ?_, ?_, ?_, h⟩ <;> omega

/-- An access that meets R52 is admitted. -/
theorem admit_of_aligned {off : Nat} {s : State} (k : Nat → Stepped) (hl : s.line = .released)
    (ho : off < 0x10000) (h4 : off % 4 = 0) : admitAccess (s.cfg.base + off) 4 s k = k off := by
  have h1 : ¬(s.cfg.base + off < s.cfg.base ∨ s.cfg.base + 0x10000 ≤ s.cfg.base + off) := by omega
  have h2 : s.cfg.base + off - s.cfg.base = off := by omega
  unfold admitAccess
  rw [if_neg h1, hl, h2]
  simp [h4]

/-- A read changes nothing but the count of free values drawn (spec/20_memory.md R55). -/
theorem readWord_state (w : WindowWord) (s : State) :
    (readWord w s).2 = { s with draws := (readWord w s).2.draws } := by
  cases w <;> rfl

/-- What a write to a window word does, in each phase: everything one write can do. -/
theorem writeWord_busy {w : WindowWord} {v : Word} {s : State} (h : s.phase = .busy) :
    writeWord w v s = s ∨ writeWord w v s = { s with ovr := true } ∨
      writeWord w v s = clearStatus v s ∨ (w = .ctrl ∧ writeWord w v s = writeCtrl v s) := by
  cases w <;> simp [writeWord, unlessBusy, h]
  case bufByte b i => cases b <;> simp

/-! ## The step -/

/-- The one inversion lemma of the step: who moved, from the state with the turn taken off. -/
theorem step_cases {s t : State} (h : step s = .next t) :
    (EngineMoves s ∧ tick s.passTurn = .next t) ∨
    (s.line = .asserted ∧ t = s.passTurn) ∨
    (s.line ≠ .powerLost ∧ (s.turns.head? = some .host ∨ s.turns = []) ∧
      ¬(s.turns = [] ∧ s.line = .released ∧ s.phase = .busy) ∧ hostStep s.passTurn = .next t) ∨
    t = { s.passTurn with line := .asserted } ∨ t = releaseReset s.passTurn ∨
    t = { s.passTurn with line := .powerLost } := by
  unfold step stepTurn at h
  cases hts : s.turns with
  | nil =>
    simp only [hts] at h
    have hp : s.passTurn = s := by cases s; simp_all [State.passTurn]
    unfold defaultTurn at h
    split at h
    · next hl hb =>
      left
      simp only [engineTurn, hl] at h
      exact ⟨⟨hl, .inr ⟨hts, hb⟩⟩, by rw [hp]; exact h⟩
    · next hn =>
      right; right; left
      cases hl : s.line <;> simp only [hostTurn, hl] at h
      · refine ⟨by simp, .inr rfl, fun hx => hn hl hx.2.2, by rw [hp]; exact h⟩
      · refine ⟨by simp, .inr rfl, fun hx => (by simp at hx), by rw [hp]; exact h⟩
      · cases h
  | cons u us =>
    simp only [hts] at h
    have hp : ({ s with turns := us } : State) = s.passTurn := by simp [State.passTurn, hts]
    rw [hp] at h
    cases u <;> simp only [takeTurn] at h
    case host =>
      right; right; left
      unfold hostTurn at h
      rw [passTurn_line] at h
      cases hl : s.line <;> simp only [hl] at h
      · exact ⟨by simp, .inl rfl, by simp, h⟩
      · exact ⟨by simp, .inl rfl, by simp, h⟩
      · cases h
    case engine =>
      unfold engineTurn at h
      rw [passTurn_line] at h
      cases hl : s.line <;> simp only [hl] at h
      · exact .inl ⟨⟨hl, .inl (by simp [hts])⟩, h⟩
      · exact .inr (.inl ⟨rfl, (Host.Outcome.next.inj h).symm⟩)
      · cases h
    case assertReset => exact .inr (.inr (.inr (.inl (Host.Outcome.next.inj h).symm)))
    case releaseReset => exact .inr (.inr (.inr (.inr (.inl (Host.Outcome.next.inj h).symm))))
    case powerDown => exact .inr (.inr (.inr (.inr (.inr (Host.Outcome.next.inj h).symm))))

end Sys2Proof.Machine
end

