-- ==== Sys2Proof/Laws/Host.lean ====
section
/-! SUPPORT. What a step of each agent does, from its premises: the host's next instruction, the engine's
tick, and the words of the window map. -/

namespace Sys2Proof.Machine

/-- The host's next instruction runs in the state without it. -/
theorem step_of_hostMoves {s : State} {op : HostOp} {rest : List HostOp} (hm : HostMoves s)
    (hh : s.host = op :: rest) : step s = hostExec op s.issued := by
  obtain ⟨hl, hm | ⟨hm, hp⟩⟩ := hm
  · obtain ⟨ts, hts⟩ : ∃ ts, s.turns = .host :: ts := by
      cases h : s.turns with
      | nil => simp [h] at hm
      | cons a b => simp only [h, List.head?_cons, Option.some.injEq] at hm; exact ⟨b, by rw [hm]⟩
    simp [step, stepTurn, hts, takeTurn, hostTurn, hl, hostStep, hh, State.issued]
  · simp [step, stepTurn, hm, defaultTurn, hostTurn, hl, hp, hostStep, hh, State.issued]

/-- The engine's tick runs in the state without the turn. -/
theorem step_of_engineMoves {s : State} (hm : EngineMoves s) : step s = tick s.passTurn := by
  obtain ⟨hl, hm | ⟨hm, hp⟩⟩ := hm
  · obtain ⟨ts, hts⟩ : ∃ ts, s.turns = .engine :: ts := by
      cases h : s.turns with
      | nil => simp [h] at hm
      | cons a b => simp only [h, List.head?_cons, Option.some.injEq] at hm; exact ⟨b, by rw [hm]⟩
    simp [step, stepTurn, hts, takeTurn, engineTurn, hl, State.passTurn]
  · have hs : s.passTurn = s := by cases s; simp only at hm; subst hm; rfl
    rw [hs]
    simp [step, stepTurn, hm, defaultTurn, engineTurn, hl, hp]

/-- An aligned 32-bit write in the window (spec/20_memory.md R52, R53). -/
theorem step_write {s : State} {off : Nat} {v : Word} {rest : List HostOp} (hm : HostMoves s)
    (hh : s.host = .write (s.cfg.base + off) 4 v :: rest) (ho : off < 0x10000) (h4 : off % 4 = 0) :
    step s = .next (writeWord (windowWord s.cfg off) v s.issued) := by
  rw [step_of_hostMoves hm hh]
  exact admit_of_aligned (s := s.issued)
    (fun off => .next (writeWord (windowWord s.issued.cfg off) v s.issued)) hm.1 ho h4

/-- An aligned 32-bit read in the window. -/
theorem step_read {s : State} {off dst : Nat} {rest : List HostOp} (hm : HostMoves s)
    (hh : s.host = .read (s.cfg.base + off) 4 dst :: rest) (ho : off < 0x10000) (h4 : off % 4 = 0) :
    step s = .next { s.issued with
      hostRegs := tableSet s.hostRegs dst (readWord (windowWord s.cfg off) s.issued).1
      draws := (readWord (windowWord s.cfg off) s.issued).2.draws } := by
  rw [step_of_hostMoves hm hh]
  refine (admit_of_aligned (s := s.issued) (fun off =>
    let r := readWord (windowWord s.issued.cfg off) s.issued
    .next { r.2 with hostRegs := tableSet r.2.hostRegs dst r.1 }) hm.1 ho h4).trans ?_
  dsimp only
  rw [readWord_state]
  rfl

/-- The host's register after a load: the value loaded, every other one as it was. -/
theorem hostReg_tableSet (s : State) (n dst : Nat) (v : Word) :
    ({ s with hostRegs := tableSet s.hostRegs dst v } : State).hostReg n = if n = dst then v else s.hostReg n := by
  simp only [State.hostReg, tableGet_tableSet]
  split <;> rfl

/-- The host's string after it is collected: the bytes collected, every other one as it was. -/
theorem hostStr_tableSet (s : State) (n str : Nat) (bs : Bytes) :
    ({ s with hostStrs := tableSet s.hostStrs str bs } : State).hostStr n = if n = str then bs else s.hostStr n := by
  simp only [State.hostStr, tableGet_tableSet]
  split <;> rfl

/-- What `assert` can do: nothing if the check holds, and otherwise its record (spec/30_encoding.md R80). -/
theorem checkReg_eq (src : Nat) (imm : Word) (s : State) :
    checkReg src imm s = if s.hostReg src = imm then s else { s with hostFailed := true } := by
  unfold checkReg
  by_cases h : s.hostReg src = imm
  · rw [if_pos h, h]; cases s; simp
  · rw [if_neg h]; simp [h]

/-- The word of a buffer byte is where its offset says (spec/20_memory.md R51). -/
theorem windowWord_bufferOffset (c : Config) (b : Buf) {i : Nat} (h : i < 4096) :
    bufferOffset b i < 0x10000 ∧ bufferOffset b i % 4 = 0 ∧ windowWord c (bufferOffset b i) = bufferWord c b i := by
  cases b <;> simp only [bufferOffset] <;> refine ⟨by omega, by omega, ?_⟩ <;> unfold windowWord
  · rw [if_neg (by omega), if_pos (by omega)]; congr 1; omega
  · rw [if_neg (by omega), if_neg (by omega), if_pos (by omega)]; congr 1; omega
  · rw [if_neg (by omega), if_neg (by omega), if_neg (by omega)]; congr 1; omega

/-- No capacity is above 4096 (spec/00_scope.md R5). -/
theorem capacity_le {c : Config} (b : Buf) (hc : c.wf = true) : capacity c b ≤ 4096 := by
  obtain ⟨-, -, h1, -, h2, -, h3⟩ := Config_wf_bounds hc
  cases b <;> assumption

/-- Whichever index a window word names is below its buffer's capacity. -/
theorem windowWord_bufByte {c : Config} {off i : Nat} {b : Buf} (h : windowWord c off = .bufByte b i) :
    i < capacity c b := by
  have key : ∀ b' j, bufferWord c b' j = .bufByte b i → i < capacity c b := by
    intro b' j hj
    unfold bufferWord at hj
    split_ifs at hj with hlt
    cases hj
    exact hlt
  unfold windowWord at h
  split_ifs at h
  · unfold registerAt at h; split at h <;> cases h
  · exact key _ _ h
  · exact key _ _ h
  · exact key _ _ h

end Sys2Proof.Machine
end

