-- ==== Sys2Proof/Laws/PerInstr.lean ====
section
/-! SUPPORT. A family of statements made command by command: where the opcode and the reserved field of an
encoded word stand (spec/30_encoding.md R70, R74). -/

namespace Sys2Proof.Laws.EncodeOp

/-- The word's `OP` field is the command's opcode (R72), and its `RSV` field is 0. -/
def Statement (i : Instr) : Prop := cmdOp (encode i) = i.opcode ∧ cmdRsv (encode i) = 0

/-- Neither field depends on the others of format C. -/
theorem encodeFields_op (ver : Byte) (atype : BitVec 3) (pad : Bool) (toBits fromBits : BitVec 4) (op : Byte) :
    cmdOp (encodeFields ver atype pad toBits fromBits op) = op ∧
      cmdRsv (encodeFields ver atype pad toBits fromBits op) = 0 := by
  constructor
  · ext k hk
    have h8 : k < 8 := hk
    interval_cases k <;> simp [cmdOp, encodeFields]
  · ext k hk
    have h4 : k < 4 := hk
    interval_cases k <;> simp [cmdRsv, encodeFields]

theorem b58Enc : Statement .b58Enc := encodeFields_op ..
theorem b58Dec : Statement .b58Dec := encodeFields_op ..
theorem b58chkEnc (ver : Byte) : Statement (.b58chkEnc ver) := encodeFields_op ..
theorem b58chkDec : Statement .b58chkDec := encodeFields_op ..
theorem convbits (fromBits toBits : Nat) (pad : Bool) : Statement (.convbits fromBits toBits pad) := encodeFields_op ..
theorem polymod : Statement .polymod := encodeFields_op ..
theorem caExpand : Statement .caExpand := encodeFields_op ..
theorem caCrchk : Statement .caCrchk := encodeFields_op ..
theorem caVerify : Statement .caVerify := encodeFields_op ..
theorem caPack (atype : AddrType) : Statement (.caPack atype) := encodeFields_op ..
theorem caEnc : Statement .caEnc := encodeFields_op ..
theorem caDec : Statement .caDec := encodeFields_op ..
theorem caChkenc (atype : AddrType) : Statement (.caChkenc atype) := encodeFields_op ..
theorem caChkdec : Statement .caChkdec := encodeFields_op ..

end Sys2Proof.Laws.EncodeOp
end

