-- ==== Sys2Proof/Tests/Slice0.lean ====
section
/-! SUPPORT. The model's own tests, each by evaluation in the kernel, with results from
spec/95_test_vectors.md and spec/30_encoding.md; and for every obligation with hypotheses a state and operands
that meet them. -/

namespace Sys2Proof.Tests

open Sys2Proof Sys2Proof.Machine

/- The tests are evaluated one after another: side by side, their waiting threads' stacks pass the memory limit. -/
set_option Elab.async false

/-! ## Helpers -/

/-- The bytes of an ASCII string (spec/00_scope.md R13). -/
def ascii (s : String) : Bytes := s.toList.map fun c => BitVec.ofNat 8 c.toNat

/-- The bytes of a list of numbers. -/
def bytes (l : List Nat) : Bytes := l.map (BitVec.ofNat 8)

/-- A command word field by field, as spec/30_encoding.md R70 lays format C out, bit 31 first. -/
def formatC (ver : BitVec 8) (rsv : BitVec 4) (atype : BitVec 3) (pad : BitVec 1) (to4 from4 : BitVec 4)
    (op : BitVec 8) : Word :=
  ver ++ rsv ++ atype ++ pad ++ to4 ++ from4 ++ op

/-- The state after reset with two operands loaded. -/
def loaded (i a : Bytes) : State :=
  { State.reset with
    inBuf := Memory.ofBytes i
    inLen := BitVec.ofNat 16 i.length
    auxBuf := Memory.ofBytes a
    auxLen := BitVec.ofNat 16 a.length }

/-- ECODE, OUT, RES0, RES1 and AUX after one step of a command word on two operands. -/
def ran (w : Nat) (i a : Bytes) : Option (Nat × Bytes × Nat × Nat × Bytes) :=
  match step ((loaded i a).withFetchWord 32 w) with
  | .next t =>
    some (t.ecode.toNat, (t.outBuf.map fun p => p.2), t.res0.toNat, t.res1.toNat,
      (t.auxBuf.map fun p => p.2).take t.auxLen.toNat)
  | .fault _ => none
  | .refused _ => none

/-- The hash of V-S1. -/
def hashS1 : Bytes := bytes [0x6F, 0xD3, 0x9D, 0x9B, 0xBB, 0x63, 0xAF, 0xE8, 0xAD, 0x3C, 0x0E, 0xC9, 0x84, 0xBC, 0x10,
  0x1A, 0x0B, 0x5A, 0x88, 0xD6]

/-- The payload symbols of V-S1. -/
def symbolsS1 : Bytes := bytes [0x00, 0x01, 0x17, 0x1D, 0x07, 0x07, 0x0C, 0x1B, 0x17, 0x0D, 0x11, 0x1A, 0x1F, 0x1A, 0x05,
  0x0D, 0x07, 0x10, 0x07, 0x0C, 0x13, 0x01, 0x05, 0x1C, 0x02, 0x00, 0x0D, 0x00, 0x16, 0x16, 0x14, 0x08, 0x1A, 0x18]

/-- The checksum symbols of V-S1. -/
def checkS1 : Bytes := bytes [0x13, 0x09, 0x0C, 0x03, 0x10, 0x09, 0x14, 0x1F]

/-- The address of V-S1. -/
def addressS1 : Bytes := ascii "bitcoincash:qpha88vmhd36l69d8s8vnp9uzqdqkk5g6cnfvrsf5l"

/-- The hash of V-S3. -/
def hashS3 : Bytes := bytes [0x4A, 0xEF, 0x67, 0xED, 0x61, 0xD3, 0x91, 0xD6, 0xF3, 0xD9, 0x90, 0x3E, 0xAD, 0x92, 0x38,
  0x6C, 0x1E, 0xFC, 0x99, 0x25]

/-! ## Well-formedness and decoding -/

theorem test_wf_refuses_wide_from : (Instr.convbits 16 5 true).wf = false := by decide
theorem test_wf_refuses_wide_to : (Instr.convbits 8 16 false).wf = false := by decide

/-- The words of R72's opcodes, field by field. -/
theorem test_decode_base58 :
    decode (formatC 0 0 0 0 0 0 0x01) = .ok .b58Enc ∧ decode (formatC 0 0 0 0 0 0 0x02) = .ok .b58Dec ∧
    decode (formatC 0x05 0 0 0 0 0 0x03) = .ok (.b58chkEnc 0x05#8) ∧
    decode (formatC 0 0 0 0 0 0 0x04) = .ok .b58chkDec := ⟨rfl, rfl, rfl, rfl⟩

theorem test_decode_convbits :
    decode (formatC 0 0 0 1 5 8 0x10) = .ok (.convbits 8 5 true) ∧
    decode (formatC 0 0 0 0 8 5 0x10) = .ok (.convbits 5 8 false) := ⟨rfl, rfl⟩

theorem test_decode_checksum :
    decode (formatC 0 0 0 0 0 0 0x20) = .ok .polymod ∧ decode (formatC 0 0 0 0 0 0 0x21) = .ok .caExpand ∧
    decode (formatC 0 0 0 0 0 0 0x22) = .ok .caCrchk ∧ decode (formatC 0 0 0 0 0 0 0x23) = .ok .caVerify :=
  ⟨rfl, rfl, rfl, rfl⟩

theorem test_decode_cashAddr :
    decode (formatC 0 0 1 0 0 0 0x30) = .ok (.caPack .p2pkh) ∧ decode (formatC 0 0 0 0 0 0 0x31) = .ok .caEnc ∧
    decode (formatC 0 0 0 0 0 0 0x32) = .ok .caDec ∧ decode (formatC 0 0 7 0 0 0 0x33) = .ok (.caChkenc .p2pk) ∧
    decode (formatC 0 0 0 0 0 0 0x34) = .ok .caChkdec := ⟨rfl, rfl, rfl, rfl, rfl⟩

/-- R74 and R77: a reserved opcode, a reserved bit, and a bit of an unused field. -/
theorem test_decode_rejects :
    decode (formatC 0 0 0 0 0 0 0x05) = .error .reservedOp ∧
    decode (formatC 0 1 0 0 0 0 0x10) = .error .reservedBits ∧
    decode (formatC 0 0 0 0 0 1 0x01) = .error .unusedField ∧
    decode (formatC 0 0 1 0 5 8 0x10) = .error .unusedField := ⟨rfl, rfl, rfl, rfl⟩

/-- The words spec/95_test_vectors.md writes out. -/
theorem test_encode :
    encode (.convbits 8 5 true) = 0x00015810#32 ∧ encode (.b58chkEnc 0xFF#8) = 0xFF000003#32 ∧
    encode (.caPack .p2pkh) = 0x00020030#32 ∧ encode (.caChkenc .p2pk) = 0x000E0033#32 := by decide

theorem test_table_word_drops_high_bits : decodeTableWord 32 0x100000020 = some .polymod := by decide

/-! ## One step of every command -/

/-- V-B7. -/
theorem test_b58Enc : ran 0x00000001 (bytes [0, 0, 0x3A]) [] = some (0, ascii "1121", 0, 0, []) := by decide +kernel
/-- V-B10. -/
theorem test_b58Enc_long :
    ran 0x00000001 (bytes [0xFF, 0xFF, 0xFF, 0xFF]) [] = some (0, ascii "7YXq9G", 0, 0, []) := by decide +kernel
/-- V-B12. -/
theorem test_b58Dec : ran 0x00000002 (ascii "5Q") [] = some (0, bytes [0xFF], 0, 0, []) := by decide +kernel
/-- V-B14. -/
theorem test_b58Dec_invalid : ran 0x00000002 (ascii "0") [] = some (0x01, [], 0, 0, []) := by decide +kernel
/-- V-S3. -/
theorem test_b58chkEnc :
    ran 0x05000003 hashS3 [] = some (0, ascii "38XEixUj1QpcqxTWbxvqdbv4Mjre4imw9Z", 0, 0, []) := by decide +kernel
/-- V-S3. -/
theorem test_b58chkDec :
    ran 0x00000004 (ascii "38XEixUj1QpcqxTWbxvqdbv4Mjre4imw9Z") [] = some (0, hashS3, 5, 0, []) := by decide +kernel
/-- V-B24. -/
theorem test_b58chkDec_short : ran 0x00000004 (ascii "1111") [] = some (0x03, [], 0, 0, []) := by decide +kernel
/-- V-C1. -/
theorem test_convbits : ran 0x00015810 (bytes [0xFF]) [] = some (0, bytes [0x1F, 0x1C], 0, 0, []) := by decide +kernel
/-- V-C5. -/
theorem test_convbits_padding : ran 0x00008510 (bytes [0x1F, 0x1F]) [] = some (0x04, [], 0, 0, []) := by decide +kernel
/-- V-M6. -/
theorem test_polymod :
    ran 0x00000020 (bytes [31, 31, 31, 31, 31, 31, 31, 31, 31, 31]) [] = some (0, [], 0x27811649, 0x9B, []) := by
  decide +kernel
/-- V-M7. -/
theorem test_polymod_range : ran 0x00000020 (bytes [32]) [] = some (0x11, [], 0, 0, []) := by decide +kernel
/-- V-M12. -/
theorem test_caExpand :
    ran 0x00000021 [] (ascii "bchtest") =
      some (0, bytes [0x02, 0x03, 0x08, 0x14, 0x05, 0x13, 0x14, 0x00], 0, 0, ascii "bchtest") := by decide +kernel
/-- V-S1. -/
theorem test_caCrchk :
    ran 0x00000022 symbolsS1 (ascii "bitcoincash") = some (0, checkS1, 0, 0, ascii "bitcoincash") := by
  decide +kernel
/-- V-S1. -/
theorem test_caVerify :
    ran 0x00000023 (symbolsS1 ++ checkS1) (ascii "bitcoincash") = some (0, [], 1, 0, ascii "bitcoincash") := by
  decide +kernel
/-- V-M20. -/
theorem test_caVerify_fails : ran 0x00000023 [] [] = some (0, [], 0, 0, []) := by decide +kernel
/-- V-S1. -/
theorem test_caPack : ran 0x00020030 hashS1 [] = some (0, symbolsS1, 0, 0, []) := by decide +kernel
/-- V-A7: the type is checked before the size. -/
theorem test_caPack_type_first :
    ran 0x000E0030 (hashS1.take 19) [] = some (0x06, [], 0, 0, []) := by decide +kernel
/-- V-S1. -/
theorem test_caEnc :
    ran 0x00000031 symbolsS1 (ascii "bitcoincash") = some (0, addressS1, 0, 0, ascii "bitcoincash") := by
  decide +kernel
/-- V-A12. -/
theorem test_caDec_upper :
    ran 0x00000032 (ascii "BITCOINCASH:QPHA88VMHD36L69D8S8VNP9UZQDQKK5G6CNFVRSF5L") (ascii "xyz") =
      some (0, symbolsS1, 0, 0, ascii "bitcoincash") := by decide +kernel
/-- V-T4. -/
theorem test_caDec_mixed :
    ran 0x00000032 (ascii "bitcoincash:Qpha88vmhd36l69d8s8vnp9uzqdqkk5g6cnfvrsf5l") (ascii "xyz") =
      some (0x09, [], 0, 0, ascii "xyz") := by decide +kernel
/-- V-A2. -/
theorem test_caChkenc :
    ran 0x00040033 hashS1 (ascii "bitcoincash") =
      some (0, ascii "bitcoincash:ppha88vmhd36l69d8s8vnp9uzqdqkk5g6cyv3vh20z", 0, 0, ascii "bitcoincash") := by
  decide +kernel
/-- V-A3. -/
theorem test_caChkdec :
    ran 0x00000034 (ascii "bitcoincash:ppha88vmhd36l69d8s8vnp9uzqdqkk5g6cyv3vh20z") [] =
      some (0, hashS1, 0x802, 0, ascii "bitcoincash") := by decide +kernel
/-- V-A10. -/
theorem test_caChkdec_length :
    ran 0x00000034 (ascii "bitcoincash:qvqqzqsrqszsvpcgpy9qkrqdpc83qygjzv2p29shrqv35xcur50p77hk2ql29") [] =
      some (0x08, [], 0, 0, []) := by decide +kernel
/-- V-C24: an illegal word. -/
theorem test_illegal_word : ran 0x00025810 (bytes [0xFF]) [] = some (0x10, [], 0, 0, []) := by decide +kernel

/-! ## Memory and reset -/

theorem test_reset_memory_canonical :
    State.reset.inBuf.wf State.reset.cfg.maxIn = true ∧ State.reset.auxBuf.wf State.reset.cfg.maxAux = true ∧
    State.reset.outBuf.wf State.reset.cfg.maxOut = true ∧ State.reset.cfg.wf = true := by decide

/-- Two orders of the same writes give equal data. -/
theorem test_memory_equal_data :
    ((Memory.write [] 3 0x11#8).write 1 0x22#8) = ((Memory.write [] 1 0x22#8).write 3 0x11#8) := by decide

/-! ## Witnesses: states and operands that meet the hypotheses of each obligation -/

/-- The smallest legal instance, at a window base that is not 0. -/
def smallCfg : Config := { base := 0x30000, maxIn := 1, maxAux := 1, maxOut := 1 }

/-- An IDLE state whose host has the instructions `ops`. -/
def hostState (ops : List HostOp) : State := { State.reset with host := ops, done := true, ovr := true, ie := true }

/-- A BUSY state with the command word `w` due. -/
def busyState (w : Word) : State :=
  { State.reset with phase := .busy, rem := 1, cmdl := w, snapIn := some [], snapAux := some [], ie := true }

/-- The same with the host's turn next and its instruction `op`. -/
def busyHost (op : HostOp) : State := { busyState 0x00000020#32 with turns := [.host], host := [op] }

/-- A state with two operand snapshots. -/
def opState (i a : Bytes) : State := { State.reset with snapIn := some i, snapAux := some a }

/-- The same on the smallest instance. -/
def smallState (i a : Bytes) : State := { State.resetOf smallCfg with snapIn := some i, snapAux := some a }

theorem witness_DecodeOfEncodeGivesTheCommand :
    (Instr.convbits 0 0 false).wf = true ∧ (Instr.convbits 15 15 true).wf = true ∧
    (Instr.b58chkEnc 0xFF#8).wf = true := by decide

theorem witness_DecoderAgreesWithOpcodeTable :
    decode 0x05000003#32 = .ok (.b58chkEnc 0x05#8) ∧
    (⟨"B58CHK_ENC", 0x00FFFFFF#32, 0x00000003#32⟩ : OpRow) ∈ opcodeRows ∧
    0x05000003#32 &&& 0x00FFFFFF#32 = 0x00000003#32 := ⟨rfl, by decide, by decide⟩

theorem witness_DueTickRunsTheDecodedCommand :
    EngineMoves (busyState 0x00000020#32) ∧ (busyState 0x00000020#32).phase = .busy ∧
    (busyState 0x00000020#32).rem = 1 ∧ decode (busyState 0x00000020#32).cmdl = .ok .polymod :=
  ⟨by decide, rfl, rfl, rfl⟩

theorem witness_FetchedWordRunsInTheNextStep : (Instr.caChkenc .p2pk).wf = true := by decide

theorem witness_IllegalWordCompletesWithIllegalCommand :
    EngineMoves (busyState 0#32) ∧ (busyState 0#32).phase = .busy ∧ (busyState 0#32).rem = 1 ∧
    ∀ i, decode (busyState 0#32).cmdl ≠ .ok i := by
  refine ⟨by decide, rfl, rfl, fun i h => ?_⟩
  have : decode (busyState 0#32).cmdl = .error .reservedOp := rfl
  rw [this] at h
  cases h

/-- A state for each clause, with REM at its boundary 2. -/
theorem witness_TickCountsDownAndIdleKeepsState :
    (EngineMoves { busyState 0x20#32 with rem := 2 } ∧ 1 < ({ busyState 0x20#32 with rem := 2 } : State).rem) ∧
    (EngineMoves { State.reset with turns := [.engine] } ∧ State.reset.phase = .idle) ∧
    (({ State.reset with line := .asserted, turns := [.engine] } : State).turns.head? = some .engine) ∧
    (HostMoves State.reset ∧ State.reset.phase = .idle ∧ State.reset.host = []) := by decide

theorem witness_BusyCommandCompletes :
    (busyState 0x20#32).line = .released ∧ (busyState 0x20#32).turns = [] ∧ (busyState 0x20#32).phase = .busy ∧
    1 ≤ (busyState 0x20#32).rem := by decide

theorem witness_CmdWriteWhileIdleIsAccepted :
    HostMoves (hostState [.write 0x00C 4 0x15810#32]) ∧ (hostState [.write 0x00C 4 0x15810#32]).phase = .idle ∧
    (hostState [.write 0x00C 4 0x15810#32]).host =
      .write ((hostState []).cfg.base + 0x00C) 4 0x15810#32 :: [] := by decide

/-- An access for each clause; the buffer words at both ends of a range. -/
theorem witness_WriteWhileBusyIsLost :
    (∀ off, (busyHost (.write off 4 1#32)).cfg.wf = true ∧ HostMoves (busyHost (.write off 4 1#32)) ∧
      (busyHost (.write off 4 1#32)).phase = .busy ∧
      (busyHost (.write off 4 1#32)).host = .write ((busyHost (.write off 4 1#32)).cfg.base + off) 4 1#32 :: []) ∧
    (0x020 ∈ [0x00C, 0x010, 0x014, 0x018, 0x01C, 0x020]) ∧
    (0 < capacity Config.testVectors .inp ∧ 0x4000 = bufferOffset .inp 0) ∧
    (255 < capacity Config.testVectors .out ∧ 0xC3FC = bufferOffset .out 255) ∧
    (0x02C ∈ [0x000, 0x024, 0x028, 0x02C]) := by
  refine ⟨fun off => ⟨rfl, ⟨rfl, .inl rfl⟩, rfl, ?_⟩, by decide, by decide, by decide, by decide⟩
  exact congrArg (fun a => [HostOp.write a 4 1#32]) (Nat.zero_add off).symm

/-- An access for each clause, the buffer words at the last index. -/
theorem witness_WriteWhileIdleStores :
    (∀ off, (hostState [.write off 4 0x12345#32]).cfg.wf = true ∧ HostMoves (hostState [.write off 4 0x12345#32]) ∧
      (hostState [.write off 4 0x12345#32]).phase = .idle ∧
      (hostState [.write off 4 0x12345#32]).host =
        .write ((hostState [.write off 4 0x12345#32]).cfg.base + off) 4 0x12345#32 :: []) ∧
    (0x02C ∈ [0x000, 0x018, 0x01C, 0x020, 0x024, 0x028, 0x02C]) ∧
    (255 < Config.testVectors.maxOut ∧ 0xC3FC = bufferOffset .out 255) ∧
    (255 < Config.testVectors.maxIn ∧ 0x43FC = bufferOffset .inp 255) ∧
    (255 < Config.testVectors.maxAux ∧ 0x83FC = bufferOffset .aux 255) := by
  refine ⟨fun off => ⟨rfl, ⟨rfl, .inr ⟨rfl, rfl⟩⟩, rfl, ?_⟩, by decide, by decide, by decide, by decide⟩
  exact congrArg (fun a => [HostOp.write a 4 0x12345#32]) (Nat.zero_add off).symm

theorem witness_RegisterReadReturnsItsFields :
    HostMoves (hostState [.read 0x008 4 1]) ∧
    (hostState [.read 0x008 4 1]).host = .read ((hostState []).cfg.base + 0x008) 4 1 :: [] ∧
    statusValue (hostState [.read 0x008 4 1]) = 0x0000000A#32 := by decide

/-- A byte with a value at the last index, in each phase a read can find one. -/
theorem witness_BufferReadReturnsTheByte :
    let s : State := { hostState [.read 0xC3FC 4 1] with outBuf := [(255, 7#8)] }
    let b : State := { busyHost (.read 0x43FC 4 1) with inBuf := [(255, 7#8)] }
    (s.cfg.wf = true ∧ HostMoves s ∧ 255 < capacity s.cfg .out ∧
      s.host = .read (s.cfg.base + bufferOffset .out 255) 4 1 :: [] ∧ s.phase = .idle ∧
      (s.buf .out).read 255 = some 7#8) ∧
    (b.cfg.wf = true ∧ HostMoves b ∧ 255 < capacity b.cfg .inp ∧
      b.host = .read (b.cfg.base + bufferOffset .inp 255) 4 1 :: [] ∧ (b.buf .inp).read 255 = some 7#8) := by
  decide

/-- Both ends of both kinds of reserved words. -/
theorem witness_ReservedWordReadsZeroAndIgnoresWrites :
    let s : State := hostState [.read 0x3FFC 4 1]
    let t : State := busyHost (.write 0xFFFC 4 1#32)
    (s.cfg.wf = true ∧ HostMoves s ∧ 0x3FFC % 4 = 0 ∧ s.host = .read (s.cfg.base + 0x3FFC) 4 1 :: []) ∧
    (t.cfg.wf = true ∧ HostMoves t ∧ t.host = .write (t.cfg.base + bufferOffset .out 4095) 4 1#32 :: [] ∧
      capacity t.cfg .out ≤ 4095) ∧
    (capacity s.cfg .inp ≤ 256 ∧ 0x4400 = bufferOffset .inp 256) ∧ 0x030 % 4 = 0 := by decide

theorem witness_UnadmittedAccessIsRefused :
    let s : State := hostState [.write 0xFFFF 4 0#32]
    (HostMoves s ∧ s.host = .write (s.cfg.base + 0xFFFF) 4 0#32 :: [] ∧ 0xFFFF < 0x10000 ∧ 0xFFFF % 4 ≠ 0) ∧
    HostMoves (hostState [.read 0x000 2 1]) ∧ HostMoves (hostState [.poll 0x001 1 1#32 0#32]) := by decide

theorem witness_ControlWritesActOnTheirBitsOnly :
    let s : State := hostState [.write 0x008 4 0xFFFFFFFF#32]
    let t : State := busyHost (.write 0x004 4 0xFFFFFFFD#32)
    (HostMoves s ∧ s.host = .write (s.cfg.base + 0x008) 4 0xFFFFFFFF#32 :: []) ∧
    (HostMoves t ∧ t.host = .write (t.cfg.base + 0x004) 4 0xFFFFFFFD#32 :: []) ∧
    (0xFFFFFFFD#32).getLsbD 1 = false := by decide

/-- A host step while BUSY of each kind. -/
theorem witness_HostCannotChangeTheRunningCommand :
    (∃ t, (busyHost (.write 0x4000 4 1#32)).phase = .busy ∧
      (busyHost (.write 0x4000 4 1#32)).turns.head? = some .host ∧
      step (busyHost (.write 0x4000 4 1#32)) = .next t ∧ t.ovr = true) ∧
    (∃ t, step (busyHost (.write 0x004 4 2#32)) = .next t ∧ t.phase = .idle) :=
  ⟨⟨_, rfl, rfl, rfl, rfl⟩, ⟨_, rfl, rfl⟩⟩

theorem witness_OnlyCmdWriteStartsACommand :
    ∃ t, step (hostState [.write 0x00C 4 0x20#32]) = .next t ∧ t.phase = .busy := ⟨_, rfl, rfl⟩

theorem witness_DoneIsSetOnlyByCompletion :
    (busyState 0x20#32).done = false ∧ ∃ t, step (busyState 0x20#32) = .next t ∧ t.done = true :=
  ⟨rfl, _, rfl, rfl⟩

theorem witness_PollOfStatusRepeatsUntilItMatches :
    let s : State := hostState [.poll 0x008 4 1#32 0#32]
    let t : State := busyHost (.poll 0x008 4 1#32 0#32)
    (HostMoves s ∧ s.host = .poll (s.cfg.base + 0x008) 4 1#32 0#32 :: [] ∧ statusValue s &&& 1#32 = 0#32) ∧
    (HostMoves t ∧ t.host = .poll (t.cfg.base + 0x008) 4 1#32 0#32 :: [] ∧ statusValue t &&& 1#32 ≠ 0#32) := by
  decide

/-- A check that does not hold, one that does, and a register that nothing has loaded. -/
theorem witness_AssertChecksAndGoesOn :
    let s : State := hostState [.assertReg 1 5#32]
    let t : State := { hostState [.assertReg 1 5#32] with hostRegs := [(1, 5#32)] }
    (HostMoves s ∧ s.host = .assertReg 1 5#32 :: [] ∧ s.hostRegs = [] ∧ s.hostReg 1 ≠ 5#32) ∧
    (HostMoves t ∧ t.host = .assertReg 1 5#32 :: [] ∧ t.hostReg 1 = 5#32) := by decide

/-- The empty string and one that fills the buffer, on each buffer. -/
theorem witness_LoadbufFillsTheBuffer :
    let s : State := { State.resetOf smallCfg with host := loadbuf smallCfg .inp [0xAA#8] }
    let t : State := { State.resetOf smallCfg with host := loadbuf smallCfg .aux [] }
    (s.cfg.wf = true ∧ s.line = .released ∧ s.turns = [] ∧ s.phase = .idle ∧ [0xAA#8].length ≤ s.cfg.maxIn ∧
      s.host = loadbuf s.cfg .inp [0xAA#8] ++ []) ∧
    (t.line = .released ∧ t.turns = [] ∧ t.phase = .idle ∧ ([] : Bytes).length ≤ t.cfg.maxAux ∧
      t.host = loadbuf t.cfg .aux [] ++ []) := by decide

theorem witness_HardwareResetRule :
    let s : State := { hostState [.read 0xFFFC 4 1] with line := .asserted, turns := [.host] }
    let d : State := { hostState [.read 0x0000 4 1] with line := .asserted }
    let t : State := { busyState 0x20#32 with line := .asserted, turns := [.releaseReset] }
    (s.line = .asserted ∧ s.turns.head? = some .host ∧ s.host = .read (s.cfg.base + 0xFFFC) 4 1 :: []) ∧
    (d.line = .asserted ∧ d.turns = [] ∧ d.host = .read (d.cfg.base + 0) 4 1 :: []) ∧
    (t.line = .asserted ∧ t.turns.head? = some .releaseReset) := by decide

/-- While IDLE with the other bit set, and while BUSY. -/
theorem witness_SoftResetRule :
    let s : State := hostState [.write 0x004 4 3#32]
    let t : State := busyHost (.write 0x004 4 2#32)
    (HostMoves s ∧ s.host = .write (s.cfg.base + 0x004) 4 3#32 :: [] ∧ (3#32).getLsbD 1 = true) ∧
    (HostMoves t ∧ t.host = .write (t.cfg.base + 0x004) 4 2#32 :: [] ∧ (2#32).getLsbD 1 = true) := by decide

/-- A next state for each clause. -/
theorem witness_InterruptLineRule :
    (∃ t, exec .polymod (opState [] []) = .next t) ∧
    (HostMoves (hostState [opAck Config.testVectors]) ∧ ∃ t, step (hostState [opAck Config.testVectors]) = .next t) ∧
    (HostMoves (hostState [.write 0x004 4 0x1#32]) ∧ ∃ t, step (hostState [.write 0x004 4 0x1#32]) = .next t) ∧
    (HostMoves (hostState [.write 0x00C 4 0x1#32]) ∧ (hostState [.write 0x00C 4 0x1#32]).phase = .idle ∧
      ∃ t, step (hostState [.write 0x00C 4 0x1#32]) = .next t) :=
  ⟨⟨_, rfl⟩, ⟨by decide, _, rfl⟩, ⟨by decide, _, rfl⟩, ⟨by decide, rfl, _, rfl⟩⟩

theorem witness_PowerLossIsRefusedUntilReset :
    ({ State.reset with turns := [.powerDown] } : State).turns.head? = some .powerDown ∧
    ({ State.reset with line := .powerLost } : State).turns = [] ∧
    ({ State.reset with line := .powerLost, turns := [.assertReset, .releaseReset] } : State).turns =
      .assertReset :: .releaseReset :: [] := by decide

theorem witness_ErrorCompletionRecordsOnlyTheCode :
    ∃ t, exec .b58chkDec (opState [0x31#8] []) = .next t ∧ t.ecode ≠ 0 := ⟨_, rfl, by decide +kernel⟩

theorem witness_CommandsRaiseOnlyTheirCodes : ∃ t, exec .polymod (opState [0x20#8] []) = .next t := ⟨_, rfl⟩

theorem witness_FrameOfCommandsThatKeepAux :
    Instr.caEnc ≠ .caDec ∧ Instr.caEnc ≠ .caChkdec ∧ (opState [] []).cfg.wf = true ∧
    ∃ t, exec .caEnc (opState [] []) = .next t ∧ t.ecode = 0 :=
  ⟨by decide, by decide, by decide, _, rfl, by decide +kernel⟩

/-- A failing and a succeeding run (V-A13). -/
theorem witness_FrameOfCommandsThatReturnAPrefix :
    (opState [] []).cfg.wf = true ∧ (∃ t, exec .caDec (opState [] []) = .next t ∧ t.ecode ≠ 0) ∧
    ∃ t, exec .caDec (opState (ascii "a:3x3dxu9w") []) = .next t ∧ t.ecode = 0 ∧ t.auxLen.toNat = 1 :=
  ⟨by decide, ⟨_, rfl, by decide +kernel⟩, _, rfl, by decide +kernel, by decide +kernel⟩

/-- Two states that agree on the parameters and snapshots and differ elsewhere, for a command that writes AUX. -/
theorem witness_ResultsDependOnlyOnTheSnapshots :
    let s : State := opState (ascii "a:3x3dxu9w") []
    let u : State := { s with auxBuf := [(0, 9#8), (1, 9#8)], auxLen := 2, ovr := true }
    s.cfg = u.cfg ∧ s.snapIn = u.snapIn ∧ s.snapAux = u.snapAux ∧ writesAux .caDec = true ∧
    (∃ t, exec .caDec s = .next t ∧ t.ecode = 0) ∧ ∃ t, exec .caDec u = .next t :=
  ⟨rfl, rfl, rfl, rfl, ⟨_, rfl, by decide +kernel⟩, _, rfl⟩

theorem witness_UsedOperandAboveCapacityFails :
    (readsIn .b58Enc = true ∧ State.reset.snapIn = none) ∧ readsAux .caExpand = true ∧ State.reset.snapAux = none := by
  decide

/-- A result that fits the smallest OUT, and one that is one byte too long. -/
theorem witness_B58EncCompletes :
    smallCfg.wf = true ∧ (smallState [0#8] []).snapIn = some [0#8] ∧ (base58Encode [0#8]).length ≤ smallCfg.maxOut ∧
    (smallState [0#8, 0#8] []).snapIn = some [0#8, 0#8] ∧ smallCfg.maxOut < (base58Encode [0#8, 0#8]).length := by
  decide +kernel

theorem witness_B58DecCompletes :
    Config.testVectors.wf = true ∧ (opState (ascii "0") []).snapIn = some (ascii "0") ∧
    (∃ c ∈ ascii "0", c ∉ base58Alphabet) ∧
    (ascii "1z").map (fun c => base58Alphabet.idxOf? c) = [0, 57].map some := by decide +kernel

theorem witness_Base58IsABijection : ∀ c ∈ ascii "1z", c ∈ base58Alphabet := by decide +kernel

theorem witness_B58chkEncCompletes :
    (opState [] []).cfg.wf = true ∧ (opState [] []).snapIn = some [] := by decide

/-- V-B27, V-B24, V-B25 and V-B20: one string for each clause; four bytes are too short and five are not. -/
theorem witness_B58chkDecOutcome :
    (∃ c ∈ ascii "0111", c ∉ base58Alphabet) ∧ base58Decode (ascii "1111") = .ok (bytes [0, 0, 0, 0]) ∧
    base58Decode (ascii "11111") = .ok ([0#8] ++ [] ++ bytes [0, 0, 0, 0]) ∧
    (hash2 ([0#8] ++ [])).take 4 ≠ bytes [0, 0, 0, 0] ∧
    base58Decode (ascii "1Wh4bh") = .ok ([0#8] ++ [] ++ bytes [0x14, 0x06, 0xE0, 0x58]) ∧
    (hash2 ([0#8] ++ [])).take 4 = bytes [0x14, 0x06, 0xE0, 0x58] := by decide +kernel

/-- V-B16: what B58CHK_ENC returns for version 0 and the empty payload. -/
theorem test_resultOf_b58chkEnc_empty :
    resultOf (.b58chkEnc 0#8) (opState [] []) = .ok { out := ascii "1Wh4bh", aux := none, res0 := 0, res1 := 0 } := by
  decide +kernel

theorem witness_Base58CheckRoundTrip :
    Config.testVectors.wf = true ∧ (opState [] []).snapIn = some [] ∧
    CompletesWith (.b58chkEnc 0#8) (opState [] []) (ascii "1Wh4bh") none 0 0 ∧
    (opState (ascii "1Wh4bh") []).snapIn = some (ascii "1Wh4bh") ∧
    ([] : Bytes).length ≤ Config.testVectors.maxOut :=
  ⟨by decide, rfl, completesWith_of_result (by decide) test_resultOf_b58chkEnc_empty, rfl, by decide⟩

/-- Widths below, at and above the range, and both outcomes inside it (V-C2, V-C1). -/
theorem witness_ConvbitsOutcome :
    (opState [0xFF#8] []).cfg.wf = true ∧ (opState [0xFF#8] []).snapIn = some [0xFF#8] ∧
    ¬(1 ≤ 0 ∧ 0 ≤ 8 ∧ 1 ≤ 8 ∧ 8 ≤ 8) ∧ ¬(1 ≤ 8 ∧ 8 ≤ 8 ∧ 1 ≤ 9 ∧ 9 ≤ 8) ∧ (1 ≤ 1 ∧ 1 ≤ 8 ∧ 1 ≤ 8 ∧ 8 ≤ 8) ∧
    convertBits [0xFF#8] 8 5 false = .error .paddingError ∧ convertBits [0xFF#8] 8 5 true = .ok (bytes [0x1F, 0x1C]) ∧
    convertBits [0xA5#8] 8 1 false = .ok (bytes [1, 0, 1, 0, 0, 1, 0, 1]) := by decide +kernel

/-- Widths at both ends, values that fit, and values that do not (V-C15 to V-C17). -/
theorem witness_PaddedConversionKeepsTheBitStream :
    fitsBits 1 [1#8, 0#8] ∧ fitsBits 8 [0xFF#8] ∧ ¬fitsBits 5 (bytes [0x00, 0x20]) ∧
    convertBits (bytes [0x00, 0x20]) 5 8 true = .ok (bytes [0x08, 0x00]) ∧
    convertBits (bytes [0x01, 0x20]) 5 8 true = .ok (bytes [0x08, 0x00]) ∧
    convertBits (bytes [0x3F]) 5 8 true = .ok (bytes [0xF8]) := by
  unfold fitsBits; decide

/-- V-C3 and V-C2, and values that do not fit, accepted and rejected. -/
theorem witness_UnpaddedConversionAcceptance :
    fitsBits 8 [0#8] ∧ (∀ b ∈ (mergedStream 8 5 [] [0#8]).drop 5, b = false) ∧ fitsBits 8 [0xFF#8] ∧
    ¬(∀ b ∈ (mergedStream 8 5 [] [0xFF#8]).drop 5, b = false) ∧ ¬fitsBits 5 (bytes [0x00, 0x20]) ∧
    (∀ b ∈ (mergedStream 5 8 [] (bytes [0x00, 0x20])).drop 8, b = false) ∧
    ¬(∀ b ∈ (mergedStream 5 8 [] (bytes [0x00, 0x21])).drop 8, b = false) := by
  unfold fitsBits; decide

theorem witness_BytesToSymbolsRoundTrip :
    fitsBits 5 (bytes [0x1F, 0x1C]) ∧ convertBits (bytes [0x1F, 0x1C]) 5 8 false = .ok [0xFF#8] := by
  unfold fitsBits; decide +kernel

theorem witness_PolymodOutcome :
    (∃ b ∈ [0x20#8], 32 ≤ b.toNat) ∧ fitsBits 5 [0x1F#8] ∧ (opState [0x1F#8] []).snapIn = some [0x1F#8] := by
  unfold fitsBits; decide

theorem witness_PolyModStepIsLinear : (0x1F#8).toNat < 32 := by decide

/-- A result that fits the smallest OUT and one that does not. -/
theorem witness_CaExpandCompletes :
    smallCfg.wf = true ∧ (smallState [] []).snapAux = some [] ∧ (smallState [] [0x61#8]).snapAux = some [0x61#8] := by
  decide

theorem witness_CaCrchkOutcome :
    (∃ b ∈ [0x20#8], 32 ≤ b.toNat) ∧ fitsBits 5 [0x1F#8] ∧ (opState [0x1F#8] [0x61#8]).snapIn = some [0x1F#8] ∧
    (opState [0x1F#8] [0x61#8]).snapAux = some [0x61#8] := by
  unfold fitsBits; decide

theorem witness_CaVerifyOutcome :
    (∃ b ∈ [0xFF#8], 32 ≤ b.toNat) ∧ fitsBits 5 (symbolsS1 ++ checkS1) ∧
    (opState (symbolsS1 ++ checkS1) (ascii "bitcoincash")).snapAux = some (ascii "bitcoincash") := by
  unfold fitsBits; decide +kernel

theorem witness_CreatedChecksumVerifies : fitsBits 5 symbolsS1 := by unfold fitsBits; decide

/-- A rejected type, a rejected size of an accepted type, and the two ends of the size table. -/
theorem witness_CaPackOutcome :
    AddrType.p2pk ≠ .p2pkh ∧ AddrType.p2pk ≠ .p2sh ∧ (hashS1.take 19).length ∉ [20, 24, 28, 32, 40, 48, 56, 64] ∧
    (AddrType.p2pkh, 0) ∈ [(AddrType.p2pkh, 0), (.p2sh, 8)] ∧
    (hashS1.length, 0) ∈ [(20, 0), (24, 1), (28, 2), (32, 3), (40, 4), (48, 5), (56, 6), (64, 7)] ∧
    ((List.replicate 64 0#8).length, 7) ∈ [(20, 0), (24, 1), (28, 2), (32, 3), (40, 4), (48, 5), (56, 6), (64, 7)] ∧
    (opState hashS1 []).cfg.wf = true ∧ (opState hashS1 []).snapIn = some hashS1 := by decide

theorem witness_CaEncOutcome :
    (∃ b ∈ [0x20#8], 32 ≤ b.toNat) ∧ fitsBits 5 symbolsS1 ∧
    (opState symbolsS1 (ascii "bitcoincash")).snapIn = some symbolsS1 ∧
    (opState symbolsS1 (ascii "bitcoincash")).snapAux = some (ascii "bitcoincash") := by
  unfold fitsBits; decide +kernel

/-- The four malformed forms (no separator, an empty prefix, a digit, mixed case). -/
theorem witness_CaDecOutcome_malformed :
    (ascii "aq").count 0x3A#8 ≠ 1 ∧ (ascii ":q").head? = some 0x3A#8 ∧
    (ascii "a2:q" = ascii "a2" ++ 0x3A#8 :: ascii "q" ∧ ∃ b ∈ ascii "a2", isDigit b = true) ∧
    ((∃ b ∈ ascii "A:q", isLower b = true) ∧ ∃ b ∈ ascii "A:q", isUpper b = true) := by decide +kernel

/-- A well-formed string and, for each later clause, the part after its separator: a bad character, seven
values, eight that do not verify (V-A13 with its last symbol changed), eight that do (V-A13). -/
theorem witness_CaDecOutcome_wellFormed :
    ascii "a:3x3dxu9w" = ascii "a" ++ 0x3A#8 :: ascii "3x3dxu9w" ∧ ascii "a" ≠ [] ∧ 0x3A#8 ∉ ascii "a" ∧
    0x3A#8 ∉ ascii "3x3dxu9w" ∧ (∀ b ∈ ascii "a", isDigit b = false) ∧
    ¬((∃ b ∈ ascii "a:3x3dxu9w", isLower b = true) ∧ ∃ b ∈ ascii "a:3x3dxu9w", isUpper b = true) ∧
    (∃ c ∈ ascii "b", charsetValue c = none) ∧
    (ascii "qqqqqqq").map charsetValue = (bytes [0, 0, 0, 0, 0, 0, 0]).map some ∧
    (ascii "3x3dxu9w").map charsetValue = (bytes [0x11, 0x06, 0x11, 0x0D, 0x06, 0x1C, 0x05, 0x0E]).map some ∧
    polyMod (expandPrefix ((ascii "a").map lowerCase) ++ bytes [0x11, 0x06, 0x11, 0x0D, 0x06, 0x1C, 0x05, 0x0E]) = 0 ∧
    polyMod (expandPrefix ((ascii "a").map lowerCase) ++ bytes [0x11, 0x06, 0x11, 0x0D, 0x06, 0x1C, 0x05, 0x0F]) ≠ 0 := by
  decide +kernel

theorem witness_CaChkencOutcome :
    (opState hashS1 [0x61#8]).cfg.wf = true ∧ (opState hashS1 [0x61#8]).snapIn = some hashS1 ∧
    (opState hashS1 [0x61#8]).snapAux = some [0x61#8] ∧ AddrType.unknown ≠ .p2pkh ∧ AddrType.unknown ≠ .p2sh ∧
    (hashS1.take 19).length ∉ [20, 24, 28, 32, 40, 48, 56, 64] ∧ hashS1.length ∈ [20, 24, 28, 32, 40, 48, 56, 64] := by
  decide

/-- Each clause: a malformed string, a padding error (V-A25), a payload that is not 21 bytes (V-A13, empty),
and V-S1. -/
theorem witness_CaChkdecOutcome :
    cashAddrDecode (ascii "aq") = .error .malformedAddressString ∧
    (∃ vals, cashAddrDecode (ascii "bitcoincash:qpha88vmhd36l69d8s8vnp9uzqdqkk5g6eq24gf287") = .ok (ascii "bitcoincash", vals) ∧
      convertBits vals 5 8 false = .error .paddingError) ∧
    (cashAddrDecode (ascii "a:3x3dxu9w") = .ok (ascii "a", []) ∧ convertBits [] 5 8 false = .ok []) ∧
    (cashAddrDecode addressS1 = .ok (ascii "bitcoincash", symbolsS1) ∧
      convertBits symbolsS1 5 8 false = .ok (0x00#8 :: hashS1)) ∧ hashS1.length = 20 := by
  refine ⟨by decide +kernel, ⟨symbolsS1.dropLast ++ [0x19#8], by decide +kernel, by decide +kernel⟩,
    by decide +kernel, by decide +kernel, by decide⟩

/-- A 20-byte hash, whose 8 * 21 bits make 34 symbols, and the longest one. -/
theorem witness_CashAddrRoundTrip :
    Config.testVectors.wf = true ∧ hashS1.length ∈ [20, 24, 28, 32, 40, 48, 56, 64] ∧
    (List.replicate 64 0#8).length ∈ [20, 24, 28, 32, 40, 48, 56, 64] ∧ plainLowerPrefix (ascii "bitcoincash") ∧
    (opState hashS1 (ascii "bitcoincash")).snapAux = some (ascii "bitcoincash") ∧
    (ascii "bitcoincash").length + 1 + (8 * (64 + 1) + 4) / 5 + 8 ≤ Config.testVectors.maxOut := by
  unfold plainLowerPrefix; decide +kernel

/-- The two ends of R5's range. -/
theorem witness_ResetStateMeetsTheInvariant :
    smallCfg.wf = true ∧ ({ base := 0, maxIn := 4096, maxAux := 4096, maxOut := 4096 } : Config).wf = true ∧
    ({ base := 0, maxIn := 4097, maxAux := 1, maxOut := 0 } : Config).wf = false := by decide

/-- A BUSY state that meets the invariant, and its next step, a completion. -/
theorem witness_EveryStepKeepsTheInvariant :
    (busyState 0x20#32).Inv ∧ ∃ t, step (busyState 0x20#32) = .next t ∧ t.done = true := by
  refine ⟨⟨by decide, rfl, rfl, rfl, by decide, ?_, by decide, ?_, ?_, ?_, ?_⟩, _, rfl, rfl⟩
  · intro k hk; exact absurd hk (Nat.not_lt_zero k)
  · intro _; decide
  · intro h; exact absurd rfl h
  · intro bs h; cases h; decide
  · intro bs h; cases h; decide

end Sys2Proof.Tests
end

section
/-! PROOFS. The register and buffer words of the host's window, the reset state, and the statements about
them (spec/10_state.md R22 to R32, R41, R42). -/

namespace Sys2Proof.Machine

/-! ## The words of the window -/

/-- The aligned offset `off` of the window names the word `w` (spec/20_memory.md R51, R52). -/
def WordAt (c : Config) (off : Nat) (w : WindowWord) : Prop :=
  off < 0x10000 ∧ off % 4 = 0 ∧ windowWord c off = w

theorem WordAt.register {c : Config} {off : Nat} (ho : off < 0x4000) (h4 : off % 4 = 0) :
    WordAt c off (registerAt off) :=
  ⟨by omega, h4, if_pos ho⟩

theorem bufferWord_of_lt {c : Config} {b : Buf} {i : Nat} (h : i < capacity c b) : bufferWord c b i = .bufByte b i :=
  if_pos h

theorem bufferWord_of_ge {c : Config} {b : Buf} {i : Nat} (h : capacity c b ≤ i) : bufferWord c b i = .reserved :=
  if_neg (Nat.not_lt.mpr h)

/-- Every buffer word is at its offset, since no capacity is above 4096 (spec/00_scope.md R5). -/
theorem WordAt.bufByte {c : Config} {b : Buf} {i : Nat} (hc : c.wf = true) (hi : i < capacity c b) :
    WordAt c (bufferOffset b i) (.bufByte b i) :=
  bufferWord_of_lt hi ▸ windowWord_bufferOffset c b (hi.trans_le (capacity_le b hc))

/-- No register stands from 0x030 up (spec/10_state.md R32). -/
theorem registerAt_of_ge {off : Nat} (h : 0x030 ≤ off) : registerAt off = .reserved := by
  unfold registerAt
  split
  case h_13 => rfl
  all_goals omega

/-- The reserved words: registers from 0x030 up and buffer words at or above a capacity (spec/10_state.md R32,
spec/20_memory.md R51). -/
theorem WordAt.reserved {c : Config} {off : Nat}
    (h : (0x030 ≤ off ∧ off ≤ 0x3FFC ∧ off % 4 = 0) ∨
      ∃ b i, capacity c b ≤ i ∧ i < 4096 ∧ off = bufferOffset b i) : WordAt c off .reserved := by
  obtain ⟨hlo, hhi, h4⟩ | ⟨b, i, hcap, hi, rfl⟩ := h
  · exact registerAt_of_ge hlo ▸ WordAt.register (by omega) h4
  · exact bufferWord_of_ge hcap ▸ windowWord_bufferOffset c b hi

/-- The host's write acts on the word its offset names. -/
theorem step_write_word {s : State} {off : Nat} {v : Word} {w : WindowWord} {rest : List HostOp} (hm : HostMoves s)
    (hh : s.host = .write (s.cfg.base + off) 4 v :: rest) (hw : WordAt s.cfg off w) :
    step s = .next (writeWord w v s.issued) := by
  obtain ⟨ho, h4, rfl⟩ := hw
  exact step_write hm hh ho h4

/-- The host's read of a word that draws no free value loads its register and changes nothing of the block
(spec/20_memory.md R55). -/
theorem step_read_word {s : State} {off dst : Nat} {v : Word} {w : WindowWord} {rest : List HostOp}
    (hm : HostMoves s) (hh : s.host = .read (s.cfg.base + off) 4 dst :: rest) (hw : WordAt s.cfg off w)
    (hr : readWord w s.issued = (v, s.issued)) :
    step s = .next { s.issued with hostRegs := tableSet s.hostRegs dst v } := by
  obtain ⟨ho, h4, rfl⟩ := hw
  rw [step_read hm hh ho h4, hr]

/-! ## Writes -/

theorem unlessBusy_of_idle {s : State} (k : State) (h : s.phase = .idle) : unlessBusy s k = k := by
  simp [unlessBusy, h]

/-- The low `n` bits of a word, as its value modulo `m = 2 ^ n`. -/
theorem extractLsb'_zero_eq_ofNat_mod {n m : Nat} (hm : m = 2 ^ n) (v : Word) :
    v.extractLsb' 0 n = BitVec.ofNat n (v.toNat % m) := by
  apply BitVec.eq_of_toNat_eq
  simp [hm]

/-- A length register keeps bits 15:0 (spec/10_state.md R27). -/
theorem writeWord_inLen_of_idle {s : State} (v : Word) (h : s.phase = .idle) :
    writeWord .inLen v s = { s with inLen := BitVec.ofNat 16 (v.toNat % 65536) } := by
  rw [← extractLsb'_zero_eq_ofNat_mod (n := 16) (m := 65536) rfl v]
  exact unlessBusy_of_idle _ h

/-- A length register keeps bits 15:0 (spec/10_state.md R28). -/
theorem writeWord_auxLen_of_idle {s : State} (v : Word) (h : s.phase = .idle) :
    writeWord .auxLen v s = { s with auxLen := BitVec.ofNat 16 (v.toNat % 65536) } := by
  rw [← extractLsb'_zero_eq_ofNat_mod (n := 16) (m := 65536) rfl v]
  exact unlessBusy_of_idle _ h

/-- An IN word stores bits 7:0 (spec/20_memory.md R53). -/
theorem writeWord_inp_of_idle {s : State} (i : Nat) (v : Word) (h : s.phase = .idle) :
    writeWord (.bufByte .inp i) v s = { s with inBuf := s.inBuf.write i (BitVec.ofNat 8 (v.toNat % 256)) } := by
  rw [← extractLsb'_zero_eq_ofNat_mod (n := 8) (m := 256) rfl v]
  exact unlessBusy_of_idle _ h

/-- An AUX word stores bits 7:0 (spec/20_memory.md R53). -/
theorem writeWord_aux_of_idle {s : State} (i : Nat) (v : Word) (h : s.phase = .idle) :
    writeWord (.bufByte .aux i) v s = { s with auxBuf := s.auxBuf.write i (BitVec.ofNat 8 (v.toNat % 256)) } := by
  rw [← extractLsb'_zero_eq_ofNat_mod (n := 8) (m := 256) rfl v]
  exact unlessBusy_of_idle _ h

/-- An OUT word ignores writes (spec/20_memory.md R53). -/
theorem writeWord_out_of_idle {s : State} (i : Nat) (v : Word) (h : s.phase = .idle) :
    writeWord (.bufByte .out i) v s = s :=
  unlessBusy_of_idle s h

/-- The W1C bits clear their flags, and a bit that is 0 leaves its flag (spec/10_state.md R25). -/
theorem clearStatus_eq (v : Word) (s : State) :
    clearStatus v s = { s with
      done := if v.getLsbD 1 then false else s.done
      ovr := if v.getLsbD 3 then false else s.ovr } := by
  unfold clearStatus
  cases v.getLsbD 1 <;> cases v.getLsbD 3 <;> simp

/-- With SRST = 0 a CTRL write only sets IE (spec/10_state.md R23). -/
theorem writeCtrl_of_srst_clear {v : Word} (s : State) (h : v.getLsbD 1 = false) :
    writeCtrl v s = { s with ie := v.getLsbD 0 } := by
  rw [writeCtrl, h]
  rfl

theorem readOnlyRegister_offset :
    ∀ off ∈ [0x000, 0x018, 0x01C, 0x020, 0x024, 0x028, 0x02C], off < 0x4000 ∧ off % 4 = 0 := by decide

/-- The registers that no write while IDLE changes: ID, the results and the capacities (spec/10_state.md R22,
R29 to R31). -/
theorem writeWord_readOnlyRegister {s : State} {off : Nat} (v : Word) (h : s.phase = .idle)
    (hoff : off ∈ [0x000, 0x018, 0x01C, 0x020, 0x024, 0x028, 0x02C]) : writeWord (registerAt off) v s = s := by
  have hresult : unlessBusy s s = s := unlessBusy_of_idle s h
  simp only [List.mem_cons, List.not_mem_nil, or_false] at hoff
  obtain rfl | rfl | rfl | rfl | rfl | rfl | rfl := hoff
  exacts [rfl, hresult, hresult, hresult, rfl, rfl, rfl]

/-! ## Reads -/

/-- The four flags of STATUS are its bits 0 to 3 (spec/10_state.md R25). -/
theorem toNat_flagBits (busy done err ovr : Bool) :
    (flagBit 0 busy ||| flagBit 1 done ||| flagBit 2 err ||| flagBit 3 ovr).toNat =
      busy.toNat + 2 * done.toNat + 4 * err.toNat + 8 * ovr.toNat := by
  revert busy done err ovr
  decide

/-- The byte at bits 15:8 and the value below it do not overlap, so OR is addition. -/
theorem or_setWidth_shiftLeft_eight {f : Word} (e : Byte) (hf : f.toNat < 2 ^ 8) :
    f ||| e.setWidth 32 <<< 8 = BitVec.ofNat 32 (f.toNat + 256 * e.toNat) := by
  have he : e.toNat < 2 ^ 8 := e.isLt
  have hor : e.toNat <<< 8 + f.toNat = e.toNat <<< 8 ||| f.toNat := Nat.shiftLeft_add_eq_or_of_lt hf _
  rw [Nat.shiftLeft_eq] at hor
  apply BitVec.eq_of_toNat_eq
  rw [BitVec.toNat_or, BitVec.toNat_shiftLeft, BitVec.toNat_setWidth, BitVec.toNat_ofNat, Nat.shiftLeft_eq,
    Nat.mod_eq_of_lt (a := e.toNat) (by omega), Nat.mod_eq_of_lt (a := e.toNat * _) (by omega), Nat.or_comm, ← hor]
  omega

theorem busy_iff (s : State) : s.busy = true ↔ s.phase = .busy := beq_iff_eq

theorem err_iff (s : State) : s.err = true ↔ s.ecode ≠ 0 := bne_iff_ne

theorem ite_zero_eq_mul_toNat (n : Nat) (b : Bool) : (if b then n else 0) = n * b.toNat := by
  cases b <;> simp

/-- What STATUS reads as, field by field (spec/10_state.md R25). -/
theorem statusWord_eq_statusValue (s : State) : statusWord s = statusValue s := by
  have hflags := toNat_flagBits s.busy s.done s.err s.ovr
  have hlt : s.busy.toNat + 2 * s.done.toNat + 4 * s.err.toNat + 8 * s.ovr.toNat < 2 ^ 8 := by
    have hb := s.busy.toNat_lt
    have hd := s.done.toNat_lt
    have he := s.err.toNat_lt
    have ho := s.ovr.toNat_lt
    omega
  rw [statusWord, or_setWidth_shiftLeft_eight s.ecode (hflags ▸ hlt), hflags]
  simp only [statusValue, ← busy_iff, ← err_iff, ite_zero_eq_mul_toNat, Nat.one_mul]

/-- The registers of the block in state `s`: each one's offset, and what a read of it returns (spec/10_state.md
R22 to R31). -/
def registerTable (s : State) : List (Nat × Word) :=
  [(0x000, 0x42353843#32), (0x004, if s.ie then 1#32 else 0#32), (0x008, statusValue s), (0x00C, 0#32),
    (0x010, BitVec.ofNat 32 s.inLen.toNat), (0x014, BitVec.ofNat 32 s.auxLen.toNat),
    (0x018, BitVec.ofNat 32 s.outLen.toNat), (0x01C, s.res0), (0x020, s.res1),
    (0x024, BitVec.ofNat 32 s.cfg.maxIn), (0x028, BitVec.ofNat 32 s.cfg.maxAux),
    (0x02C, BitVec.ofNat 32 s.cfg.maxOut)]

/-- CTRL reads as IE alone (spec/10_state.md R24). -/
theorem ctrlWord_eq (s : State) : ctrlWord s = if s.ie then 1#32 else 0#32 := by
  unfold ctrlWord
  cases s.ie <;> rfl

theorem registerTable_offset {s : State} {p : Nat × Word} (h : p ∈ registerTable s) :
    p.1 < 0x4000 ∧ p.1 % 4 = 0 := by
  have hall : ∀ off ∈ (registerTable s).map Prod.fst, off < 0x4000 ∧ off % 4 = 0 := by
    simp [registerTable]
  exact hall p.1 (List.mem_map_of_mem h)

/-- A read of a register returns its value in the table and changes nothing. -/
theorem readWord_registerAt {s : State} {off : Nat} {v : Word} (h : (off, v) ∈ registerTable s) :
    readWord (registerAt off) s = (v, s) := by
  have hlength (x : BitVec 16) : (x.setWidth 32, s) = (BitVec.ofNat 32 x.toNat, s) := by rw [BitVec.ofNat_toNat]
  simp only [registerTable, List.mem_cons, Prod.mk.injEq, List.not_mem_nil, or_false] at h
  obtain ⟨rfl, rfl⟩ | ⟨rfl, rfl⟩ | ⟨rfl, rfl⟩ | ⟨rfl, rfl⟩ | ⟨rfl, rfl⟩ | ⟨rfl, rfl⟩ | ⟨rfl, rfl⟩ | ⟨rfl, rfl⟩ |
    ⟨rfl, rfl⟩ | ⟨rfl, rfl⟩ | ⟨rfl, rfl⟩ | ⟨rfl, rfl⟩ := h
  exacts [rfl, congrArg (·, s) (ctrlWord_eq s), congrArg (·, s) (statusWord_eq_statusValue s), rfl,
    hlength s.inLen, hlength s.auxLen, hlength s.outLen, rfl, rfl, rfl, rfl, rfl]

/-! ## The reset state -/

/-- Nothing is set and no buffer byte holds a value after reset (spec/10_state.md R41, R42). -/
theorem resetValues_resetOf (c : Config) : resetValues (State.resetOf c) := by
  refine ⟨rfl, rfl, rfl, rfl, rfl, rfl, rfl, rfl, rfl, rfl, rfl, rfl, rfl, fun b k => ?_⟩
  cases b <;> rfl

/-- STATUS reads 0 after reset (spec/10_state.md R42). -/
theorem statusWord_resetOf (c : Config) : statusWord (State.resetOf c) = 0 := by
  rw [statusWord_eq_statusValue]
  rfl

/-- Success is a legal code (spec/60_exceptions.md R201). -/
theorem zero_mem_legalCodes : (0 : Byte) ∈ legalCodes := by decide

theorem busyInv_of_idle {s : State} (h : s.phase = .idle) : s.busyInv := by
  intro hb
  rw [h] at hb
  cases hb

theorem errorInv_of_success {s : State} (h : s.ecode = 0) : s.errorInv := fun hne => absurd h hne

theorem snapshotFits_none (cap : Nat) : snapshotFits none cap := by
  intro bs h
  cases h

/-- The reset state of legal parameters meets the invariant: every buffer is empty and OUT_LEN is 0. -/
theorem inv_resetOf {c : Config} (hc : c.wf = true) : (State.resetOf c).Inv :=
  ⟨hc, rfl, rfl, rfl, Nat.zero_le _, fun k hk => absurd hk (Nat.not_lt_zero k), zero_mem_legalCodes,
    busyInv_of_idle rfl, errorInv_of_success rfl, snapshotFits_none _, snapshotFits_none _⟩

/-! ## The statements -/

/-- Settles O16: each of the two words is at its offset, and its write acts on the named bits. -/
theorem controlWritesActOnTheirBitsOnly : Obligations.ControlWritesActOnTheirBitsOnly := by
  intro s v rest hm
  refine ⟨fun hh => ?_, fun hh hsrst => ?_⟩
  · rw [step_write_word hm hh (WordAt.register (by decide) rfl)]
    exact congrArg _ (clearStatus_eq v s.issued)
  · rw [step_write_word hm hh (WordAt.register (by decide) rfl)]
    exact congrArg _ (writeCtrl_of_srst_clear s.issued hsrst)

/-- Settles O22, from the reset values and the constants' reads. -/
theorem resetStateHasTheResetValues : Obligations.ResetStateHasTheResetValues :=
  ⟨fun c => ⟨resetValues_resetOf c, statusWord_resetOf c, rfl, rfl, rfl, rfl, rfl⟩,
    Config.testVectors, rfl, by decide⟩

/-- Settles O58, by the invariant's clauses on empty buffers. -/
theorem resetStateMeetsTheInvariant : Obligations.ResetStateMeetsTheInvariant := fun _ => inv_resetOf

/-- Settles O14: both accesses meet a reserved word, in either phase. -/
theorem reservedWordReadsZeroAndIgnoresWrites : Obligations.ReservedWordReadsZeroAndIgnoresWrites := by
  intro s off dst v rest _ hm hoff
  have hw : WordAt s.cfg off .reserved := WordAt.reserved hoff
  exact ⟨fun hh => step_read_word hm hh hw rfl, fun hh => step_write_word hm hh hw⟩

/-- Settles O12: the register's row of the table is what its word reads as. -/
theorem registerReadReturnsItsFields : Obligations.RegisterReadReturnsItsFields := by
  intro s off dst v rest hm hh hv
  obtain ⟨ho, h4⟩ := registerTable_offset hv
  exact step_read_word hm hh (WordAt.register ho h4) (readWord_registerAt (s := s.issued) hv)

/-- Settles O11: while IDLE a length register keeps 16 bits, a buffer word stores 8 at its index, and the
read-only words ignore the write. -/
theorem writeWhileIdleStores : Obligations.WriteWhileIdleStores := by
  intro s off v rest hc hm hidle hh
  have hword : ∀ w, WordAt s.cfg off w → step s = .next (writeWord w v s.issued) := fun w hw =>
    step_write_word hm hh hw
  have hphase : s.issued.phase = .idle := hidle
  refine ⟨?inLen, ?auxLen, ?readOnly, ?out, ?inp, ?aux⟩
  case inLen =>
    rintro rfl
    rw [hword .inLen (WordAt.register (by decide) rfl), writeWord_inLen_of_idle v hphase]
  case auxLen =>
    rintro rfl
    rw [hword .auxLen (WordAt.register (by decide) rfl), writeWord_auxLen_of_idle v hphase]
  case readOnly =>
    intro hoff
    obtain ⟨ho, h4⟩ := readOnlyRegister_offset off hoff
    rw [hword _ (WordAt.register ho h4), writeWord_readOnlyRegister v hphase hoff]
  case out =>
    rintro i hi rfl
    rw [hword _ (WordAt.bufByte hc hi), writeWord_out_of_idle i v hphase]
  case inp =>
    rintro i hi rfl
    refine ⟨s.inBuf.write i (BitVec.ofNat 8 (v.toNat % 256)), ?_, fun k => Memory.read_write _ _ _ _⟩
    rw [hword _ (WordAt.bufByte hc hi), writeWord_inp_of_idle i v hphase, issued_inBuf]
  case aux =>
    rintro i hi rfl
    refine ⟨s.auxBuf.write i (BitVec.ofNat 8 (v.toNat % 256)), ?_, fun k => Memory.read_write _ _ _ _⟩
    rw [hword _ (WordAt.bufByte hc hi), writeWord_aux_of_idle i v hphase, issued_auxBuf]

end Sys2Proof.Machine
end

section
/-! PROOFS. The codes each command can raise (spec/60_exceptions.md R201). -/

namespace Sys2Proof.Machine

/-! ## Raising only given codes -/

/-- If the computation ends in an error, its code is one of `codes`. -/
def RaisesOnly {α : Type} (codes : List Byte) (r : Except ErrorCode α) : Prop :=
  ∀ e, r = .error e → e.code ∈ codes

namespace RaisesOnly

variable {α : Type} {codes : List Byte}

theorem ok (a : α) : RaisesOnly codes (.ok a) := fun _ h => nomatch h

theorem error {e : ErrorCode} (h : e.code ∈ codes) : RaisesOnly codes (.error e : Except ErrorCode α) := by
  rintro _ ⟨⟩
  exact h

theorem mono {codes' : List Byte} {r : Except ErrorCode α} (h : RaisesOnly codes r) (hsub : codes ⊆ codes') :
    RaisesOnly codes' r := fun e he => hsub (h e he)

/-- An error passed on from `r` under another type. -/
theorem error_of_eq {codes' : List Byte} {β : Type} {r : Except ErrorCode β} {e : ErrorCode}
    (h : RaisesOnly codes' r) (he : r = .error e) (hsub : codes' ⊆ codes) :
    RaisesOnly codes (.error e : Except ErrorCode α) := error (hsub (h e he))

theorem readOperand {snap : Option Bytes} {k : Bytes → Result} (hcap : ErrorCode.code .capacityExceeded ∈ codes)
    (h : ∀ bs, RaisesOnly codes (k bs)) : RaisesOnly codes (readOperand snap k) := by
  cases snap with
  | none => exact error hcap
  | some bs => exact h bs

theorem requireSymbols {vals : Bytes} {k : Result} (hpar : ErrorCode.code .parameterError ∈ codes)
    (h : RaisesOnly codes k) : RaisesOnly codes (requireSymbols vals k) := by
  unfold Machine.requireSymbols
  split
  · exact error hpar
  · exact h

theorem orRaise {r : Except ErrorCode α} {k : α → Result} (hr : RaisesOnly codes r)
    (h : ∀ a, RaisesOnly codes (k a)) : RaisesOnly codes (orRaise r k) := by
  cases r with
  | error e => exact error (hr e rfl)
  | ok a => exact h a

theorem finish {c : Config} {out : Bytes} {aux : Option Bytes} {r0 r1 : Word}
    (hcap : ErrorCode.code .capacityExceeded ∈ codes) : RaisesOnly codes (finish c out aux r0 r1) := by
  unfold Machine.finish
  split_ifs
  · exact error hcap
  · exact error hcap
  · exact ok _

end RaisesOnly

/-! ## The operations -/

theorem base58Accumulate_raisesOnly (n : Nat) (t : Bytes) : RaisesOnly [0x01#8] (base58Accumulate n t) := by
  induction t generalizing n with
  | nil => exact .ok n
  | cons c t ih =>
    unfold base58Accumulate
    split
    · exact ih _
    · exact .error (by decide)

theorem base58Decode_raisesOnly (t : Bytes) : RaisesOnly [0x01#8] (base58Decode t) := by
  unfold base58Decode
  split
  case h_1 => exact .ok _
  case h_2 e he => exact (base58Accumulate_raisesOnly 0 t).error_of_eq he (by simp)

theorem base58checkDecode_raisesOnly (t : Bytes) :
    RaisesOnly [0x01#8, 0x02#8, 0x03#8] (base58checkDecode t) := by
  unfold base58checkDecode
  split
  case h_1 e he => exact (base58Decode_raisesOnly t).error_of_eq he (by simp)
  case h_2 =>
    dsimp only
    split_ifs
    · exact .error (by decide)
    · exact .error (by decide)
    · exact .ok _

/-- Only the conversion without padding has an error (spec/41_bitpack.md R134, R136). -/
theorem convertBits_raisesOnly (data : Bytes) (f t : Nat) (pad : Bool) :
    RaisesOnly (if pad then [] else [0x04#8]) (convertBits data f t pad) := by
  cases pad
  case true =>
    simp only [convertBits, if_true]
    split_ifs
    · exact .ok _
    · exact .ok _
  case false =>
    simp only [convertBits, Bool.false_eq_true, if_false]
    split_ifs
    · exact .error (by decide)
    · exact .error (by decide)
    · exact .ok _

theorem packVersion_raisesOnly (a : AddrType) (n : Nat) : RaisesOnly [0x06#8, 0x07#8] (packVersion a n) := by
  unfold packVersion
  split
  · exact .error (by decide)
  · split
    · exact .error (by decide)
    · exact .ok _

theorem packAddressData_raisesOnly (a : AddrType) (hash : Bytes) :
    RaisesOnly [0x06#8, 0x07#8] (packAddressData a hash) := by
  unfold packAddressData
  split
  case h_1 e he => exact (packVersion_raisesOnly a hash.length).error_of_eq he (by simp)
  case h_2 ver _ =>
    split
    case h_1 e he => exact (convertBits_raisesOnly (ver :: hash) 8 5 true).error_of_eq he (by simp)
    case h_2 => exact .ok _

theorem charsetValues_raisesOnly (cs : Bytes) : RaisesOnly [0x01#8] (charsetValues cs) := by
  induction cs with
  | nil => exact .ok _
  | cons c cs ih =>
    unfold charsetValues
    split
    · exact .error (by decide)
    · split
      case h_1 e he => exact ih.error_of_eq he (by simp)
      case h_2 => exact .ok _

theorem cashAddrDecode_raisesOnly (str : Bytes) : RaisesOnly [0x01#8, 0x05#8, 0x09#8] (cashAddrDecode str) := by
  unfold cashAddrDecode
  split
  · exact .error (by decide)
  · dsimp only
    split
    case h_1 e he => exact (charsetValues_raisesOnly _).error_of_eq he (by simp)
    case h_2 =>
      split_ifs
      · exact .error (by decide)
      · exact .ok _
      · exact .error (by decide)

theorem checkEncodeCashAddress_raisesOnly (a : AddrType) (hash pfx : Bytes) :
    RaisesOnly [0x06#8, 0x07#8] (checkEncodeCashAddress a hash pfx) := by
  unfold checkEncodeCashAddress
  split
  case h_1 e he => exact (packAddressData_raisesOnly a hash).error_of_eq he (by simp)
  case h_2 => exact .ok _

theorem checkDecodeCashAddress_raisesOnly (str : Bytes) :
    RaisesOnly [0x01#8, 0x04#8, 0x05#8, 0x08#8, 0x09#8] (checkDecodeCashAddress str) := by
  unfold checkDecodeCashAddress
  split
  case h_1 e he => exact (cashAddrDecode_raisesOnly str).error_of_eq he (by simp)
  case h_2 r _ =>
    split
    case h_1 e he => exact (convertBits_raisesOnly r.2 5 8 false).error_of_eq he (by simp)
    case h_2 =>
      split
      · exact .error (by decide)
      · exact .ok _

/-! ## The commands -/

/-- Every command checks its operands and its output (spec/60_exceptions.md R204, R206). -/
theorem capacityExceeded_mem_raisedBy (i : Instr) : ErrorCode.code .capacityExceeded ∈ raisedBy i := by
  cases i
  case convbits f t pad => cases pad <;> simp [raisedBy, ErrorCode.code]
  all_goals simp [raisedBy, ErrorCode.code]

theorem resultConvbits_raisesOnly (f t : Nat) (pad : Bool) (s : State) :
    RaisesOnly (raisedBy (.convbits f t pad)) (resultConvbits f t pad s) := by
  have hcap := capacityExceeded_mem_raisedBy (.convbits f t pad)
  have hpar : ErrorCode.code .parameterError ∈ raisedBy (.convbits f t pad) := by
    cases pad <;> simp [raisedBy, ErrorCode.code]
  have hconv (data : Bytes) : RaisesOnly (raisedBy (.convbits f t pad)) (convertBits data f t pad) :=
    (convertBits_raisesOnly data f t pad).mono (by cases pad <;> simp [raisedBy])
  refine .readOperand hcap fun data => ?_
  split
  · exact .orRaise (hconv data) fun _ => .finish hcap
  · exact .error hpar

/-- A command's error is one that the "raised by" column of R201 gives it. -/
theorem resultOf_raisesOnly (i : Instr) (s : State) : RaisesOnly (raisedBy i) (resultOf i s) := by
  have hcap := capacityExceeded_mem_raisedBy i
  cases i
  case convbits f t pad => exact resultConvbits_raisesOnly f t pad s
  case b58Enc | b58chkEnc | caExpand => exact .readOperand hcap fun _ => .finish hcap
  case polymod => exact .readOperand hcap fun _ => .requireSymbols (by decide) (.finish hcap)
  case caCrchk | caVerify | caEnc =>
    exact .readOperand hcap fun _ => .readOperand hcap fun _ => .requireSymbols (by decide) (.finish hcap)
  case b58Dec =>
    exact .readOperand hcap fun t =>
      .orRaise ((base58Decode_raisesOnly t).mono (by simp [raisedBy])) fun _ => .finish hcap
  case b58chkDec =>
    exact .readOperand hcap fun t =>
      .orRaise ((base58checkDecode_raisesOnly t).mono (by simp [raisedBy])) fun _ => .finish hcap
  case caPack a =>
    exact .readOperand hcap fun hash =>
      .orRaise ((packAddressData_raisesOnly a hash).mono (by simp [raisedBy])) fun _ => .finish hcap
  case caDec =>
    exact .readOperand hcap fun str =>
      .orRaise ((cashAddrDecode_raisesOnly str).mono (by simp [raisedBy])) fun _ => .finish hcap
  case caChkenc a =>
    exact .readOperand hcap fun hash => .readOperand hcap fun pfx =>
      .orRaise ((checkEncodeCashAddress_raisesOnly a hash pfx).mono (by simp [raisedBy])) fun _ => .finish hcap
  case caChkdec =>
    exact .readOperand hcap fun str =>
      .orRaise ((checkDecodeCashAddress_raisesOnly str).mono (by simp [raisedBy])) fun _ => .finish hcap

/-- Every code of the "raised by" column is a legal one. -/
theorem raisedBy_subset_legalCodes (i : Instr) : raisedBy i ⊆ legalCodes := by
  cases i
  case convbits f t pad => cases pad <;> simp [raisedBy, legalCodes]
  all_goals simp [raisedBy, legalCodes]

/-- A command never ends with one of the reserved errors 0x0A and 0x0B (spec/60_exceptions.md R201). -/
theorem resultOf_error_code_mem {i : Instr} {s : State} {e : ErrorCode} (h : resultOf i s = .error e) :
    e.code ∈ legalCodes :=
  (resultOf_raisesOnly i s).mono (raisedBy_subset_legalCodes i) e h

end Sys2Proof.Machine
end

section
/-! PROOFS. What a completion writes and what it leaves: the frames of the commands (spec/20_memory.md R58,
spec/10_state.md R41). -/

namespace Sys2Proof.Machine

/-! ## The frame of a completion -/

theorem sameOutsideResults_completeOk (c : Completed) (s : State) : sameOutsideResults s (completeOk c s) := by
  simp [sameOutsideResults]

theorem sameOutsideResults_completeErr (e : ErrorCode) (s : State) : sameOutsideResults s (completeErr e s) := by
  simp [sameOutsideResults]

theorem sameOutsideResults_exec {i : Instr} {s t : State} (h : exec i s = .next t) : sameOutsideResults s t := by
  obtain ⟨c, -, rfl⟩ | ⟨e, -, rfl⟩ := exec_next h
  · exact sameOutsideResults_completeOk c s
  · exact sameOutsideResults_completeErr e s

/-- OUT_LEN after a result that fits: the 16 bits hold its length. -/
theorem completeOk_outLen_toNat {c : Completed} {s : State} (hc : s.cfg.wf = true)
    (ho : c.out.length ≤ s.cfg.maxOut) : (completeOk c s).outLen.toNat = c.out.length := by
  obtain ⟨-, -, -, -, -, -, hO⟩ := Config_wf_bounds hc
  rw [completeOk_outLen, toNat_ofNat_of_le_cap ho hO]

theorem outBelowLength_completeOk {c : Completed} {s : State} (hc : s.cfg.wf = true)
    (ho : c.out.length ≤ s.cfg.maxOut) : outBelowLength (completeOk c s) := by
  intro k
  rw [completeOk_outLen_toNat hc ho, completeOk_outBuf, Memory.read_ofBytes, isSome_getElem?]

theorem outBelowLength_completeErr (e : ErrorCode) (s : State) : outBelowLength (completeErr e s) := by
  intro k
  simp

theorem outBelowLength_exec {i : Instr} {s t : State} (hc : s.cfg.wf = true) (h : exec i s = .next t) :
    outBelowLength t := by
  obtain ⟨c, hr, rfl⟩ | ⟨e, -, rfl⟩ := exec_next h
  · obtain ⟨ho, -, -⟩ := resultOf_ok hr
    exact outBelowLength_completeOk hc ho
  · exact outBelowLength_completeErr e s

/-- What a completion returns to AUX stands below the new AUX_LEN; no byte from there up changes. -/
theorem writeAux_read_of_ge {p : Option Bytes} {s : State} {k : Nat} (hc : s.cfg.wf = true)
    (ha : (p.getD []).length ≤ s.cfg.maxAux) (hk : (writeAux p s).auxLen.toNat ≤ k) :
    (writeAux p s).auxBuf.read k = s.auxBuf.read k := by
  cases p with
  | none => rfl
  | some bs =>
    obtain ⟨-, -, -, -, hA, -, -⟩ := Config_wf_bounds hc
    have hlen : (writeAux (some bs) s).auxLen.toNat = bs.length := toNat_ofNat_of_le_cap ha hA
    rw [hlen] at hk
    rw [writeAux_some_auxBuf, Memory.read_writeBytes, if_neg (by omega)]

theorem writesAux_eq_false {i : Instr} (hdec : i ≠ .caDec) (hchk : i ≠ .caChkdec) : writesAux i = false := by
  simp [writesAux, hdec, hchk]

/-! ## The statements -/

/-- Settles O29: a success of these commands returns nothing to AUX, and an error writes nothing there. -/
theorem frameOfCommandsThatKeepAux : Obligations.FrameOfCommandsThatKeepAux := by
  intro i s t hdec hchk hc h
  refine ⟨sameOutsideResults_exec h, ?_⟩
  have hout : outBelowLength t := outBelowLength_exec hc h
  obtain ⟨c, hr, rfl⟩ | ⟨e, -, rfl⟩ := exec_next h
  · obtain ⟨-, -, hnone⟩ := resultOf_ok hr
    have haux : c.aux = none := hnone (writesAux_eq_false hdec hchk)
    exact ⟨by simp [haux], by simp [haux], hout⟩
  · exact ⟨rfl, fun _ => rfl, hout⟩

/-- Settles O30: the code tells the two completions apart, and only a success writes AUX. -/
theorem frameOfCommandsThatReturnAPrefix : Obligations.FrameOfCommandsThatReturnAPrefix := by
  intro i s t _ hc h
  refine ⟨sameOutsideResults_exec h, outBelowLength_exec hc h, ?_⟩
  obtain ⟨c, hr, rfl⟩ | ⟨e, -, rfl⟩ := exec_next h
  · obtain ⟨-, ha, -⟩ := resultOf_ok hr
    refine ⟨fun hne => absurd (completeOk_ecode c s) hne, fun _ k hk => ?_⟩
    rw [completeOk_auxLen] at hk
    rw [completeOk_auxBuf]
    exact writeAux_read_of_ge hc ha hk
  · exact ⟨fun _ => ⟨rfl, fun _ => rfl⟩, fun h0 => absurd h0 (ErrorCode_code_ne_zero e)⟩

end Sys2Proof.Machine
end

section
/-! PROOFS. The host's accesses in each phase, acceptance and the due tick (spec/20_memory.md R52 to R58). -/

namespace Sys2Proof.Machine

/-! ## Accesses that are not admitted -/

/-- An access in the window of another width or off the word grid is refused (spec/20_memory.md R52). -/
theorem admit_of_unadmitted {off width : Nat} {s : State} (k : Nat → Stepped) (hl : s.line = .released)
    (ho : off < 0x10000) (hbad : width ≠ 4 ∨ off % 4 ≠ 0) :
    admitAccess (s.cfg.base + off) width s k = .refused .unadmittedAccess := by
  have hin : ¬(s.cfg.base + off < s.cfg.base ∨ s.cfg.base + 0x10000 ≤ s.cfg.base + off) := by omega
  unfold admitAccess
  rw [if_neg hin, hl, Nat.add_sub_cancel_left]
  exact if_pos hbad

theorem memWrite_of_unadmitted {off width : Nat} {s : State} (v : Word) (hl : s.line = .released)
    (ho : off < 0x10000) (hbad : width ≠ 4 ∨ off % 4 ≠ 0) :
    memWrite (s.cfg.base + off) width v s = .refused .unadmittedAccess := admit_of_unadmitted _ hl ho hbad

theorem memRead_of_unadmitted {off width : Nat} {s : State} (k : Word → State → Stepped) (hl : s.line = .released)
    (ho : off < 0x10000) (hbad : width ≠ 4 ∨ off % 4 ≠ 0) :
    memRead (s.cfg.base + off) width s k = .refused .unadmittedAccess := admit_of_unadmitted _ hl ho hbad

/-! ## Writes while BUSY -/

theorem unlessBusy_of_busy {s : State} (k : State) (h : s.phase = .busy) :
    unlessBusy s k = { s with ovr := true } := by
  simp [unlessBusy, h]

theorem losingRegister_offset :
    ∀ off ∈ [0x00C, 0x010, 0x014, 0x018, 0x01C, 0x020], off < 0x4000 ∧ off % 4 = 0 := by decide

/-- CMD, the length registers and the results lose a write while BUSY (spec/20_memory.md R57). -/
theorem writeWord_register_of_busy {s : State} {off : Nat} (v : Word) (h : s.phase = .busy)
    (hoff : off ∈ [0x00C, 0x010, 0x014, 0x018, 0x01C, 0x020]) :
    writeWord (registerAt off) v s = { s with ovr := true } := by
  have hlost (k : State) : unlessBusy s k = { s with ovr := true } := unlessBusy_of_busy k h
  simp only [List.mem_cons, List.not_mem_nil, or_false] at hoff
  obtain rfl | rfl | rfl | rfl | rfl | rfl := hoff
  exacts [hlost _, hlost _, hlost _, hlost _, hlost _, hlost _]

/-- Every buffer word loses a write while BUSY. -/
theorem writeWord_bufByte_of_busy {s : State} (b : Buf) (i : Nat) (v : Word) (h : s.phase = .busy) :
    writeWord (.bufByte b i) v s = { s with ovr := true } := by
  cases b
  case inp => exact unlessBusy_of_busy _ h
  case aux => exact unlessBusy_of_busy _ h
  case out => exact unlessBusy_of_busy _ h

theorem constantRegister_offset : ∀ off ∈ [0x000, 0x024, 0x028, 0x02C], off < 0x4000 ∧ off % 4 = 0 := by decide

/-- The constants ignore writes in both phases (spec/10_state.md R22, R31). -/
theorem writeWord_constantRegister (s : State) {off : Nat} (v : Word)
    (hoff : off ∈ [0x000, 0x024, 0x028, 0x02C]) : writeWord (registerAt off) v s = s := by
  simp only [List.mem_cons, List.not_mem_nil, or_false] at hoff
  obtain rfl | rfl | rfl | rfl := hoff
  exacts [rfl, rfl, rfl, rfl]

/-! ## Reads of buffer words -/

/-- A byte read as a word is below 256. -/
theorem toNat_zext (b : Byte) : (zext b).toNat = b.toNat := by
  rw [zext, BitVec.toNat_setWidth, Nat.mod_eq_of_lt (by omega)]

/-- OUT while BUSY apart, a read finds the buffer's byte (spec/20_memory.md R53, R57). -/
theorem visibleByte_eq {s : State} {b : Buf} (i : Nat) (h : b ≠ .out ∨ s.phase = .idle) :
    visibleByte s b i = (s.buf b).read i := by
  unfold visibleByte
  split
  case h_1 hbusy => simp [hbusy] at h
  case h_2 => rfl

theorem issued_buf (s : State) (b : Buf) : s.issued.buf b = s.buf b := by
  cases b <;> rfl

theorem readWord_bufByte_lt (b : Buf) (i : Nat) (s : State) : (readWord (.bufByte b i) s).1.toNat < 256 := by
  simp only [readWord, toNat_zext]
  omega

/-- A buffer byte that holds a value is what its word reads as (spec/20_memory.md R53). -/
theorem readWord_bufByte_of_some {s : State} {b : Buf} {i : Nat} {x : Byte} (h : b ≠ .out ∨ s.phase = .idle)
    (hx : (s.buf b).read i = some x) : (readWord (.bufByte b i) s).1.toNat = x.toNat := by
  simp only [readWord, visibleByte_eq i h, hx, byteOrDraw_some, toNat_zext]

/-! ## The engine's tick -/

/-- A tick that finds the latency used up runs the latched word (spec/20_memory.md R58). -/
theorem tick_of_due {s : State} (hb : s.phase = .busy) (hr : s.rem ≤ 1) : tick s = runLatched { s with rem := 0 } := by
  simp [tick, hb, Nat.not_lt.mpr hr]

theorem runLatched_of_decode {s : State} {i : Instr} (h : decode s.cmdl = .ok i) : runLatched s = exec i s := by
  simp [runLatched, h]

/-! ## The statements -/

/-- Settles O4: the tick is due, and the latched word decodes. -/
theorem dueTickRunsTheDecodedCommand : Obligations.DueTickRunsTheDecodedCommand := by
  intro s i hm hb hr hd
  rw [step_of_engineMoves hm, tick_of_due (s := s.passTurn) hb hr.le]
  exact runLatched_of_decode hd

/-- Settles O9: the write of CMD is `accept` in the state without the instruction. -/
theorem cmdWriteWhileIdleIsAccepted : Obligations.CmdWriteWhileIdleIsAccepted := by
  intro s v rest hm hidle hh
  have hstep : step s = .next (accept v s.issued) := by
    rw [step_write_word hm hh (WordAt.register (by decide) rfl)]
    exact congrArg _ (unlessBusy_of_idle _ hidle)
  have hirq : (accept v s.issued).irq = false := Bool.and_false _
  exact ⟨accept v s.issued, hstep, rfl, rfl, rfl, rfl, rfl, rfl, rfl, rfl, rfl, accept_rem_pos v s.issued,
    Memory.snapshot_spec .., Memory.snapshot_spec .., rfl, rfl, hirq, rfl, rfl, rfl, rfl, rfl, rfl,
    congrArg List.tail hh, rfl, rfl, rfl, rfl⟩

/-- Settles O15: a write passes the gate of `memWrite`, a read and a poll that of `memRead`. -/
theorem unadmittedAccessIsRefused : Obligations.UnadmittedAccessIsRefused := by
  intro s off width dst v msk rest hm ho hbad hh
  have hl : s.issued.line = .released := hm.1
  obtain hh | hh | hh := hh
  · rw [step_of_hostMoves hm hh, hostExec]
    exact memWrite_of_unadmitted v hl ho hbad
  · rw [step_of_hostMoves hm hh, hostExec]
    exact memRead_of_unadmitted _ hl ho hbad
  · rw [step_of_hostMoves hm hh, hostExec]
    exact memRead_of_unadmitted _ hl ho hbad

/-- Settles O10: the registers and the buffer words of the first clause lose the write, and a constant ignores
it. -/
theorem writeWhileBusyIsLost : Obligations.WriteWhileBusyIsLost := by
  intro s off v rest hc hm hb hh
  have hphase : s.issued.phase = .busy := hb
  refine ⟨?lost, ?constant⟩
  case lost =>
    rintro (hoff | ⟨b, i, hi, rfl⟩)
    · obtain ⟨ho, h4⟩ := losingRegister_offset off hoff
      rw [step_write_word hm hh (WordAt.register ho h4)]
      exact congrArg _ (writeWord_register_of_busy v hphase hoff)
    · rw [step_write_word hm hh (WordAt.bufByte hc hi)]
      exact congrArg _ (writeWord_bufByte_of_busy b i v hphase)
  case constant =>
    intro hoff
    obtain ⟨ho, h4⟩ := constantRegister_offset off hoff
    rw [step_write_word hm hh (WordAt.register ho h4), writeWord_constantRegister _ v hoff]

/-- Settles O13: the word reads as a byte, the buffer's own where it has a value. -/
theorem bufferReadReturnsTheByte : Obligations.BufferReadReturnsTheByte := by
  intro s b i dst rest hc hm hi hh
  obtain ⟨ho, h4, hw⟩ := WordAt.bufByte hc hi
  refine ⟨_, (readWord (.bufByte b i) s.issued).1, step_read hm hh ho h4, readWord_bufByte_lt b i s.issued, ?_, ?_⟩
  · rw [hw]
  · intro x hphase hx
    exact readWord_bufByte_of_some (s := s.issued) hphase ((issued_buf s b).symm ▸ hx)

end Sys2Proof.Machine
end

section
/-! PROOFS. What one step can do to the block: a host step stores one word or changes nothing of the block, and
every step keeps the invariant (spec/20_memory.md R56 to R59, spec/70_reset_and_hazards.md R230, R241). -/

namespace Sys2Proof.Machine

/-! ## Steps that change nothing of the block -/

/-- `t` is `s` but for what is not the block's: the reset input, the host, the turns and the draws. -/
def SameBlock (s t : State) : Prop :=
  t = { s with
    line := t.line
    host := t.host
    hostRegs := t.hostRegs
    hostStrs := t.hostStrs
    hostFailed := t.hostFailed
    turns := t.turns
    draws := t.draws }

theorem SameBlock.refl (s : State) : SameBlock s s := rfl

theorem SameBlock.trans {s t u : State} (h : SameBlock s t) (h' : SameBlock t u) : SameBlock s u := by
  unfold SameBlock at h h' ⊢
  rw [h', h]

theorem SameBlock.readWord (w : WindowWord) (s : State) : SameBlock s (readWord w s).2 := by
  rw [readWord_state]
  rfl

/-- A read that goes on runs its continuation after at most a draw (spec/20_memory.md R55). -/
theorem memRead_next {addr width : Nat} {s t : State} {k : Word → State → Stepped}
    (h : memRead addr width s k = .next t) : ∃ v u, SameBlock s u ∧ k v u = .next t := by
  obtain ⟨-, -, -, -, -, hk⟩ := admit_next h
  exact ⟨_, _, .readWord _ s, hk⟩

/-- A write that goes on stores to the word its offset names. -/
theorem memWrite_next {addr width : Nat} {v : Word} {s t : State} (h : memWrite addr width v s = .next t) :
    ∃ off, addr = s.cfg.base + off ∧ width = 4 ∧ t = writeWord (windowWord s.cfg off) v s := by
  obtain ⟨-, hlo, -, hw, -, hk⟩ := admit_next h
  exact ⟨addr - s.cfg.base, by omega, hw, (Host.Outcome.next.inj hk).symm⟩

/-- Everything a host instruction can do to the block: store one word, or nothing. -/
theorem hostExec_cases {op : HostOp} {s t : State} (h : hostExec op s = .next t) :
    SameBlock s t ∨
      ∃ off v, op = .write (s.cfg.base + off) 4 v ∧ t = writeWord (windowWord s.cfg off) v s := by
  cases op with
  | write addr width v =>
    obtain ⟨off, rfl, rfl, rfl⟩ := memWrite_next h
    exact .inr ⟨off, v, rfl, rfl⟩
  | read addr width dst =>
    rw [hostExec] at h
    obtain ⟨v, u, hu, ⟨⟩⟩ := memRead_next h
    exact .inl (hu.trans rfl)
  | poll addr width msk val =>
    rw [hostExec] at h
    obtain ⟨v, u, hu, hk⟩ := memRead_next h
    split at hk
    · cases hk
      exact .inl hu
    · cases hk
      exact .inl (hu.trans rfl)
  | assertReg src imm =>
    cases h
    exact .inl rfl
  | collect lenReg i str =>
    rw [hostExec] at h
    split at h
    · obtain ⟨v, u, hu, ⟨⟩⟩ := memRead_next h
      exact .inl (hu.trans rfl)
    · cases h
      exact .inl rfl
  | loadStr b str =>
    cases h
    exact .inl rfl

/-- Everything a host step can do to the block. -/
theorem hostStep_cases {s t : State} (h : hostStep s = .next t) :
    SameBlock s t ∨
      ∃ off v rest, s.host = .write (s.cfg.base + off) 4 v :: rest ∧
        t = writeWord (windowWord s.cfg off) v { s with host := rest } := by
  unfold hostStep at h
  split at h
  case h_1 =>
    cases h
    exact .inl (.refl s)
  case h_2 op rest hh =>
    obtain hsame | ⟨off, v, rfl, rfl⟩ := hostExec_cases h
    · have hpop : SameBlock s { s with host := rest } := rfl
      exact .inl (hpop.trans hsame)
    · exact .inr ⟨off, v, rest, hh, rfl⟩

/-! ## The invariant -/

/-- `t` has the parameters of `s`, and the invariant if `s` has it. -/
def KeepsInv (s t : State) : Prop := t.cfg = s.cfg ∧ (s.Inv → t.Inv)

theorem KeepsInv.refl (s : State) : KeepsInv s s := ⟨rfl, id⟩

theorem KeepsInv.trans {s t u : State} (h : KeepsInv s t) (h' : KeepsInv t u) : KeepsInv s u :=
  ⟨h'.1.trans h.1, h'.2 ∘ h.2⟩

/-- The invariant is about the block alone. -/
theorem SameBlock.keepsInv {s t : State} (h : SameBlock s t) : KeepsInv s t := by
  rw [SameBlock] at h
  rw [h]
  exact .refl s

theorem keepsInv_passTurn (s : State) : KeepsInv s s.passTurn := .refl s

/-- Both resets leave the reset state, but for what is not the block's. -/
theorem keepsInv_resetBlock (s : State) : KeepsInv s (resetBlock s) := by
  refine ⟨rfl, fun ⟨hcfg, _⟩ => ?_⟩
  have hsame : SameBlock (State.resetOf s.cfg) (resetBlock s) := rfl
  exact hsame.keepsInv.2 (inv_resetOf hcfg)

theorem keepsInv_releaseReset (s : State) : KeepsInv s (releaseReset s) := by
  unfold releaseReset
  split
  · exact (keepsInv_resetBlock s).trans (SameBlock.keepsInv rfl)
  · exact .refl s
  · exact .refl s

/-! ### Completion -/

/-- The part of the invariant that a completion relies on: all but the results. -/
def State.operandsInv (s : State) : Prop :=
  s.cfg.wf = true ∧ s.inBuf.wf s.cfg.maxIn = true ∧ s.auxBuf.wf s.cfg.maxAux = true ∧
  snapshotFits s.snapIn s.cfg.maxIn ∧ snapshotFits s.snapAux s.cfg.maxAux

theorem State.Inv.operandsInv {s : State} (h : s.Inv) : s.operandsInv := by
  obtain ⟨hcfg, hin, haux, -, -, -, -, -, -, hsi, hsa⟩ := h
  exact ⟨hcfg, hin, haux, hsi, hsa⟩

/-- What fits AUX and is written there keeps it in canonical form. -/
theorem writeAux_auxBuf_wf {p : Option Bytes} {s : State} (h : s.auxBuf.wf s.cfg.maxAux = true)
    (hp : (p.getD []).length ≤ s.cfg.maxAux) : (writeAux p s).auxBuf.wf s.cfg.maxAux = true := by
  cases p with
  | none => exact h
  | some bs => exact Memory.wf_writeBytes bs h (by simpa using hp)

theorem inv_completeOk {c : Completed} {s : State} (h : s.operandsInv) (ho : c.out.length ≤ s.cfg.maxOut)
    (ha : (c.aux.getD []).length ≤ s.cfg.maxAux) : (completeOk c s).Inv := by
  obtain ⟨hcfg, hin, haux, hsi, hsa⟩ := h
  have hlen : (completeOk c s).outLen.toNat ≤ s.cfg.maxOut := (completeOk_outLen_toNat hcfg ho).trans_le ho
  have hvalue : ∀ k, k < (completeOk c s).outLen.toNat → ((completeOk c s).outBuf.read k).isSome = true :=
    fun k => (outBelowLength_completeOk hcfg ho k).mpr
  unfold State.Inv
  simp only [completeOk_cfg, completeOk_inBuf, completeOk_auxBuf, completeOk_outBuf, completeOk_ecode,
    completeOk_snapIn, completeOk_snapAux] at hvalue ⊢
  exact ⟨hcfg, hin, writeAux_auxBuf_wf haux ha, Memory.wf_ofBytes c.out ho, hlen, hvalue, zero_mem_legalCodes,
    busyInv_of_idle (completeOk_phase c s), errorInv_of_success (completeOk_ecode c s), hsi, hsa⟩

theorem inv_completeErr {e : ErrorCode} {s : State} (h : s.operandsInv) (he : e.code ∈ legalCodes) :
    (completeErr e s).Inv := by
  obtain ⟨hcfg, hin, haux, hsi, hsa⟩ := h
  exact ⟨hcfg, hin, haux, rfl, Nat.zero_le _, fun k hk => absurd hk (Nat.not_lt_zero k), he,
    busyInv_of_idle rfl, fun _ => ⟨rfl, rfl, rfl⟩, hsi, hsa⟩

theorem inv_exec {i : Instr} {s t : State} (hs : s.operandsInv) (h : exec i s = .next t) : t.Inv := by
  obtain ⟨c, hr, rfl⟩ | ⟨e, hr, rfl⟩ := exec_next h
  · obtain ⟨ho, ha, -⟩ := resultOf_ok hr
    exact inv_completeOk hs ho ha
  · exact inv_completeErr hs (resultOf_error_code_mem hr)

/-- The latched word runs as its command, or completes as an illegal one (spec/60_exceptions.md R204). -/
theorem runLatched_next {s t : State} (h : runLatched s = .next t) :
    (∃ i, exec i s = .next t) ∨ t = completeErr .illegalCommand s := by
  unfold runLatched at h
  split at h
  case h_1 i _ => exact .inl ⟨i, h⟩
  case h_2 => exact .inr (Host.Outcome.next.inj h).symm

theorem exec_cfg {i : Instr} {s t : State} (h : exec i s = .next t) : t.cfg = s.cfg := (sameOutsideResults_exec h).1

theorem runLatched_cfg {s t : State} (h : runLatched s = .next t) : t.cfg = s.cfg := by
  obtain ⟨i, hi⟩ | rfl := runLatched_next h
  · exact exec_cfg hi
  · rfl

theorem inv_runLatched {s t : State} (hs : s.operandsInv) (h : runLatched s = .next t) : t.Inv := by
  obtain ⟨i, hi⟩ | rfl := runLatched_next h
  · exact inv_exec hs hi
  · exact inv_completeErr hs (by decide)

/-- Counting down above 1 leaves REM at least 1 (spec/70_reset_and_hazards.md R241). -/
theorem inv_countDown {s : State} (h : s.Inv) (hr : 1 < s.rem) : ({ s with rem := s.rem - 1 } : State).Inv := by
  obtain ⟨hcfg, hin, haux, hout, hlen, hvalue, hcode, hbusy, herr, hsi, hsa⟩ := h
  refine ⟨hcfg, hin, haux, hout, hlen, hvalue, hcode, fun hb => ?_, herr, hsi, hsa⟩
  obtain ⟨-, hresults⟩ := hbusy hb
  exact ⟨Nat.le_sub_one_of_lt hr, hresults⟩

theorem keepsInv_tick {s t : State} (h : tick s = .next t) : KeepsInv s t := by
  unfold tick at h
  split at h
  · cases h
    exact .refl s
  · split at h
    case isTrue hr =>
      cases h
      exact ⟨rfl, fun hi => inv_countDown hi hr⟩
    case isFalse =>
      have hcfg : t.cfg = s.cfg := runLatched_cfg (s := { s with rem := 0 }) h
      exact ⟨hcfg, fun hi => inv_runLatched (s := { s with rem := 0 }) hi.operandsInv h⟩

/-! ### Host writes -/

/-- Acceptance clears the results, draws a latency and takes snapshots that fit (spec/20_memory.md R56). -/
theorem keepsInv_accept (v : Word) (s : State) : KeepsInv s (accept v s) := by
  refine ⟨rfl, fun h => ?_⟩
  obtain ⟨hcfg, hin, haux, hout, -⟩ := h
  exact ⟨hcfg, hin, haux, hout, Nat.zero_le _, fun k hk => absurd hk (Nat.not_lt_zero k), zero_mem_legalCodes,
    fun _ => ⟨accept_rem_pos v s, rfl, rfl, rfl, rfl, rfl⟩, errorInv_of_success rfl,
    Memory.snapshot_fits _ _ _ _, Memory.snapshot_fits _ _ _ _⟩

/-- While BUSY, DONE is 0 before and after the write to STATUS. -/
theorem keepsInv_clearStatus (v : Word) (s : State) : KeepsInv s (clearStatus v s) := by
  refine ⟨rfl, fun h => ?_⟩
  obtain ⟨hcfg, hin, haux, hout, hlen, hvalue, hcode, hbusy, herr, hsi, hsa⟩ := h
  refine ⟨hcfg, hin, haux, hout, hlen, hvalue, hcode, fun hb => ?_, herr, hsi, hsa⟩
  obtain ⟨hrem, hdone, hresults⟩ := hbusy hb
  exact ⟨hrem, by rw [clearStatus_done, hdone, Bool.false_and], hresults⟩

theorem keepsInv_writeCtrl (v : Word) (s : State) : KeepsInv s (writeCtrl v s) := by
  unfold writeCtrl
  split_ifs
  · exact keepsInv_resetBlock s
  · exact .refl s

theorem keepsInv_writeInBuf {s : State} {i : Nat} (b : Byte) (hi : i < s.cfg.maxIn) :
    KeepsInv s { s with inBuf := s.inBuf.write i b } := by
  refine ⟨rfl, fun ⟨hcfg, hin, hrest⟩ => ?_⟩
  exact ⟨hcfg, Memory.wf_write b hin hi, hrest⟩

theorem keepsInv_writeAuxBuf {s : State} {i : Nat} (b : Byte) (hi : i < s.cfg.maxAux) :
    KeepsInv s { s with auxBuf := s.auxBuf.write i b } := by
  refine ⟨rfl, fun ⟨hcfg, hin, haux, hrest⟩ => ?_⟩
  exact ⟨hcfg, hin, Memory.wf_write b haux hi, hrest⟩

/-- The invariant does not speak of OVR, so a lost write keeps it. -/
theorem keepsInv_unlessBusy {s k : State} (h : KeepsInv s k) : KeepsInv s (unlessBusy s k) := by
  unfold unlessBusy
  split
  · exact .refl s
  · exact h

/-- A write to a window word keeps the invariant; the words of a buffer are those below its capacity. -/
theorem keepsInv_writeWord {w : WindowWord} (v : Word) {s : State}
    (hw : ∀ b i, w = .bufByte b i → i < capacity s.cfg b) : KeepsInv s (writeWord w v s) := by
  cases w with
  | id | capIn | capAux | capOut | reserved => exact .refl s
  | ctrl => exact keepsInv_writeCtrl v s
  | status => exact keepsInv_clearStatus v s
  | cmd => exact keepsInv_unlessBusy (keepsInv_accept v s)
  | inLen | auxLen | outLen | res0 | res1 => exact keepsInv_unlessBusy (.refl s)
  | bufByte b i =>
    have hi : i < capacity s.cfg b := hw b i rfl
    cases b with
    | inp => exact keepsInv_unlessBusy (keepsInv_writeInBuf _ hi)
    | aux => exact keepsInv_unlessBusy (keepsInv_writeAuxBuf _ hi)
    | out => exact keepsInv_unlessBusy (.refl s)

theorem keepsInv_hostStep {s t : State} (h : hostStep s = .next t) : KeepsInv s t := by
  obtain hsame | ⟨off, v, rest, -, rfl⟩ := hostStep_cases h
  · exact hsame.keepsInv
  · exact keepsInv_writeWord (s := { s with host := rest }) v fun b i hw => windowWord_bufByte hw

/-! ## The running command -/

/-- `t` is `s` but for IE, DONE and OVR and for what is not the block's. -/
def SameCommand (s t : State) : Prop :=
  SameBlock { s with ie := t.ie, done := t.done, ovr := t.ovr } t

theorem SameBlock.sameCommand {s t : State} (h : SameBlock s t) : SameCommand s t := by
  rw [SameBlock] at h
  rw [h]
  rfl

/-- Only CTRL's offset names CTRL (spec/10_state.md section 3). -/
theorem offset_of_ctrl {c : Config} {off : Nat} (h : windowWord c off = .ctrl) : off = 0x004 := by
  have hbuf (b : Buf) (i : Nat) : bufferWord c b i ≠ .ctrl := by
    unfold bufferWord
    split_ifs <;> simp
  unfold windowWord at h
  split_ifs at h
  · unfold registerAt at h
    split at h
    case h_2 => rfl
    all_goals cases h
  · exact absurd h (hbuf _ _)
  · exact absurd h (hbuf _ _)
  · exact absurd h (hbuf _ _)

/-- A write while BUSY leaves the running command alone, unless it is the soft reset (spec/20_memory.md R59,
spec/70_reset_and_hazards.md R247). -/
theorem writeWord_of_busy_cases {w : WindowWord} {v : Word} {s : State} (hb : s.phase = .busy) :
    SameCommand s (writeWord w v s) ∨
      (w = .ctrl ∧ v.getLsbD 1 = true ∧ writeWord w v s = resetBlock s) := by
  obtain h | h | h | ⟨rfl, h⟩ := writeWord_busy (w := w) (v := v) hb
  · rw [h]
    exact .inl rfl
  · rw [h]
    exact .inl rfl
  · rw [h]
    exact .inl rfl
  · rw [h]
    unfold writeCtrl
    split_ifs with hsrst
    · exact .inr ⟨rfl, hsrst, rfl⟩
    · exact .inl rfl

theorem resetValues_resetBlock (s : State) : resetValues (resetBlock s) := resetValues_resetOf s.cfg

/-- A listed host turn is the host's step, unless power was lost. -/
theorem hostStep_of_listed_turn {s t : State} (hturn : s.turns.head? = some .host) (h : step s = .next t) :
    hostStep s.passTurn = .next t := by
  obtain ⟨ts, hts⟩ := List.head?_eq_some_iff.mp hturn
  have hstep : step s = hostTurn s.passTurn := by simp [step, stepTurn, hts, takeTurn, State.passTurn]
  rw [hstep, hostTurn] at h
  split at h
  · exact h
  · exact h
  · cases h

/-! ## The statements -/

/-- Settles O59: each way a step can go keeps the parameters and the invariant. -/
theorem everyStepKeepsTheInvariant : Obligations.EveryStepKeepsTheInvariant := by
  intro s t h
  refine (keepsInv_passTurn s).trans ?_
  obtain ⟨-, htick⟩ | ⟨-, rfl⟩ | ⟨-, -, -, hhost⟩ | rfl | rfl | rfl := step_cases h
  · exact keepsInv_tick htick
  · exact .refl _
  · exact keepsInv_hostStep hhost
  · exact SameBlock.keepsInv rfl
  · exact keepsInv_releaseReset _
  · exact SameBlock.keepsInv rfl

/-- Settles O17: a host step that stores nothing leaves the block, and a write while BUSY leaves the command or is
the soft reset. -/
theorem hostCannotChangeTheRunningCommand : Obligations.HostCannotChangeTheRunningCommand := by
  intro s t hb hturn h
  have hkept : SameCommand s t ∨
      ∃ v rest, s.host = .write (s.cfg.base + 0x004) 4 v :: rest ∧ v.getLsbD 1 = true ∧ resetValues t := by
    obtain hsame | ⟨off, v, rest, hh, rfl⟩ := hostStep_cases (hostStep_of_listed_turn hturn h)
    · exact .inl hsame.sameCommand
    · obtain hsame | ⟨hctrl, hsrst, hreset⟩ :=
        writeWord_of_busy_cases (w := windowWord s.cfg off) (v := v) (s := { s.passTurn with host := rest }) hb
      · exact .inl hsame
      · refine .inr ⟨v, rest, offset_of_ctrl hctrl ▸ hh, hsrst, ?_⟩
        exact hreset ▸ resetValues_resetBlock _
  refine hkept.imp_left fun hsame => ?_
  rw [SameCommand, SameBlock] at hsame
  rw [hsame]
  exact ⟨hb, rfl, rfl, rfl, rfl, rfl, rfl, rfl, rfl, rfl, rfl, rfl, rfl, rfl⟩

end Sys2Proof.Machine
end

section
/-! PROOFS. Command words: each field of format C under its mask, the decoder as the field-use rule of the
command its opcode names, and the statements about encoding (spec/30_encoding.md R70 to R79). -/

namespace Sys2Proof

/-! ## The fields of an encoded word (spec/30_encoding.md R70, R79) -/

section Fields

variable (ver : Byte) (atype : BitVec 3) (pad : Bool) (toBits fromBits : BitVec 4) (op : Byte)

theorem cmdVer_encodeFields : cmdVer (encodeFields ver atype pad toBits fromBits op) = ver := by
  ext k hk
  simp only [cmdVer, encodeFields]
  interval_cases k <;> simp

theorem cmdAtype_encodeFields : cmdAtype (encodeFields ver atype pad toBits fromBits op) = atype := by
  ext k hk
  simp only [cmdAtype, encodeFields]
  interval_cases k <;> simp

theorem cmdPad_encodeFields : cmdPad (encodeFields ver atype pad toBits fromBits op) = pad := by
  simp [cmdPad, encodeFields]

theorem cmdTo_encodeFields : cmdTo (encodeFields ver atype pad toBits fromBits op) = toBits.toNat := by
  have hbits : (encodeFields ver atype pad toBits fromBits op).extractLsb' 12 4 = toBits := by
    ext k hk
    simp only [encodeFields]
    interval_cases k <;> simp
  rw [cmdTo, hbits]

theorem cmdFrom_encodeFields : cmdFrom (encodeFields ver atype pad toBits fromBits op) = fromBits.toNat := by
  have hbits : (encodeFields ver atype pad toBits fromBits op).extractLsb' 8 4 = fromBits := by
    ext k hk
    simp only [encodeFields]
    interval_cases k <;> simp
  rw [cmdFrom, hbits]

end Fields

theorem AddrType.ofCode_code (a : AddrType) : AddrType.ofCode a.code = a := by
  cases a <;> rfl

theorem AddrType.code_ofCode (c : BitVec 3) : (AddrType.ofCode c).code = c := by
  revert c
  decide

theorem cmdOp_encode (i : Instr) : cmdOp (encode i) = i.opcode := by
  cases i <;> exact (Laws.EncodeOp.encodeFields_op ..).1

/-! ## The fields a command uses (spec/30_encoding.md R74) -/

/-- The bits outside `OP` that a word of the command may set. -/
def usedMask : Instr → Word
  | .b58chkEnc _ => verMask
  | .convbits _ _ _ => convMask
  | .caPack _ | .caChkenc _ => atypeMask
  | .b58Enc | .b58Dec | .b58chkDec | .polymod | .caExpand | .caCrchk | .caVerify | .caEnc | .caDec | .caChkdec => 0

theorem usedMask_cases (i : Instr) :
    usedMask i = 0 ∨ usedMask i = verMask ∨ usedMask i = convMask ∨ usedMask i = atypeMask := by
  cases i <;> simp [usedMask]

/-- The command of the same opcode with the field values of the word `w`. -/
def withFields (w : Word) : Instr → Instr
  | .b58chkEnc _ => .b58chkEnc (cmdVer w)
  | .convbits _ _ _ => .convbits (cmdFrom w) (cmdTo w) (cmdPad w)
  | .caPack _ => .caPack (.ofCode (cmdAtype w))
  | .caChkenc _ => .caChkenc (.ofCode (cmdAtype w))
  | i => i

/-- The word `w` sets no bit outside `OP` and the fields the command uses. -/
def OnlyUsedBits (i : Instr) (w : Word) : Prop := w &&& ~~~(0xFF#32 ||| usedMask i) = 0

/-- No value of a well-formed command is cut to its field (spec/30_encoding.md R70). -/
theorem withFields_encode {i : Instr} (hwf : i.wf = true) : withFields (encode i) i = i := by
  cases i with
  | b58chkEnc ver => exact congrArg Instr.b58chkEnc (cmdVer_encodeFields ..)
  | convbits fromBits toBits pad =>
    obtain ⟨hfrom, hto⟩ : fromBits < 16 ∧ toBits < 16 := by simpa [Instr.wf] using hwf
    simp only [withFields, encode, cmdFrom_encodeFields, cmdTo_encodeFields, cmdPad_encodeFields,
      BitVec.toNat_ofNat, Nat.mod_eq_of_lt (show fromBits < 2 ^ 4 from hfrom),
      Nat.mod_eq_of_lt (show toBits < 2 ^ 4 from hto)]
  | caPack a => simp only [withFields, encode, cmdAtype_encodeFields, AddrType.ofCode_code]
  | caChkenc a => simp only [withFields, encode, cmdAtype_encodeFields, AddrType.ofCode_code]
  | b58Enc | b58Dec | b58chkDec | polymod | caExpand | caCrchk | caVerify | caEnc | caDec | caChkdec => rfl

theorem wf_withFields (w : Word) (i : Instr) : (withFields w i).wf = true := by
  cases i with
  | convbits =>
    have hfrom : cmdFrom w < 16 := (w.extractLsb' 8 4).isLt
    have hto : cmdTo w < 16 := (w.extractLsb' 12 4).isLt
    simp [withFields, Instr.wf, hfrom, hto]
  | _ => rfl

/-! ## A word under the masks of its fields -/

/-- A field of a word, put back in its place, is the word under the field's mask. -/
theorem setWidth_extract_shiftLeft (w : Word) (lo n : Nat) :
    (w.extractLsb' lo n).setWidth 32 <<< lo = w &&& (BitVec.allOnes n).setWidth 32 <<< lo := by
  ext k hk
  by_cases hlo : k < lo
  · simp [hlo]
  · have hk' : lo + (k - lo) = k := by omega
    simp (disch := omega) [hlo, hk', Bool.and_comm]

theorem ofBool_cmdPad (w : Word) : BitVec.ofBool (cmdPad w) = w.extractLsb' 16 1 := by
  ext k hk
  obtain rfl : k = 0 := by omega
  simp [cmdPad]

/-- The low byte of a word is its opcode. -/
theorem setWidth_cmdOp (w : Word) : (cmdOp w).setWidth 32 = w &&& 0xFF#32 :=
  (BitVec.shiftLeft_zero _).symm.trans (setWidth_extract_shiftLeft w 0 8)

section Formats

variable {w : Word} {op : Byte}

theorem encodeFields_op_eq_and (hop : cmdOp w = op) :
    encodeFields 0 0 false 0 0 op = w &&& (0xFF#32 ||| 0) := by
  subst hop
  simp [encodeFields, setWidth_cmdOp]

theorem encodeFields_ver_eq_and (hop : cmdOp w = op) :
    encodeFields (cmdVer w) 0 false 0 0 op = w &&& (0xFF#32 ||| verMask) := by
  subst hop
  have hver : (cmdVer w).setWidth 32 <<< 24 = w &&& verMask := setWidth_extract_shiftLeft w 24 8
  simp [encodeFields, hver, setWidth_cmdOp, BitVec.and_or_distrib_left, BitVec.or_comm]

theorem encodeFields_atype_eq_and (hop : cmdOp w = op) :
    encodeFields 0 (cmdAtype w) false 0 0 op = w &&& (0xFF#32 ||| atypeMask) := by
  subst hop
  have hatype : (cmdAtype w).setWidth 32 <<< 17 = w &&& atypeMask := setWidth_extract_shiftLeft w 17 3
  simp [encodeFields, hatype, setWidth_cmdOp, BitVec.and_or_distrib_left, BitVec.or_comm]

theorem encodeFields_conv_eq_and (hop : cmdOp w = op) :
    encodeFields 0 0 (cmdPad w) (BitVec.ofNat 4 (cmdTo w)) (BitVec.ofNat 4 (cmdFrom w)) op =
      w &&& (0xFF#32 ||| convMask) := by
  subst hop
  have hmask : 0xFF#32 ||| convMask = 0x10000#32 ||| 0xF000#32 ||| 0xF00#32 ||| 0xFF#32 := rfl
  have hpad : (BitVec.ofBool (cmdPad w)).setWidth 32 <<< 16 = w &&& 0x10000#32 :=
    ofBool_cmdPad w ▸ setWidth_extract_shiftLeft w 16 1
  have hto : (BitVec.ofNat 4 (cmdTo w)).setWidth 32 <<< 12 = w &&& 0xF000#32 := by
    rw [cmdTo, BitVec.ofNat_toNat, BitVec.setWidth_eq]
    exact setWidth_extract_shiftLeft w 12 4
  have hfrom : (BitVec.ofNat 4 (cmdFrom w)).setWidth 32 <<< 8 = w &&& 0xF00#32 := by
    rw [cmdFrom, BitVec.ofNat_toNat, BitVec.setWidth_eq]
    exact setWidth_extract_shiftLeft w 8 4
  simp only [hmask, BitVec.and_or_distrib_left, encodeFields, hpad, hto, hfrom, setWidth_cmdOp]
  simp

/-- The field values of a word encode as the word under the command's masks. -/
theorem encode_withFields {i : Instr} (hop : cmdOp w = i.opcode) :
    encode (withFields w i) = w &&& (0xFF#32 ||| usedMask i) := by
  cases i with
  | b58chkEnc => exact encodeFields_ver_eq_and hop
  | convbits => exact encodeFields_conv_eq_and hop
  | caPack | caChkenc =>
    simp only [withFields, encode, AddrType.code_ofCode]
    exact encodeFields_atype_eq_and hop
  | b58Enc | b58Dec | b58chkDec | polymod | caExpand | caCrchk | caVerify | caEnc | caDec | caChkdec =>
    exact encodeFields_op_eq_and hop

end Formats

/-- A word has no bit outside a mask when the mask leaves it as it is. -/
theorem and_not_eq_zero_iff {w m : Word} : w &&& ~~~m = 0 ↔ w &&& m = w := by
  constructor
  · intro h
    have hsplit : w &&& m ||| w &&& ~~~m = w := by
      rw [← BitVec.and_or_distrib_left, BitVec.or_not_self, BitVec.and_allOnes]
    rw [h] at hsplit
    exact BitVec.or_zero.symm.trans hsplit
  · intro h
    rw [← h, BitVec.and_assoc, BitVec.and_not_self]
    exact BitVec.and_zero

theorem onlyUsedBits_encode {i : Instr} (hwf : i.wf = true) : OnlyUsedBits i (encode i) := by
  have h := encode_withFields (cmdOp_encode i)
  rw [withFields_encode hwf] at h
  exact and_not_eq_zero_iff.mpr h.symm

theorem OnlyUsedBits.and_eq {i : Instr} {w : Word} (h : OnlyUsedBits i w) : w &&& (0xFF#32 ||| usedMask i) = w :=
  and_not_eq_zero_iff.mp h

/-! ## The decoder (spec/30_encoding.md R71, R74) -/

theorem OnlyUsedBits.cmdRsv_eq_zero {i : Instr} {w : Word} (h : OnlyUsedBits i w) : cmdRsv w = 0 := by
  have hmask : cmdRsv (0xFF#32 ||| usedMask i) = 0 := by
    obtain hm | hm | hm | hm := usedMask_cases i <;> rw [hm] <;> decide
  rw [← h.and_eq, cmdRsv, BitVec.extractLsb'_and]
  exact (congrArg _ hmask).trans BitVec.and_zero

theorem fieldUse_usedMask_eq_ok {w : Word} {i j k : Instr} :
    fieldUse w (usedMask i) j = .ok k ↔ OnlyUsedBits i w ∧ j = k := by
  unfold fieldUse
  constructor
  · intro h
    split_ifs at h with hrsv hused
    exact ⟨not_not.mp hused, Except.ok.inj h⟩
  · rintro ⟨h, rfl⟩
    have hused : ¬(w &&& ~~~(0xFF#32 ||| usedMask i) ≠ 0) := not_not.mpr h
    rw [if_neg (not_not.mpr h.cmdRsv_eq_zero), if_neg hused]

theorem eq_of_fieldUse {w used : Word} {i j : Instr} (h : fieldUse w used j = .ok i) : j = i := by
  unfold fieldUse at h
  split_ifs at h
  exact Except.ok.inj h

/-- `OP` alone selects the command (spec/30_encoding.md R71). -/
theorem decode_of_opcode {w : Word} {i : Instr} (hop : cmdOp w = i.opcode) :
    decode w = fieldUse w (usedMask i) (withFields w i) := by
  unfold decode
  rw [hop]
  cases i <;> rfl

/-- Each arm of the decoder answers a command of the arm's opcode. -/
theorem opcode_of_decode {w : Word} {i : Instr} (h : decode w = .ok i) : cmdOp w = i.opcode := by
  unfold decode at h
  split at h
  case h_15 => cases h
  all_goals
    cases eq_of_fieldUse h
    exact BitVec.eq_of_toNat_eq ‹_›

/-- What decodes to a command: its opcode, no bit outside its fields, and its field values. -/
theorem decode_eq_ok_iff {w : Word} {i : Instr} :
    decode w = .ok i ↔ cmdOp w = i.opcode ∧ OnlyUsedBits i w ∧ withFields w i = i := by
  constructor
  · intro h
    have hop := opcode_of_decode h
    rw [decode_of_opcode hop] at h
    exact ⟨hop, fieldUse_usedMask_eq_ok.mp h⟩
  · rintro ⟨hop, hfields⟩
    rw [decode_of_opcode hop]
    exact fieldUse_usedMask_eq_ok.mpr hfields

/-! ## The opcode table (spec/opcode_table.json) -/

/-- A command for each row of the table, in its order. -/
def rowCommands : List Instr :=
  [.b58Enc, .b58Dec, .b58chkEnc 0, .b58chkDec, .convbits 0 0 false, .polymod, .caExpand, .caCrchk, .caVerify,
    .caPack .unknown, .caEnc, .caDec, .caChkenc .unknown, .caChkdec]

/-- The mask and the pattern of the command's row: every bit outside its fields, and its opcode. -/
def rowBits (i : Instr) : Word × Word := (~~~usedMask i, i.opcode.setWidth 32)

theorem opcodeRows_bits : opcodeRows.map (fun r => (r.mask, r.pat)) = rowCommands.map rowBits := rfl

theorem rowBits_mem (i : Instr) : rowBits i ∈ rowCommands.map rowBits := by
  cases i <;> simp [rowCommands, rowBits, usedMask, Instr.opcode]

theorem exists_row (i : Instr) : ∃ r ∈ opcodeRows, (r.mask, r.pat) = rowBits i :=
  List.mem_map.mp (opcodeRows_bits ▸ rowBits_mem i)

theorem exists_rowBits {r : OpRow} (hr : r ∈ opcodeRows) : ∃ i, (r.mask, r.pat) = rowBits i := by
  have hmem := List.mem_map_of_mem (f := fun r : OpRow => (r.mask, r.pat)) hr
  rw [opcodeRows_bits] at hmem
  obtain ⟨i, -, hi⟩ := List.mem_map.mp hmem
  exact ⟨i, hi.symm⟩

theorem cmdOp_setWidth (op : Byte) : cmdOp (op.setWidth 32) = op := by
  rw [cmdOp, BitVec.extractLsb'_setWidth_of_le (by decide), BitVec.extractLsb'_eq_self]

/-- A word with no bit above its low byte is its opcode. -/
theorem eq_setWidth_iff {w : Word} {op : Byte} : w = op.setWidth 32 ↔ cmdOp w = op ∧ w &&& ~~~0xFF#32 = 0 := by
  rw [and_not_eq_zero_iff, ← setWidth_cmdOp]
  constructor
  · rintro rfl
    rw [cmdOp_setWidth]
    exact ⟨rfl, rfl⟩
  · rintro ⟨rfl, hw⟩
    exact hw.symm

theorem cmdOp_and_not_usedMask (w : Word) (i : Instr) : cmdOp (w &&& ~~~usedMask i) = cmdOp w := by
  have hmask : cmdOp (~~~usedMask i) = BitVec.allOnes 8 := by
    obtain hm | hm | hm | hm := usedMask_cases i <;> rw [hm] <;> decide
  rw [cmdOp, BitVec.extractLsb'_and]
  exact (congrArg _ hmask).trans BitVec.and_allOnes

/-- A word matches a command's row when it has the command's opcode and no bit outside its fields. -/
theorem row_matches_iff {r : OpRow} {w : Word} {i : Instr} (hrow : (r.mask, r.pat) = rowBits i) :
    w &&& r.mask = r.pat ↔ cmdOp w = i.opcode ∧ OnlyUsedBits i w := by
  obtain ⟨hmask, hpat⟩ := Prod.mk.inj hrow
  have hbits : w &&& ~~~usedMask i &&& ~~~0xFF#32 = w &&& ~~~(0xFF#32 ||| usedMask i) := by
    rw [BitVec.not_or, BitVec.and_assoc, BitVec.and_comm (~~~usedMask i)]
  rw [hmask, hpat, eq_setWidth_iff, cmdOp_and_not_usedMask, hbits, OnlyUsedBits]

/-- What a word that a row matches is: the row is the one of its opcode, and a command's. -/
theorem row_matches_cases {r : OpRow} {w : Word} (hr : r ∈ opcodeRows) (hw : w &&& r.mask = r.pat) :
    r.pat = (cmdOp w).setWidth 32 ∧ ∃ i, cmdOp w = Instr.opcode i ∧ OnlyUsedBits i w := by
  obtain ⟨i, hrow⟩ := exists_rowBits hr
  obtain ⟨hop, hused⟩ := (row_matches_iff hrow).mp hw
  exact ⟨hop ▸ congrArg Prod.snd hrow, i, hop, hused⟩

theorem opcodeRows_pat_nodup : (opcodeRows.map OpRow.pat).Nodup := by decide

/-! ## The statements -/

/-- Settles O2: the encoded word has the command's opcode, no other bit and the command's field values. -/
theorem decodeOfEncodeGivesTheCommand : Obligations.DecodeOfEncodeGivesTheCommand := fun i hwf =>
  decode_eq_ok_iff.mpr ⟨cmdOp_encode i, onlyUsedBits_encode hwf, withFields_encode hwf⟩

/-- Settles O3: decoding to a command and matching its row are the same condition on opcode and unused bits, and
no two rows have one opcode. -/
theorem decoderAgreesWithOpcodeTable : Obligations.DecoderAgreesWithOpcodeTable := by
  refine ⟨fun w i h => ?decoded, fun w r hr hw => ?matched, fun w r hr r' hr' hw hw' => ?unique⟩
  case decoded =>
    obtain ⟨hop, hused, hfields⟩ := decode_eq_ok_iff.mp h
    have hwf : i.wf = true := hfields ▸ wf_withFields w i
    have hencode : encode i = w := by
      rw [← hfields, encode_withFields hop, hused.and_eq]
    obtain ⟨r, hr, hrow⟩ := exists_row i
    have hpat : r.pat = i.opcode.setWidth 32 := congrArg Prod.snd hrow
    exact ⟨hwf, hencode, r, hr, (row_matches_iff hrow).mpr ⟨hop, hused⟩, hpat ▸ cmdOp_setWidth i.opcode⟩
  case matched =>
    obtain ⟨-, i, hop, hused⟩ := row_matches_cases hr hw
    exact ⟨withFields w i, (decode_of_opcode hop).trans (fieldUse_usedMask_eq_ok.mpr ⟨hused, rfl⟩)⟩
  case unique =>
    obtain ⟨hpat, -⟩ := row_matches_cases hr hw
    obtain ⟨hpat', -⟩ := row_matches_cases hr' hw'
    exact List.inj_on_of_nodup_map opcodeRows_pat_nodup hr hr' (hpat.trans hpat'.symm)

/-- Settles O1: each legal word is the encoding of its command, so O2 decodes it. -/
theorem specWordsDecode : Obligations.SpecWordsDecode := by
  refine ⟨fun p hp => ?legal, ?illegal⟩
  case legal =>
    obtain ⟨hwf, hencode⟩ : p.2.wf = true ∧ encode p.2 = p.1 := by
      revert p
      decide
    exact ⟨hencode ▸ decodeOfEncodeGivesTheCommand p.2 hwf, hencode⟩
  case illegal =>
    simp only [List.forall_mem_cons]
    exact ⟨⟨_, rfl⟩, ⟨_, rfl⟩, ⟨_, rfl⟩, ⟨_, rfl⟩, ⟨_, rfl⟩, ⟨_, rfl⟩, List.forall_mem_nil _⟩

end Sys2Proof
end

section
/-! PROOFS. An illegal word, the host's check, and what starts a command (spec/30_encoding.md R77, R80, R82). -/

namespace Sys2Proof.Machine

/-! ## An illegal word -/

theorem runLatched_of_illegal {s : State} (h : ∀ i, decode s.cmdl ≠ .ok i) :
    runLatched s = .next (completeErr .illegalCommand s) := by
  unfold runLatched
  split
  case h_1 i hd => exact absurd hd (h i)
  case h_2 => rfl

/-! ## Acceptance -/

/-- A register's word stands at the register's offset only (spec/20_memory.md R51). -/
theorem registerAt_of_windowWord {c : Config} {off : Nat} {w : WindowWord} (hreserved : w ≠ .reserved)
    (hbuf : ∀ b i, w ≠ .bufByte b i) (h : windowWord c off = w) : registerAt off = w := by
  have hne (b : Buf) (i : Nat) : bufferWord c b i ≠ w := by
    unfold bufferWord
    split_ifs
    · exact (hbuf b i).symm
    · exact hreserved.symm
  unfold windowWord at h
  split_ifs at h
  · exact h
  · exact absurd h (hne _ _)
  · exact absurd h (hne _ _)
  · exact absurd h (hne _ _)

theorem offset_of_cmd {c : Config} {off : Nat} (h : windowWord c off = .cmd) : off = 0x00C := by
  have hreg : registerAt off = .cmd := registerAt_of_windowWord (by decide) (by simp) h
  unfold registerAt at hreg
  split at hreg
  case h_4 => rfl
  all_goals cases hreg

theorem unlessBusy_phase_of_idle {s k : State} (h : s.phase = .idle) (hk : k.phase = .idle) :
    (unlessBusy s k).phase = .idle := by
  rw [unlessBusy_of_idle k h, hk]

theorem writeCtrl_phase_of_idle {v : Word} {s : State} (h : s.phase = .idle) : (writeCtrl v s).phase = .idle := by
  unfold writeCtrl
  split_ifs
  · rfl
  · exact h

/-- While IDLE, only a write to CMD starts a command (spec/20_memory.md R56). -/
theorem writeWord_of_idle_cases {w : WindowWord} {v : Word} {s : State} (h : s.phase = .idle) :
    (writeWord w v s).phase = .idle ∨ (w = .cmd ∧ writeWord w v s = accept v s) := by
  cases w with
  | cmd => exact .inr ⟨rfl, unlessBusy_of_idle _ h⟩
  | ctrl => exact .inl (writeCtrl_phase_of_idle h)
  | id | capIn | capAux | capOut | reserved | status => exact .inl h
  | inLen | auxLen | outLen | res0 | res1 => exact .inl (unlessBusy_phase_of_idle h h)
  | bufByte b i =>
    cases b with
    | inp | aux | out => exact .inl (unlessBusy_phase_of_idle h h)

theorem tick_of_idle {s : State} (h : s.phase = .idle) : tick s = .next s := by
  simp [tick, h]

theorem releaseReset_phase_of_idle {s : State} (h : s.phase = .idle) : (releaseReset s).phase = .idle := by
  unfold releaseReset
  split
  · rfl
  · exact h
  · exact h

theorem SameBlock.phase_eq {s t : State} (h : SameBlock s t) : t.phase = s.phase := by
  rw [SameBlock] at h
  rw [h]

/-- What one step can do to an IDLE engine: leave it IDLE, or accept what the host writes to CMD. -/
theorem step_of_idle_cases {s t : State} (hidle : s.phase = .idle) (h : step s = .next t) :
    t.phase = .idle ∨ ∃ v rest, s.host = .write (s.cfg.base + 0x00C) 4 v :: rest ∧
      t = accept v { s.passTurn with host := rest } := by
  obtain ⟨-, htick⟩ | ⟨-, rfl⟩ | ⟨-, -, -, hhost⟩ | rfl | rfl | rfl := step_cases h
  · rw [tick_of_idle (s := s.passTurn) hidle] at htick
    cases htick
    exact .inl hidle
  · exact .inl hidle
  · obtain hsame | ⟨off, v, rest, hh, rfl⟩ := hostStep_cases hhost
    · exact .inl (hsame.phase_eq.trans hidle)
    · refine (writeWord_of_idle_cases (s := { s.passTurn with host := rest }) hidle).imp_right ?_
      rintro ⟨hcmd, haccept⟩
      exact ⟨v, rest, offset_of_cmd hcmd ▸ hh, haccept⟩
  · exact .inl hidle
  · exact .inl (releaseReset_phase_of_idle (s := s.passTurn) hidle)
  · exact .inl hidle

/-! ## The statements -/

/-- Settles O6: the due tick completes with the error, in the state without the turn. -/
theorem illegalWordCompletesWithIllegalCommand : Obligations.IllegalWordCompletesWithIllegalCommand := by
  intro s hm hb hr hd
  refine ⟨completeErr .illegalCommand { s.passTurn with rem := 0 }, ?_, rfl, rfl, rfl, rfl, rfl, rfl, rfl, rfl, rfl,
    rfl, rfl, rfl, rfl⟩
  rw [step_of_engineMoves hm, tick_of_due (s := s.passTurn) hb hr.le]
  exact runLatched_of_illegal hd

/-- Settles O60: the step is `checkReg` in the state without the instruction. -/
theorem assertChecksAndGoesOn : Obligations.AssertChecksAndGoesOn := by
  intro s src imm rest hm hh
  have hstep : step s = .next (checkReg src imm s.issued) := step_of_hostMoves hm hh
  rw [checkReg_eq, issued_hostReg] at hstep
  refine ⟨fun heq => ?_, fun hne => ?_, fun hnone => ?_, hostReg_tableSet s⟩
  · rw [hstep, if_pos heq]
  · rw [hstep, if_neg hne]
  · rw [State.hostReg, hnone]
    rfl

/-- Settles O18: a step from IDLE that does not stay there is the acceptance of a CMD write. -/
theorem onlyCmdWriteStartsACommand : Obligations.OnlyCmdWriteStartsACommand := by
  intro s t hidle h hbusy
  obtain hstill | ⟨v, rest, hh, rfl⟩ := step_of_idle_cases hidle h
  · rw [hstill] at hbusy
    cases hbusy
  · exact ⟨v, rest, hh, accept_cmdl ..⟩

end Sys2Proof.Machine
end

section
/-! PROOFS. Numbers as digit strings, most significant digit first: the datapath's `digitsOf`, `beNat` and `minBE`
(spec/00_scope.md R14). -/

namespace Sys2Proof.Machine

/-! ## Digit strings in a base -/

/-- The number that a string of digits denotes, most significant digit first. -/
def ofDigitsBE (base : Nat) (ds : List Nat) : Nat := ds.foldl (fun n d => base * n + d) 0

theorem ofDigitsBE_eq_ofDigits (base : Nat) (ds : List Nat) : ofDigitsBE base ds = Nat.ofDigits base ds.reverse := by
  rw [Nat.ofDigits_eq_foldr, List.foldr_reverse, ofDigitsBE]
  simp only [Nat.cast_id, Nat.add_comm]

theorem ofDigitsBE_replicate_zero_append (base k : Nat) (ds : List Nat) :
    ofDigitsBE base (List.replicate k 0 ++ ds) = ofDigitsBE base ds := by
  simp only [ofDigitsBE_eq_ofDigits, List.reverse_append, List.reverse_replicate, Nat.ofDigits_append_replicate_zero]

/-- Every division at least halves the number, so `k` divisions are enough below `2 ^ k`. -/
theorem digitsUpTo_eq_digits {base k n : Nat} (hb : 1 < base) (hn : n < 2 ^ k) :
    digitsUpTo base k n = Nat.digits base n := by
  induction k generalizing n with
  | zero =>
    obtain rfl : n = 0 := Nat.lt_one_iff.mp hn
    rw [digitsUpTo, Nat.digits_zero]
  | succ k ih =>
    rw [digitsUpTo]
    split_ifs with h0
    · rw [h0, Nat.digits_zero]
    · have hhalf : n / base ≤ n / 2 := Nat.div_le_div_left hb (by decide)
      rw [Nat.digits_def' hb (Nat.pos_of_ne_zero h0), ih (by omega)]

theorem digitsOf_eq_digits {base : Nat} (hb : 1 < base) (n : Nat) : digitsOf base n = Nat.digits base n :=
  digitsUpTo_eq_digits hb Nat.lt_log2_self

theorem lt_of_mem_digitsOf {base n d : Nat} (hb : 1 < base) (hd : d ∈ (digitsOf base n).reverse) : d < base := by
  rw [List.mem_reverse, digitsOf_eq_digits hb] at hd
  exact Nat.digits_lt_base hb hd

/-- The digits denote their number. -/
theorem ofDigitsBE_digitsOf {base : Nat} (hb : 1 < base) (n : Nat) : ofDigitsBE base (digitsOf base n).reverse = n := by
  rw [ofDigitsBE_eq_ofDigits, List.reverse_reverse, digitsOf_eq_digits hb, Nat.ofDigits_digits]

/-- The first digit is not 0. -/
theorem digitsOf_reverse_head?_ne_zero {base : Nat} (hb : 1 < base) (n : Nat) :
    (digitsOf base n).reverse.head? ≠ some 0 := by
  rw [List.head?_reverse, digitsOf_eq_digits hb]
  by_cases h0 : n = 0
  · simp [h0]
  · rw [List.getLast?_eq_some_getLast (Nat.digits_ne_nil_iff_ne_zero.mpr h0), ne_eq, Option.some.injEq]
    exact Nat.getLast_digit_ne_zero base h0

/-- A string of digits whose first is not 0 is the digits of the number it denotes. -/
theorem digitsOf_ofDigitsBE {base : Nat} {ds : List Nat} (hb : 1 < base) (hlt : ∀ d ∈ ds, d < base)
    (hhead : ds.head? ≠ some 0) : (digitsOf base (ofDigitsBE base ds)).reverse = ds := by
  rw [digitsOf_eq_digits hb, ofDigitsBE_eq_ofDigits, Nat.digits_ofDigits base hb, List.reverse_reverse]
  · simpa using hlt
  · intro hne hlast
    rw [← List.getLast?_reverse, List.getLast?_eq_some_getLast hne, hlast] at hhead
    exact hhead rfl

/-! ## Byte strings -/

theorem beNat_eq_ofDigitsBE (bs : Bytes) : beNat bs = ofDigitsBE 256 (bs.map BitVec.toNat) := by
  rw [beNat, ofDigitsBE, List.foldl_map]

theorem beNat_replicate_zero_append (k : Nat) (bs : Bytes) : beNat (List.replicate k 0#8 ++ bs) = beNat bs := by
  simp only [beNat_eq_ofDigitsBE, List.map_append, List.map_replicate, BitVec.toNat_zero,
    ofDigitsBE_replicate_zero_append]

theorem map_toNat_minBE (n : Nat) : (minBE n).map BitVec.toNat = (digitsOf 256 n).reverse := by
  rw [minBE, List.map_map]
  refine (List.map_congr_left fun d hd => ?_).trans (List.map_id _)
  exact BitVec.toNat_ofNat .. |>.trans (Nat.mod_eq_of_lt (lt_of_mem_digitsOf (by decide) hd))

theorem beNat_minBE (n : Nat) : beNat (minBE n) = n := by
  rw [beNat_eq_ofDigitsBE, map_toNat_minBE, ofDigitsBE_digitsOf (by decide)]

theorem map_toNat_head?_eq_zero_iff {bs : Bytes} : (bs.map BitVec.toNat).head? = some 0 ↔ bs.head? = some 0#8 := by
  cases bs with
  | nil => simp
  | cons b bs => simpa using BitVec.toNat_eq (x := b) (y := 0#8) |>.symm

theorem minBE_head?_ne_zero (n : Nat) : (minBE n).head? ≠ some 0#8 := by
  rw [ne_eq, ← map_toNat_head?_eq_zero_iff, map_toNat_minBE]
  exact digitsOf_reverse_head?_ne_zero (by decide) n

/-- A byte string with no leading zero byte is the shortest rendering of its number. -/
theorem minBE_beNat {bs : Bytes} (h : bs.head? ≠ some 0#8) : minBE (beNat bs) = bs := by
  have hdigits : (digitsOf 256 (beNat bs)).reverse = bs.map BitVec.toNat := by
    rw [beNat_eq_ofDigitsBE]
    refine digitsOf_ofDigitsBE (by decide) ?_ (mt map_toNat_head?_eq_zero_iff.mp h)
    exact List.forall_mem_map.mpr fun b _ => b.isLt
  rw [minBE, hdigits, List.map_map]
  exact (List.map_congr_left fun b _ => BitVec.ofNat_toNat .. |>.trans (BitVec.setWidth_eq b)).trans (List.map_id _)

/-! ## Leading symbols -/

theorem leadingCount_replicate_append {b : Byte} {s : Bytes} (k : Nat) (h : s.head? ≠ some b) :
    leadingCount b (List.replicate k b ++ s) = k := by
  have hnone : s.takeWhile (· == b) = [] := by
    cases s with
    | nil => rfl
    | cons c s => exact List.takeWhile_cons_of_neg (by simpa using h)
  rw [leadingCount, List.takeWhile_append_of_pos (by simp), hnone, List.append_nil, List.length_replicate]

/-- A string is its leading symbols `b` and a rest that does not begin with `b`. -/
theorem exists_replicate_append (b : Byte) (s : Bytes) :
    ∃ k rest, s = List.replicate k b ++ rest ∧ rest.head? ≠ some b := by
  induction s with
  | nil => exact ⟨0, [], rfl, by simp⟩
  | cons c s ih =>
    by_cases hc : c = b
    · obtain ⟨k, rest, rfl, hrest⟩ := ih
      exact ⟨k + 1, rest, by rw [hc]; rfl, hrest⟩
    · exact ⟨0, c :: s, rfl, by simpa using hc⟩

end Sys2Proof.Machine
end

section
/-! PROOFS. The Base58Check codec: its alphabet, its two functions, the checksum, and the statements about them
(spec/40_base58check.md R100 to R111). -/

namespace Sys2Proof.Machine

/-! ## The alphabet -/

theorem base58Alphabet_length : base58Alphabet.length = 58 := by decide

theorem base58Char_mem (d : Nat) : base58Char d ∈ base58Alphabet := by
  rw [base58Char, List.getD_eq_getElem?_getD]
  cases h : base58Alphabet[d]? with
  | none => decide
  | some c => exact List.mem_of_getElem? h

theorem base58Digit_eq_none_iff {c : Byte} : base58Digit c = none ↔ c ∉ base58Alphabet := List.idxOf?_eq_none_iff

/-- No byte stands twice in the alphabet. -/
theorem base58Digit_base58Char : ∀ d < 58, base58Digit (base58Char d) = some d := by decide

theorem base58Char_idxOf {c : Byte} (h : c ∈ base58Alphabet) : base58Char (base58Alphabet.idxOf c) = c := by
  rw [base58Char, List.getD_eq_getElem _ _ (List.idxOf_lt_length_iff.mpr h), List.getElem_idxOf]

/-- A string over the alphabet is the characters of a string of digits. -/
theorem exists_map_base58Char {t : Bytes} (h : ∀ c ∈ t, c ∈ base58Alphabet) :
    ∃ ds : List Nat, (∀ d ∈ ds, d < 58) ∧ t = ds.map base58Char := by
  refine ⟨t.map base58Alphabet.idxOf, List.forall_mem_map.mpr fun c hc => ?_, ?_⟩
  · exact base58Alphabet_length ▸ List.idxOf_lt_length_iff.mpr (h c hc)
  · rw [List.map_map]
    exact ((List.map_congr_left fun c hc => base58Char_idxOf (h c hc)).trans (List.map_id t)).symm

theorem map_base58Digit_map_base58Char {ds : List Nat} (hlt : ∀ d ∈ ds, d < 58) :
    (ds.map base58Char).map base58Digit = ds.map some := by
  rw [List.map_map]
  exact List.map_congr_left fun d hd => base58Digit_base58Char d (hlt d hd)

/-- The digit 0 alone has the zero-symbol. -/
theorem map_base58Char_head?_eq_zeroSymbol_iff {ds : List Nat} (hlt : ∀ d ∈ ds, d < 58) :
    (ds.map base58Char).head? = some zeroSymbol ↔ ds.head? = some 0 := by
  cases ds with
  | nil => simp
  | cons d ds =>
    rw [List.map_cons, List.head?_cons, List.head?_cons, Option.some.injEq, Option.some.injEq]
    refine ⟨fun h => ?_, fun h => by rw [h]; rfl⟩
    have hdigit := base58Digit_base58Char d (hlt d List.mem_cons_self)
    rw [h] at hdigit
    exact (Option.some.inj hdigit).symm

/-! ## Encoding and decoding -/

/-- The leading zero bytes and the rest are encoded apart (spec/40_base58check.md R100). -/
theorem base58Encode_replicate_append {bs : Bytes} (k : Nat) (h : bs.head? ≠ some 0#8) :
    base58Encode (List.replicate k 0#8 ++ bs) =
      List.replicate k zeroSymbol ++ (digitsOf 58 (beNat bs)).reverse.map base58Char := by
  have hcount : leadingCount 0 (List.replicate k 0#8 ++ bs) = k := leadingCount_replicate_append k h
  rw [base58Encode, hcount, beNat_replicate_zero_append]

theorem base58Accumulate_of_digits {t : Bytes} {ds : List Nat} (h : t.map base58Digit = ds.map some) (n : Nat) :
    base58Accumulate n t = .ok (ds.foldl (fun n d => 58 * n + d) n) := by
  induction t generalizing n ds with
  | nil =>
    obtain rfl : ds = [] := List.map_eq_nil_iff.mp h.symm
    rfl
  | cons c t ih =>
    obtain ⟨d, ds, rfl, hd, hds⟩ := List.map_eq_cons_iff.mp h.symm
    rw [base58Accumulate, ← hd]
    exact ih hds.symm _

theorem base58Accumulate_of_not_mem {t : Bytes} (h : ∃ c ∈ t, c ∉ base58Alphabet) (n : Nat) :
    base58Accumulate n t = .error .invalidCharacter := by
  induction t generalizing n with
  | nil => simp at h
  | cons c t ih =>
    rw [base58Accumulate]
    cases hc : base58Digit c with
    | none => rfl
    | some d =>
      refine ih ?_ _
      have hmem : ¬ c ∉ base58Alphabet := mt base58Digit_eq_none_iff.mpr (by simp [hc])
      simpa [hmem] using h

/-- A string of digits decodes to a zero byte for each leading zero-symbol and the shortest rendering of its value
(spec/40_base58check.md R102). -/
theorem base58Decode_of_digits {t : Bytes} {ds : List Nat} (h : t.map base58Digit = ds.map some) :
    base58Decode t = .ok (List.replicate (leadingCount zeroSymbol t) 0#8 ++ minBE (ofDigitsBE 58 ds)) := by
  rw [base58Decode, base58Accumulate_of_digits h]
  rfl

theorem base58Decode_of_not_mem {t : Bytes} (h : ∃ c ∈ t, c ∉ base58Alphabet) :
    base58Decode t = .error .invalidCharacter := by
  rw [base58Decode, base58Accumulate_of_not_mem h]

/-- The leading zero-symbols and the rest are decoded apart. -/
theorem base58Decode_replicate_append_map {ds : List Nat} (k : Nat) (hlt : ∀ d ∈ ds, d < 58)
    (hhead : ds.head? ≠ some 0) :
    base58Decode (List.replicate k zeroSymbol ++ ds.map base58Char) =
      .ok (List.replicate k 0#8 ++ minBE (ofDigitsBE 58 ds)) := by
  have hdigits : (List.replicate k zeroSymbol ++ ds.map base58Char).map base58Digit =
      (List.replicate k 0 ++ ds).map some := by
    have hzero : base58Digit zeroSymbol = some 0 := by decide
    simp only [List.map_append, List.map_replicate, hzero, map_base58Digit_map_base58Char hlt]
  rw [base58Decode_of_digits hdigits, ofDigitsBE_replicate_zero_append,
    leadingCount_replicate_append k (mt (map_base58Char_head?_eq_zeroSymbol_iff hlt).mp hhead)]

theorem base58Decode_base58Encode (bs : Bytes) : base58Decode (base58Encode bs) = .ok bs := by
  obtain ⟨k, rest, rfl, hrest⟩ := exists_replicate_append 0#8 bs
  rw [base58Encode_replicate_append k hrest, base58Decode_replicate_append_map k
    (fun _ => lt_of_mem_digitsOf (by decide)) (digitsOf_reverse_head?_ne_zero (by decide) _),
    ofDigitsBE_digitsOf (by decide), minBE_beNat hrest]

theorem exists_base58Decode_eq {t : Bytes} (h : ∀ c ∈ t, c ∈ base58Alphabet) :
    ∃ bs, base58Decode t = .ok bs ∧ base58Encode bs = t := by
  obtain ⟨k, rest, rfl, hrest⟩ := exists_replicate_append zeroSymbol t
  obtain ⟨ds, hlt, rfl⟩ := exists_map_base58Char fun c hc => h c (List.mem_append_right _ hc)
  have hhead : ds.head? ≠ some 0 := mt (map_base58Char_head?_eq_zeroSymbol_iff hlt).mpr hrest
  refine ⟨_, base58Decode_replicate_append_map k hlt hhead, ?_⟩
  rw [base58Encode_replicate_append k (minBE_head?_ne_zero _), beNat_minBE, digitsOf_ofDigitsBE (by decide) hlt hhead]

theorem base58Encode_mem {bs : Bytes} {c : Byte} (h : c ∈ base58Encode bs) : c ∈ base58Alphabet := by
  obtain hzero | hdigit := List.mem_append.mp h
  · rw [List.eq_of_mem_replicate hzero]
    decide
  · obtain ⟨d, _, rfl⟩ := List.mem_map.mp hdigit
    exact base58Char_mem d

/-! ## The checksum -/

theorem hash2_length (m : Bytes) : (hash2 m).length = 32 := rfl

theorem checksum4_length (d : Bytes) : (checksum4 d).length = 4 := by
  rw [checksum4, List.length_take, hash2_length]
  rfl

/-- A decoded string of a version byte, a payload and 4 more bytes: the checksum decides
(spec/40_base58check.md R108). -/
theorem base58checkDecode_of_split {t p ck : Bytes} {v : Byte} (h : base58Decode t = .ok (v :: p ++ ck))
    (hck : ck.length = 4) :
    base58checkDecode t = if checksum4 (v :: p) ≠ ck then .error .checksumMismatch else .ok (v, p) := by
  have hlen : (v :: p ++ ck).length - 4 = (v :: p).length := by rw [List.length_append, hck, Nat.add_sub_cancel]
  have hlong : ¬ (v :: p ++ ck).length < minB58chkLen := by simp [hck, minB58chkLen]
  rw [base58checkDecode, h]
  simp only [if_neg hlong, hlen, List.take_left, List.drop_left, List.headD_cons, List.tail_cons]

theorem base58checkDecode_of_short {t d : Bytes} (h : base58Decode t = .ok d) (hd : d.length < 5) :
    base58checkDecode t = .error .tooShort := by
  rw [base58checkDecode, h]
  exact if_pos hd

theorem base58checkDecode_of_not_mem {t : Bytes} (h : ∃ c ∈ t, c ∉ base58Alphabet) :
    base58checkDecode t = .error .invalidCharacter := by
  rw [base58checkDecode, base58Decode_of_not_mem h]

/-- What the encoder makes of a version byte and a payload decodes to them (spec/40_base58check.md R111). -/
theorem base58checkDecode_base58Encode (v : Byte) (p : Bytes) :
    base58checkDecode (base58Encode (base58checkBytes v p)) = .ok (v, p) := by
  have hdecode := base58Decode_base58Encode (base58checkBytes v p)
  exact (base58checkDecode_of_split hdecode (checksum4_length _)).trans (if_neg (not_not_intro rfl))

/-! ## The commands -/

section Commands

variable {s : State} {t : Bytes}

theorem resultOf_b58Enc (h : s.snapIn = some t) : resultOf .b58Enc s = finish s.cfg (base58Encode t) none 0 0 := by
  rw [resultOf, resultB58Enc, h, readOperand_some]

theorem resultOf_b58Dec (h : s.snapIn = some t) :
    resultOf .b58Dec s = orRaise (base58Decode t) fun bs => finish s.cfg bs none 0 0 := by
  rw [resultOf, resultB58Dec, h, readOperand_some]

theorem resultOf_b58chkEnc (v : Byte) (h : s.snapIn = some t) :
    resultOf (.b58chkEnc v) s = finish s.cfg (base58Encode (base58checkBytes v t)) none 0 0 := by
  rw [resultOf, resultB58chkEnc, h, readOperand_some]

theorem resultOf_b58chkDec (h : s.snapIn = some t) :
    resultOf .b58chkDec s = orRaise (base58checkDecode t) fun r => finish s.cfg r.2 none (zext r.1) 0 := by
  rw [resultOf, resultB58chkDec, h, readOperand_some]

theorem failsWith_b58chkDec {e : ErrorCode} (h : s.snapIn = some t) (he : base58checkDecode t = .error e) :
    FailsWith .b58chkDec s e.code :=
  failsWith_of_result (by rw [resultOf_b58chkDec h, he, orRaise_error])

theorem completesIfFits_b58chkDec {v : Byte} {p : Bytes} (hc : s.cfg.wf = true) (h : s.snapIn = some t)
    (hd : base58checkDecode t = .ok (v, p)) : CompletesIfFits .b58chkDec s p (BitVec.ofNat 32 v.toNat) 0 := by
  refine completesIfFits_of_finish hc ?_
  rw [resultOf_b58chkDec h, hd, orRaise_ok, BitVec.ofNat_toNat, zext]

end Commands

/-- OUT after a completion is the command's result, whatever the parameters. -/
theorem CompletesWith.exists_result {i : Instr} {s : State} {out : Bytes} {aux : Option Bytes} {r0 r1 : Word}
    (h : CompletesWith i s out aux r0 r1) : ∃ c, resultOf i s = .ok c ∧ c.out = out := by
  obtain ⟨t, ht, hcode, -, -, -, -, hout, -⟩ := h
  obtain ⟨c, hc, rfl⟩ | ⟨e, -, rfl⟩ := exec_next ht
  · refine ⟨c, hc, List.ext_getElem? fun k => ?_⟩
    rw [← hout k, completeOk_outBuf, Memory.read_ofBytes]
  · exact absurd hcode (ErrorCode_code_ne_zero e)

/-! ## The statements -/

/-- Settles O34: the digits are those of the string's number. -/
theorem base58EncodeIsTheDigitString : Obligations.Base58EncodeIsTheDigitString := by
  intro bs
  have hlt : ∀ d ∈ (digitsOf 58 (beNat bs)).reverse, d < 58 := fun _ => lt_of_mem_digitsOf (by decide)
  refine ⟨(digitsOf 58 (beNat bs)).reverse, ?_, hlt, digitsOf_reverse_head?_ne_zero (by decide) _,
    ofDigitsBE_digitsOf (by decide) _⟩
  refine congrArg (_ ++ ·) (List.map_congr_left fun d hd => ?_)
  have hd' : d < base58Alphabet.length := base58Alphabet_length ▸ hlt d hd
  rw [base58Char, List.getD_eq_getElem _ _ hd', List.getD_eq_getElem _ _ hd']

/-- Settles O35: the body is the shortest rendering of the digits' value. -/
theorem b58DecCompletes : Obligations.B58DecCompletes := by
  intro s t hc hs
  refine ⟨fun hbad => ?_, fun ds hds => ?_⟩
  · refine failsWith_of_result (e := .invalidCharacter) ?_
    rw [resultOf_b58Dec hs, base58Decode_of_not_mem hbad, orRaise_error]
  · refine ⟨minBE (ofDigitsBE 58 ds), minBE_head?_ne_zero _, beNat_minBE _, completesIfFits_of_finish hc ?_⟩
    rw [resultOf_b58Dec hs, base58Decode_of_digits hds, orRaise_ok]
    rfl

/-- Settles O36: both functions take leading symbols to leading symbols, and invert each other on a rest that begins
with none. -/
theorem base58IsABijection : Obligations.Base58IsABijection :=
  ⟨base58Decode_base58Encode, fun _ => exists_base58Decode_eq, fun _ _ => base58Encode_mem⟩

/-- Settles O38: the four outcomes of the decoder. -/
theorem b58chkDecOutcome : Obligations.B58chkDecOutcome := by
  intro s t hc hs
  refine ⟨fun hbad => ?_, fun d hd hshort => ?_, fun v p ck hd hck hne => ?_, fun v p ck hd hck heq => ?_⟩
  · exact failsWith_b58chkDec hs (base58checkDecode_of_not_mem hbad)
  · exact failsWith_b58chkDec hs (base58checkDecode_of_short hd hshort)
  · exact failsWith_b58chkDec hs ((base58checkDecode_of_split hd hck).trans (if_pos hne))
  · exact completesIfFits_b58chkDec hc hs ((base58checkDecode_of_split hd hck).trans (if_neg (not_not_intro heq)))

/-- Settles O39: the string collected is the encoder's, and it decodes to the version byte and the payload. -/
theorem base58CheckRoundTrip : Obligations.Base58CheckRoundTrip := by
  intro s₁ s₂ v p str hc hs₁ henc hs₂ hfits
  obtain ⟨c, hresult, rfl⟩ := henc.exists_result
  obtain ⟨rfl, -, -⟩ := finish_ok ((resultOf_b58chkEnc v hs₁).symm.trans hresult)
  exact (completesIfFits_b58chkDec hc hs₂ (base58checkDecode_base58Encode v p)).1 hfits

/-- Settles O33, by the rule for one `finish`. -/
theorem b58EncCompletes : Obligations.B58EncCompletes := fun _ _ hc hs =>
  completesIfFits_of_finish hc (resultOf_b58Enc hs)

/-- Settles O37: the double hash has 32 bytes, and the encoder's string is the version byte, the payload and the
checksum. -/
theorem b58chkEncCompletes : Obligations.B58chkEncCompletes := fun _ v _ hc hs =>
  ⟨checksum4_length _, completesIfFits_of_finish hc (resultOf_b58chkEnc v hs)⟩

end Sys2Proof.Machine
end

section
/-! PROOFS. The bit-width converter (spec/41_bitpack.md): the low bits of a number as a bit string, the invariant of
the accumulator, and the statements about `convertBits` and CONVBITS. -/

namespace Sys2Proof.Machine

/-! ## The low bits of a number -/

@[simp] theorem bitsOf_length (w v : Nat) : (bitsOf w v).length = w := by simp [bitsOf]

theorem bitsOf_congr {w a b : Nat} (h : ∀ k < w, a.testBit k = b.testBit k) : bitsOf w a = bitsOf w b :=
  List.map_congr_left fun k hk => h k (by simpa using hk)

theorem bitsOf_zero (w : Nat) : bitsOf w 0 = List.replicate w false := by simp [bitsOf]

theorem bitsOf_add (m n v : Nat) : bitsOf (m + n) v = bitsOf m (v >>> n) ++ bitsOf n v := by
  have htop : (fun k => (v >>> n).testBit k) = (fun k => v.testBit k) ∘ (n + ·) :=
    funext fun k => Nat.testBit_shiftRight ..
  rw [bitsOf, bitsOf, bitsOf, Nat.add_comm m n, List.range_add, List.reverse_append, List.map_append,
    ← List.map_reverse, List.map_map, htop]

theorem bitsOf_and_mask {w m : Nat} (v : Nat) (h : w ≤ m) : bitsOf w (v &&& mask m) = bitsOf w v :=
  bitsOf_congr fun k hk => by simp [mask, Nat.lt_of_lt_of_le hk h]

theorem bitsOf_inj {w a b : Nat} (ha : a < 2 ^ w) (hb : b < 2 ^ w) (h : bitsOf w a = bitsOf w b) : a = b := by
  have hbits : ∀ k < w, a.testBit k = b.testBit k := by simpa [bitsOf] using h
  refine Nat.eq_of_testBit_eq fun k => ?_
  obtain hk | hk := Nat.lt_or_ge k w
  · exact hbits k hk
  · have hpow : 2 ^ w ≤ 2 ^ k := Nat.pow_le_pow_right (by decide) hk
    rw [Nat.testBit_eq_false_of_lt (ha.trans_le hpow), Nat.testBit_eq_false_of_lt (hb.trans_le hpow)]

/-- A number of at most `w` bits has only zeros among them exactly when it is 0. -/
theorem forall_mem_bitsOf_iff {w v : Nat} (h : v < 2 ^ w) : (∀ b ∈ bitsOf w v, b = false) ↔ v = 0 := by
  have hmem : (∀ b ∈ bitsOf w v, b = false) ↔ bitsOf w v = bitsOf w 0 := by simp [bitsOf_zero, List.eq_replicate_iff]
  exact hmem.trans ⟨bitsOf_inj h (Nat.two_pow_pos w), fun hv => by rw [hv]⟩

theorem bitsOf_of_lt {m n v : Nat} (h : v < 2 ^ n) : bitsOf (m + n) v = List.replicate m false ++ bitsOf n v := by
  rw [bitsOf_add, Nat.shiftRight_eq_div_pow, Nat.div_eq_of_lt h, bitsOf_zero]

theorem bitsOf_shiftLeft (n f v : Nat) : bitsOf (n + f) (v <<< f) = bitsOf n v ++ List.replicate f false := by
  have hlow : bitsOf f (v <<< f) = bitsOf f 0 := bitsOf_congr fun k hk => by simp [Nat.not_le.mpr hk]
  rw [bitsOf_add, Nat.shiftLeft_shiftRight, hlow, bitsOf_zero]

theorem orBits_bitsOf (w a b : Nat) : orBits (bitsOf w a) (bitsOf w b) = bitsOf w (a ||| b) := by
  simp only [orBits, bitsOf, List.zipWith_map, List.zipWith_self, Nat.testBit_or]

theorem orBits_replicate_false (l : List Bool) : orBits l (List.replicate l.length false) = l := by
  induction l with
  | nil => rfl
  | cons b l ih =>
    rw [List.length_cons, List.replicate_succ, orBits, List.zipWith_cons_cons, Bool.or_false, ← orBits, ih]

theorem orBits_comm (a b : List Bool) : orBits a b = orBits b a := by
  rw [orBits, List.zipWith_comm, orBits]
  exact congrArg (List.zipWith · b a) (funext fun x => funext fun y => Bool.or_comm y x)

/-- Bits put into the zeros below the pending ones merge with none of them. -/
theorem orBits_replicate_append (pending low : List Bool) :
    orBits (pending ++ List.replicate low.length false) (List.replicate pending.length false ++ low) =
      pending ++ low := by
  rw [orBits, List.zipWith_append (by simp), ← orBits, ← orBits, orBits_replicate_false, orBits_comm,
    orBits_replicate_false]

/-! ## Bit streams -/

@[simp] theorem bitStream_nil (w : Nat) : bitStream w [] = [] := rfl

@[simp] theorem bitStream_cons (w : Nat) (v : Byte) (vs : Bytes) :
    bitStream w (v :: vs) = bitsOf w v.toNat ++ bitStream w vs := rfl

@[simp] theorem bitStream_append (w : Nat) (a b : Bytes) : bitStream w (a ++ b) = bitStream w a ++ bitStream w b :=
  List.flatMap_append

@[simp] theorem bitStream_length (w : Nat) (vals : Bytes) : (bitStream w vals).length = vals.length * w := by
  simp [bitStream, List.length_flatMap]

theorem fitsBits_cons {w : Nat} {v : Byte} {vs : Bytes} : fitsBits w (v :: vs) ↔ v.toNat < 2 ^ w ∧ fitsBits w vs :=
  List.forall_mem_cons

theorem fitsBits_append {w : Nat} {a b : Bytes} : fitsBits w (a ++ b) ↔ fitsBits w a ∧ fitsBits w b :=
  List.forall_mem_append

theorem fitsBits_eight (vals : Bytes) : fitsBits 8 vals := fun v _ => v.isLt

/-- A string of values that fit is known from its length and its bit stream. -/
theorem bitStream_inj {w : Nat} {a b : Bytes} (hlen : a.length = b.length) (ha : fitsBits w a) (hb : fitsBits w b)
    (h : bitStream w a = bitStream w b) : a = b := by
  induction a generalizing b with
  | nil => exact (List.length_eq_zero_iff.mp hlen.symm).symm
  | cons x xs ih =>
    obtain ⟨y, ys, rfl⟩ := List.exists_cons_of_length_eq_add_one hlen.symm
    obtain ⟨⟨hx, hxs⟩, hy, hys⟩ := And.intro (fitsBits_cons.mp ha) (fitsBits_cons.mp hb)
    obtain ⟨hhead, htail⟩ := List.append_inj h (by simp)
    rw [BitVec.eq_of_toNat_eq (bitsOf_inj hx hy hhead), ih (Nat.succ.inj hlen) hxs hys htail]

@[simp] theorem mergedStream_length (f t : Nat) (pending : List Bool) (data : Bytes) :
    (mergedStream f t pending data).length = pending.length + data.length * f := by
  induction data generalizing pending with
  | nil => simp [mergedStream]
  | cons v vs ih =>
    simp only [mergedStream, List.length_append, ih, List.length_cons, Nat.succ_mul]
    simp only [← Nat.add_assoc, ← List.length_append, List.take_append_drop]
    simp [orBits]
    omega

/-- Values that fit merge with nothing (spec/41_bitpack.md R132, R138). -/
theorem mergedStream_of_fits {f : Nat} (t : Nat) {data : Bytes} (h : fitsBits f data) (pending : List Bool) :
    mergedStream f t pending data = pending ++ bitStream f data := by
  induction data generalizing pending with
  | nil => simp [mergedStream]
  | cons v vs ih =>
    obtain ⟨hv, hvs⟩ := fitsBits_cons.mp h
    have hor : orBits (pending ++ List.replicate f false) (bitsOf (pending.length + f) v.toNat) =
        pending ++ bitsOf f v.toNat := by
      simpa only [bitsOf_of_lt hv, bitsOf_length] using orBits_replicate_append pending (bitsOf f v.toNat)
    simp only [mergedStream, hor, ih hvs, bitStream_cons]
    rw [← List.append_assoc, List.take_append_drop, List.append_assoc]

/-! ## The accumulator -/

/-- A bit stream cut into values of `t` bits, and the fewer than `t` bits left in the accumulator: the low `nbits`
of `acc` (spec/41_bitpack.md R135). -/
structure Cuts (t : Nat) (stream : List Bool) (out : Bytes) (acc nbits : Nat) : Prop where
  stream_eq : bitStream t out ++ bitsOf nbits acc = stream
  pending_lt : nbits < t
  fits : fitsBits t out

namespace Cuts

variable {t acc nbits : Nat} {stream : List Bool} {out : Bytes}

theorem length_eq (h : Cuts t stream out acc nbits) : stream.length = nbits + out.length * t := by
  rw [← h.stream_eq, List.length_append, bitStream_length, bitsOf_length, Nat.add_comm]

theorem length_div (h : Cuts t stream out acc nbits) : stream.length / t = out.length := by
  rw [h.length_eq, Nat.add_mul_div_right _ _ (Nat.zero_lt_of_lt h.pending_lt), Nat.div_eq_of_lt h.pending_lt,
    Nat.zero_add]

theorem length_mod (h : Cuts t stream out acc nbits) : stream.length % t = nbits := by
  rw [h.length_eq, Nat.add_mul_mod_self_right, Nat.mod_eq_of_lt h.pending_lt]

theorem take_eq (h : Cuts t stream out acc nbits) : stream.take (out.length * t) = bitStream t out := by
  rw [← h.stream_eq, List.take_left' (bitStream_length t out)]

theorem drop_eq (h : Cuts t stream out acc nbits) : stream.drop (out.length * t) = bitsOf nbits acc := by
  rw [← h.stream_eq, List.drop_left' (bitStream_length t out)]

theorem prepend {front : Bytes} (hfront : fitsBits t front) (h : Cuts t stream out acc nbits) :
    Cuts t (bitStream t front ++ stream) (front ++ out) acc nbits where
  stream_eq := by rw [bitStream_append, List.append_assoc, h.stream_eq]
  pending_lt := h.pending_lt
  fits := fitsBits_append.mpr ⟨hfront, h.fits⟩

end Cuts

/-- The accumulator after a value holds the pending bits and the value, merged (spec/41_bitpack.md R132). -/
theorem bitsOf_convAcc {f t : Nat} (acc : Nat) (v : Byte) {nbits : Nat} (hn : nbits < t) :
    bitsOf (nbits + f) (convAcc f t acc v) =
      orBits (bitsOf nbits acc ++ List.replicate f false) (bitsOf (nbits + f) v.toNat) := by
  rw [convAcc, bitsOf_and_mask _ (by omega), ← orBits_bitsOf, bitsOf_shiftLeft]

section Widths

variable {f t : Nat} (ht : t ≤ 8)
include ht

theorem toNat_maskedByte (x : Nat) : (BitVec.ofNat 8 (x &&& mask t)).toNat = x &&& mask t := by
  rw [BitVec.toNat_ofNat, mask, Nat.and_two_pow_sub_one_eq_mod]
  exact Nat.mod_eq_of_lt ((Nat.mod_lt _ (Nat.two_pow_pos t)).trans_le (Nat.pow_le_pow_right (by decide) ht))

theorem maskedByte_lt (x : Nat) : (BitVec.ofNat 8 (x &&& mask t)).toNat < 2 ^ t := by
  rw [toNat_maskedByte ht, mask, Nat.and_two_pow_sub_one_eq_mod]
  exact Nat.mod_lt _ (Nat.two_pow_pos t)

theorem bitsOf_maskedByte (x : Nat) : bitsOf t (BitVec.ofNat 8 (x &&& mask t)).toNat = bitsOf t x := by
  rw [toNat_maskedByte ht, bitsOf_and_mask x le_rfl]

/-- The last group holds the leftover bits above zeros (spec/41_bitpack.md R134). -/
theorem bitsOf_convLast (acc : Nat) {nbits : Nat} (hn : nbits ≤ t) :
    bitsOf t (convLast t acc nbits).toNat = bitsOf nbits acc ++ List.replicate (t - nbits) false := by
  rw [convLast, bitsOf_maskedByte ht, ← bitsOf_shiftLeft, Nat.add_sub_cancel' hn]

theorem convLast_eq_zero_iff (acc : Nat) {nbits : Nat} (hn : nbits ≤ t) :
    convLast t acc nbits = 0 ↔ ∀ b ∈ bitsOf nbits acc, b = false := by
  have hlt : (convLast t acc nbits).toNat < 2 ^ t := maskedByte_lt ht _
  have hzero : convLast t acc nbits = 0 ↔ (convLast t acc nbits).toNat = 0 := BitVec.toNat_inj.symm
  rw [hzero, ← forall_mem_bitsOf_iff hlt, bitsOf_convLast ht acc hn, List.forall_mem_append]
  simp

/-- The inner loop cuts the bits that the accumulator holds (spec/41_bitpack.md R131). -/
theorem convEmit_cuts (acc : Nat) (hpos : 1 ≤ t) {k nbits : Nat} (hk : nbits ≤ k) :
    Cuts t (bitsOf nbits acc) (convEmit t acc k nbits).1 acc (convEmit t acc k nbits).2 := by
  induction k generalizing nbits with
  | zero =>
    obtain rfl : nbits = 0 := Nat.le_zero.mp hk
    exact ⟨rfl, hpos, by simp [convEmit, fitsBits]⟩
  | succ k ih =>
    by_cases hle : t ≤ nbits
    · have hgroup : bitsOf nbits acc = bitStream t [convGroup t acc (nbits - t)] ++ bitsOf (nbits - t) acc := by
        rw [bitStream_cons, bitStream_nil, List.append_nil, convGroup, bitsOf_maskedByte ht, ← bitsOf_add,
          Nat.add_sub_cancel' hle]
      rw [convEmit, if_pos hle, hgroup]
      exact (ih (by omega)).prepend (List.forall_mem_singleton.mpr (maskedByte_lt ht _))
    · rw [convEmit, if_neg hle]
      exact ⟨rfl, Nat.lt_of_not_le hle, by simp [fitsBits]⟩

/-- The outer loop cuts the merged stream of the pending bits and the values (spec/41_bitpack.md R131). -/
theorem convLoop_cuts (data : Bytes) {acc nbits : Nat} (hn : nbits < t) :
    Cuts t (mergedStream f t (bitsOf nbits acc) data) (convLoop f t data acc nbits).1
      (convLoop f t data acc nbits).2.1 (convLoop f t data acc nbits).2.2 := by
  induction data generalizing acc nbits with
  | nil => exact ⟨rfl, hn, by simp [convLoop, fitsBits]⟩
  | cons v vs ih =>
    have hemit := convEmit_cuts ht (convAcc f t acc v) (by omega) (le_refl (nbits + f))
    rw [mergedStream, bitsOf_length, ← bitsOf_convAcc acc v hn, hemit.length_div, hemit.take_eq, hemit.drop_eq]
    exact (ih hemit.pending_lt).prepend hemit.fits

theorem exists_convLoop_cuts (data : Bytes) (hpos : 1 ≤ t) : ∃ out acc nbits,
    convLoop f t data 0 0 = (out, acc, nbits) ∧ Cuts t (mergedStream f t [] data) out acc nbits :=
  ⟨_, _, _, rfl, convLoop_cuts ht (acc := 0) data hpos⟩

/-! ## The conversion -/

/-- With padding the stream is filled with zeros to whole groups (spec/41_bitpack.md R134, R135). -/
theorem exists_convertBits_padded (data : Bytes) (hpos : 1 ≤ t) :
    ∃ out, convertBits data f t true = .ok out ∧ out.length = (data.length * f + (t - 1)) / t ∧ fitsBits t out ∧
      bitStream t out = mergedStream f t [] data ++ List.replicate (out.length * t - data.length * f) false := by
  obtain ⟨out, acc, nbits, hloop, hcuts⟩ := exists_convLoop_cuts (f := f) ht data hpos
  have hlt := hcuts.pending_lt
  have hlen : data.length * f = nbits + out.length * t := by rw [← hcuts.length_eq]; simp
  simp only [convertBits, hloop, if_true]
  rw [hlen, Nat.add_right_comm, Nat.add_mul_div_right _ _ hpos, ← hcuts.stream_eq]
  split_ifs with hrest
  · refine ⟨_, rfl, ?_, fitsBits_append.mpr ⟨hcuts.fits, List.forall_mem_singleton.mpr (maskedByte_lt ht _)⟩, ?_⟩
    · rw [Nat.div_eq_of_lt_le (k := 1) (by omega) (by omega), List.length_append, List.length_singleton, Nat.add_comm]
    · have hpad : (out ++ [convLast t acc nbits]).length * t - (nbits + out.length * t) = t - nbits := by
        rw [List.length_append, List.length_singleton, Nat.succ_mul]
        omega
      rw [hpad, bitStream_append, bitStream_cons, bitStream_nil, bitsOf_convLast ht acc hlt.le, List.append_nil,
        List.append_assoc]
  · obtain rfl : nbits = 0 := Nat.eq_zero_of_not_pos hrest
    refine ⟨_, rfl, ?_, hcuts.fits, ?_⟩
    · rw [Nat.div_eq_of_lt (by omega), Nat.zero_add]
    · simp [bitsOf]

/-- Without padding the leftover bits decide (spec/41_bitpack.md R131). -/
theorem convertBits_unpadded_of_cuts {data out : Bytes} {stream : List Bool} {acc nbits : Nat}
    (hcuts : Cuts t stream out acc nbits) (hloop : convLoop f t data 0 0 = (out, acc, nbits)) :
    convertBits data f t false =
      if nbits < f ∧ ∀ b ∈ bitsOf nbits acc, b = false then .ok out else .error .paddingError := by
  simp only [convertBits, hloop, Bool.false_eq_true, if_false, ← convLast_eq_zero_iff ht acc hcuts.pending_lt.le,
    ← Nat.not_lt, ne_eq, ite_not, ite_and]

theorem convertBits_cases (data : Bytes) (pad : Bool) (hpos : 1 ≤ t) :
    convertBits data f t pad = .error .paddingError ∨ ∃ out, convertBits data f t pad = .ok out := by
  cases pad with
  | true =>
    obtain ⟨out, hout, -⟩ := exists_convertBits_padded ht data hpos
    exact .inr ⟨out, hout⟩
  | false =>
    obtain ⟨out, acc, nbits, hloop, hcuts⟩ := exists_convLoop_cuts (f := f) ht data hpos
    rw [convertBits_unpadded_of_cuts ht hcuts hloop]
    split_ifs
    · exact .inr ⟨out, rfl⟩
    · exact .inl rfl

end Widths

/-! ## The command -/

/-- CONVBITS on a snapshot: the widths, then the conversion, then the output check (spec/41_bitpack.md R133). -/
theorem resultOf_convbits {s : State} {data : Bytes} (f t : Nat) (pad : Bool) (h : s.snapIn = some data) :
    resultOf (.convbits f t pad) s =
      if 1 ≤ f ∧ f ≤ 8 ∧ 1 ≤ t ∧ t ≤ 8 then
        orRaise (convertBits data f t pad) fun out => finish s.cfg out none 0 0
      else .error .parameterError := by
  simp [resultOf, resultConvbits, h, convWidthsOk, and_assoc]

/-! ## The statements -/

/-- Settles O40: the order of the checks is that of `resultOf_convbits`. -/
theorem convbitsOutcome : Obligations.ConvbitsOutcome := by
  intro s f t pad data hc hs
  have hresult := resultOf_convbits f t pad hs
  refine ⟨fun hbad => ?_, fun hok => ⟨fun herr => ?_, fun out hout => ?_, ?_⟩⟩
  · exact failsWith_of_result (hresult.trans (if_neg hbad))
  · refine failsWith_of_result (e := .paddingError) ?_
    rw [hresult, if_pos hok, herr, orRaise_error]
  · refine completesIfFits_of_finish hc ?_
    rw [hresult, if_pos hok, hout, orRaise_ok]
  · obtain ⟨-, -, hpos, ht⟩ := hok
    exact convertBits_cases ht data pad hpos

/-- Settles O41: the loops cut the merged stream, and the last group fills it with zeros. -/
theorem paddedConversionKeepsTheBitStream : Obligations.PaddedConversionKeepsTheBitStream :=
  fun _ t data _ _ hpos ht => ⟨exists_convertBits_padded ht data hpos, fun hfits => mergedStream_of_fits t hfits []⟩

/-- Settles O42: the pending bits are the last `leftover` bits of the stream. -/
theorem unpaddedConversionAcceptance : Obligations.UnpaddedConversionAcceptance := by
  intro f t data _ _ hpos ht leftover stream
  obtain ⟨out, acc, nbits, hloop, hcuts⟩ := exists_convLoop_cuts (f := f) ht data hpos
  have hconv := convertBits_unpadded_of_cuts ht hcuts hloop
  have hlen : stream.length = data.length * f := by simp [stream]
  obtain rfl : leftover = nbits := by rw [← hcuts.length_mod, hlen]
  have hlast : stream.drop (data.length * f - leftover) = bitsOf leftover acc := by
    rw [← hlen, hcuts.length_eq, Nat.add_sub_cancel_left, hcuts.drop_eq]
  rw [hlast]
  refine ⟨fun hacc => ⟨out, hconv.trans (if_pos hacc), ?_, hcuts.fits, ?_⟩, fun hrej => hconv.trans (if_neg hrej),
    fun hfits => mergedStream_of_fits t hfits []⟩
  · rw [← hlen, hcuts.length_div]
  · have hzero := List.eq_replicate_of_mem hacc.2
    rw [bitsOf_length] at hzero
    rw [← hzero, hcuts.stream_eq]

/-- What an unpadded conversion of values that fit accepts, and what it then returns (spec/41_bitpack.md R136). -/
theorem convertBits_unpadded_of_ok {f t : Nat} {vals d : Bytes} (hf : 1 ≤ f) (hf8 : f ≤ 8) (hpos : 1 ≤ t)
    (ht : t ≤ 8) (hfits : fitsBits f vals) (h : convertBits vals f t false = .ok d) :
    (vals.length * f) % t < f ∧ d.length = (vals.length * f) / t ∧
      bitStream t d ++ List.replicate ((vals.length * f) % t) false = bitStream f vals := by
  obtain ⟨haccept, hreject, hstream⟩ := unpaddedConversionAcceptance f t vals hf hf8 hpos ht
  by_cases hacc : (vals.length * f) % t < f ∧
      ∀ b ∈ (mergedStream f t [] vals).drop (vals.length * f - (vals.length * f) % t), b = false
  · obtain ⟨out, hout, hlen, -, heq⟩ := haccept hacc
    obtain rfl : out = d := Except.ok.inj (hout.symm.trans h)
    exact ⟨hacc.1, hlen, heq.trans (hstream hfits)⟩
  · exact nomatch (hreject hacc).symm.trans h

/-- The symbols that bytes and their padding became (spec/41_bitpack.md R137), and their stream. -/
theorem exists_convertBits_eight_five (d : Bytes) :
    ∃ vals, convertBits d 8 5 true = .ok vals ∧ vals.length = (8 * d.length + 4) / 5 ∧ fitsBits 5 vals ∧
      bitStream 5 vals = bitStream 8 d ++ List.replicate (5 * vals.length - 8 * d.length) false := by
  have hpadded := exists_convertBits_padded (f := 8) (t := 5) (by decide) d (by decide)
  simpa only [mergedStream_of_fits 5 (fitsBits_eight d), List.nil_append, Nat.mul_comm _ 5, Nat.mul_comm _ 8]
    using hpadded

/-- Symbols whose stream is that of bytes and fewer than 5 zeros return those bytes. -/
theorem convertBits_five_eight_of_stream {vals d : Bytes} (hfits : fitsBits 5 vals)
    (hpad : 5 * vals.length - 8 * d.length < 5)
    (hstream : bitStream 5 vals = bitStream 8 d ++ List.replicate (5 * vals.length - 8 * d.length) false) :
    convertBits vals 5 8 false = .ok d := by
  have hlen := congrArg List.length hstream
  rw [List.length_append, List.length_replicate, bitStream_length, bitStream_length] at hlen
  have hleft : (vals.length * 5) % 8 = 5 * vals.length - 8 * d.length := by omega
  have hdrop : vals.length * 5 - (5 * vals.length - 8 * d.length) = (bitStream 8 d).length := by
    rw [bitStream_length]
    omega
  obtain ⟨haccept, -, hmerged⟩ :=
    unpaddedConversionAcceptance 5 8 vals (by decide) (by decide) (by decide) (by decide)
  rw [hmerged hfits, hleft, hdrop, hstream, List.drop_left] at haccept
  obtain ⟨out, hout, hout_len, -, heq⟩ := haccept ⟨hpad, fun _ hb => List.eq_of_mem_replicate hb⟩
  have hcount : out.length = d.length := by omega
  rw [hout, bitStream_inj hcount (fitsBits_eight out) (fitsBits_eight d) (List.append_cancel_right heq)]

/-- Settles O43: the symbols' stream is the bytes' followed by fewer than 5 zeros, and a string is known from its
length and its stream. -/
theorem bytesToSymbolsRoundTrip : Obligations.BytesToSymbolsRoundTrip := by
  refine ⟨fun d => ?_, fun vals d hfits hback => ?_⟩
  · obtain ⟨vals, hvals, hlen, hfits, hstream⟩ := exists_convertBits_eight_five d
    have hpad : 5 * vals.length - 8 * d.length < 5 := by omega
    exact ⟨vals, hvals, hlen, hpad, hstream, convertBits_five_eight_of_stream hfits hpad hstream⟩
  · obtain ⟨hlt, hlen, hstream⟩ :=
      convertBits_unpadded_of_ok (by decide) (by decide) (by decide) (by decide) hfits hback
    obtain ⟨vals', hvals', hlen', hfits', hstream'⟩ := exists_convertBits_eight_five d
    have hcount : vals'.length = vals.length := by omega
    have hpad : 5 * vals'.length - 8 * d.length = (vals.length * 5) % 8 := by omega
    rw [hpad, hstream] at hstream'
    rw [hvals', bitStream_inj hcount hfits' hfits hstream']

end Sys2Proof.Machine
end

section
/-! PROOFS. The checksum engine (spec/42_cashaddr_checksum.md): the step of PolyMod over GF(2), the groups of a
checksum, and the statements about them and about POLYMOD, CA_EXPAND, CA_CRCHK and CA_VERIFY. -/

namespace Sys2Proof.Machine

/-! ## The reduction by the top bits -/

/-- The choice of generators is linear in the selecting bits and in what they are added to. -/
theorem polyReduce_xor (a b : BitVec 5) (gs : List (BitVec 40)) (i : Nat) (c c' : BitVec 40) :
    polyReduce (a ^^^ b) i gs (c ^^^ c') = polyReduce a i gs c ^^^ polyReduce b i gs c' := by
  induction gs generalizing i c c' with
  | nil => rfl
  | cons g gs ih =>
    rw [polyReduce, polyReduce, polyReduce, ← ih, BitVec.getLsbD_xor]
    congr 1
    cases a.getLsbD i <;> cases b.getLsbD i
    · rfl
    · exact BitVec.xor_assoc ..
    · change c ^^^ c' ^^^ g = c ^^^ g ^^^ c'
      ac_rfl
    · calc c ^^^ c' = c ^^^ c' ^^^ (g ^^^ g) := by simp
        _ = c ^^^ g ^^^ (c' ^^^ g) := by ac_rfl

@[simp] theorem polyReduce_zero (gs : List (BitVec 40)) (i : Nat) (c : BitVec 40) : polyReduce 0#5 i gs c = c := by
  induction gs generalizing i with
  | nil => rfl
  | cons g gs ih => rw [polyReduce, BitVec.getLsbD_zero, if_neg Bool.false_ne_true, ih]

theorem polyReduce_eq_xor (a : BitVec 5) (gs : List (BitVec 40)) (i : Nat) (c : BitVec 40) :
    polyReduce a i gs c = c ^^^ polyReduce a i gs 0#40 := by
  have h := polyReduce_xor 0#5 a gs i c 0#40
  rwa [polyReduce_zero, BitVec.xor_zero, BitVec.zero_xor] at h

/-- The generators as the fold over the five top bits (spec/42_cashaddr_checksum.md R151). -/
theorem polyReduce_eq_foldl (c : BitVec 40) :
    polyReduce (c.extractLsb' 35 5) 0 polyGenerators 0#40 =
      (List.range 5).foldl (fun a i => if c.getLsbD (35 + i) then a ^^^ polyGenerators.getD i 0 else a) 0 := by
  simp only [polyGenerators, polyReduce, BitVec.getLsbD_extractLsb']
  rfl

/-! ## The step -/

/-- The bits that the mask clears are those that the shift drops. -/
theorem and_mask_shiftLeft (c : BitVec 40) : (c &&& 0x07FFFFFFFF#40) <<< 5 = c <<< 5 := by
  have hmask : (c &&& 0x07FFFFFFFF#40).toNat = c.toNat % 2 ^ 35 := Nat.and_two_pow_sub_one_eq_mod _ 35
  apply BitVec.eq_of_toNat_eq
  rw [BitVec.toNat_shiftLeft, BitVec.toNat_shiftLeft, hmask, Nat.shiftLeft_eq, Nat.shiftLeft_eq]
  omega

/-- A value of five bits goes into the zeros that the shift brings in. -/
theorem shiftLeft_or_symbol (c : BitVec 40) {d : Byte} (hd : d.toNat < 32) :
    c <<< 5 ||| d.setWidth 40 = c <<< 5 ^^^ d.setWidth 40 := by
  ext i hi
  have hhigh : 5 ≤ i → d.getLsbD i = false := fun h =>
    Nat.testBit_eq_false_of_lt (hd.trans_le (Nat.pow_le_pow_right (n := 2) (by decide) h))
  by_cases h : i < 5
  · simp [h]
  · simp [hhigh (Nat.not_lt.mp h)]

/-- A step as the sum of its three parts (spec/42_cashaddr_checksum.md R151). -/
theorem polyStep_eq_xor (c : BitVec 40) {d : Byte} (hd : d.toNat < 32) :
    polyStep c d = c <<< 5 ^^^ d.setWidth 40 ^^^ polyReduce (c.extractLsb' 35 5) 0 polyGenerators 0#40 := by
  rw [polyStep, polyReduce_eq_xor, and_mask_shiftLeft, shiftLeft_or_symbol c hd]

theorem polyStep_xor (c c' : BitVec 40) {d d' : Byte} (hd : d.toNat < 32) (hd' : d'.toNat < 32) :
    polyStep (c ^^^ c') (d ^^^ d') = polyStep c d ^^^ polyStep c' d' := by
  have hsum : (d ^^^ d').toNat < 32 := by
    rw [BitVec.toNat_xor]
    exact Nat.xor_lt_two_pow (n := 5) hd hd'
  have hgen := polyReduce_xor (c.extractLsb' 35 5) (c'.extractLsb' 35 5) polyGenerators 0 0#40 0#40
  rw [BitVec.xor_zero] at hgen
  rw [polyStep_eq_xor _ hsum, polyStep_eq_xor _ hd, polyStep_eq_xor _ hd', BitVec.shiftLeft_xor_distrib,
    BitVec.setWidth_xor, BitVec.extractLsb'_xor, hgen]
  ac_rfl

/-- Values put in place of zeros add to the accumulator what they make of an accumulator of their own. -/
theorem foldl_polyStep_xor (c c' : BitVec 40) {vals : Bytes} (h : fitsBits 5 vals) :
    vals.foldl polyStep (c ^^^ c') =
      (List.replicate vals.length 0#8).foldl polyStep c ^^^ vals.foldl polyStep c' := by
  induction vals generalizing c c' with
  | nil => rfl
  | cons v vs ih =>
    obtain ⟨hv, hvs⟩ := fitsBits_cons.mp h
    have hstep := polyStep_xor c c' (d := 0#8) (by decide) hv
    rw [BitVec.zero_xor] at hstep
    rw [List.foldl_cons, hstep, ih _ _ hvs]
    rfl

/-- While the top five bits are 0, a step appends a digit in base 32. -/
theorem toNat_polyStep_of_lt {c : BitVec 40} {d : Byte} (hc : c.toNat < 2 ^ 35) (hd : d.toNat < 32) :
    (polyStep c d).toNat = 32 * c.toNat + d.toNat := by
  have htop : c.extractLsb' 35 5 = 0#5 := by
    apply BitVec.eq_of_toNat_eq
    rw [BitVec.extractLsb'_toNat, Nat.shiftRight_eq_div_pow, Nat.div_eq_of_lt hc]
    rfl
  have hshift : (c <<< 5).toNat = c.toNat <<< 5 := by
    rw [BitVec.toNat_shiftLeft, Nat.shiftLeft_eq]
    omega
  have hvalue : (d.setWidth 40).toNat = d.toNat := by
    rw [BitVec.toNat_setWidth]
    omega
  rw [polyStep, htop, polyReduce_zero, and_mask_shiftLeft, BitVec.toNat_or, hshift, hvalue,
    ← Nat.shiftLeft_add_eq_or_of_lt (i := 5) hd, Nat.shiftLeft_eq]
  omega

/-- So up to eight values leave the number they denote in an accumulator that began at 0. -/
theorem toNat_foldl_polyStep {k : Nat} {c : BitVec 40} {vals : Bytes} (hc : c.toNat < 32 ^ k)
    (hk : k + vals.length ≤ 8) (h : fitsBits 5 vals) :
    (vals.foldl polyStep c).toNat = vals.foldl (fun n b => 32 * n + b.toNat) c.toNat := by
  induction vals generalizing k c with
  | nil => rfl
  | cons v vs ih =>
    obtain ⟨hv, hvs⟩ := fitsBits_cons.mp h
    rw [List.length_cons] at hk
    have hsmall : (32 : Nat) ^ k ≤ 32 ^ 7 := Nat.pow_le_pow_right (by decide) (by omega)
    have hstep := toNat_polyStep_of_lt (hc.trans_le hsmall) hv
    have hnext : (polyStep c v).toNat < 32 ^ (k + 1) := by
      rw [hstep, Nat.pow_succ]
      omega
    rw [List.foldl_cons, List.foldl_cons, ih hnext (by omega) hvs, hstep]

/-! ## PolyMod and ExpandPrefix -/

theorem polyMod_eq_zero_iff (vals : Bytes) : polyMod vals = 0 ↔ vals.foldl polyStep 1 = 1 :=
  BitVec.xor_eq_zero_iff

theorem verifyChecksum_iff (p vals : Bytes) : verifyChecksum p vals = true ↔ polyMod (expandPrefix p ++ vals) = 0 :=
  beq_iff_eq

theorem and_lowFive (c : Byte) : c &&& 0x1F#8 = BitVec.ofNat 8 (c.toNat % 32) := by
  have hmask : (c &&& 0x1F#8).toNat = c.toNat % 32 := Nat.and_two_pow_sub_one_eq_mod _ 5
  rw [← hmask, BitVec.ofNat_toNat, BitVec.setWidth_eq]

theorem expandPrefix_eq (p : Bytes) :
    expandPrefix p = p.map (fun c => BitVec.ofNat 8 (c.toNat % 32)) ++ [0#8] := by
  simp only [expandPrefix, and_lowFive]

/-- The two cases of a letter differ by 0x20. -/
theorem lowerCase_toNat_mod (c : Byte) : (lowerCase c).toNat % 32 = c.toNat % 32 := by
  unfold lowerCase
  split
  · rw [BitVec.toNat_add, BitVec.toNat_ofNat]
    omega
  · rfl

theorem expandPrefix_map_lowerCase (p : Bytes) : expandPrefix (p.map lowerCase) = expandPrefix p := by
  simp only [expandPrefix_eq, List.map_map, Function.comp_def, lowerCase_toNat_mod]

/-! ## The groups of a checksum -/

/-- The digits of a number at the places `k - 1` to 0, zeros in front included. -/
def digitGroups (base k n : Nat) : List Nat := (List.range k).map fun i => n / base ^ (k - 1 - i) % base

theorem digitGroups_succ (base k n : Nat) :
    digitGroups base (k + 1) n = n / base ^ k % base :: digitGroups base k n := by
  rw [digitGroups, digitGroups, List.range_succ_eq_map, List.map_cons, List.map_map]
  congr 1
  refine List.map_congr_left fun i _ => ?_
  have hplace : k + 1 - 1 - (i + 1) = k - 1 - i := by omega
  rw [Function.comp_apply, hplace]

theorem ofDigitsBE_digitGroups (base k n : Nat) : ofDigitsBE base (digitGroups base k n) = n % base ^ k := by
  induction k with
  | zero => simp [digitGroups, ofDigitsBE, Nat.mod_one]
  | succ k ih =>
    have hlen : (digitGroups base k n).length = k := by simp [digitGroups]
    rw [ofDigitsBE_eq_ofDigits] at ih ⊢
    rw [digitGroups_succ, List.reverse_cons, Nat.ofDigits_append, ih, Nat.ofDigits_singleton, List.length_reverse,
      hlen, Nat.mod_pow_succ]

/-- The 40-bit `m` that the checksum is made of (spec/42_cashaddr_checksum.md R157). -/
def checksumNumber (p x : Bytes) : BitVec 40 := polyMod (expandPrefix p ++ x ++ List.replicate 8 0#8)

theorem toNat_shiftRight_and_lowFive (m : BitVec 40) (k : Nat) :
    ((m >>> k).setWidth 8 &&& 0x1F#8).toNat = m.toNat / 2 ^ k % 32 := by
  rw [and_lowFive, BitVec.toNat_ofNat, BitVec.toNat_setWidth, BitVec.toNat_ushiftRight, Nat.shiftRight_eq_div_pow]
  omega

theorem map_toNat_createChecksum (p x : Bytes) :
    (createChecksum p x).map BitVec.toNat = digitGroups 32 8 (checksumNumber p x).toNat := by
  rw [createChecksum, digitGroups, List.map_map]
  refine List.map_congr_left fun i _ => ?_
  refine (toNat_shiftRight_and_lowFive ..).trans ?_
  rw [Nat.pow_mul]
  rfl

theorem createChecksum_length (p x : Bytes) : (createChecksum p x).length = 8 := by simp [createChecksum]

theorem createChecksum_fits (p x : Bytes) : fitsBits 5 (createChecksum p x) := by
  refine List.forall_mem_map.mpr fun i _ => ?_
  rw [toNat_shiftRight_and_lowFive]
  exact Nat.mod_lt _ (by decide)

/-- The groups denote their number (spec/42_cashaddr_checksum.md R157). -/
theorem foldl_createChecksum (p x : Bytes) :
    (createChecksum p x).foldl (fun n b => 32 * n + b.toNat) 0 = (checksumNumber p x).toNat := by
  have hvalue := ofDigitsBE_digitGroups 32 8 (checksumNumber p x).toNat
  rw [← map_toNat_createChecksum, ofDigitsBE, List.foldl_map, Nat.mod_eq_of_lt] at hvalue
  · exact hvalue
  · exact (checksumNumber p x).isLt

/-! ## The commands -/

section Commands

variable {s : State} {x p : Bytes}

theorem resultOf_polymod (hx : s.snapIn = some x) :
    resultOf .polymod s = requireSymbols x
      (finish s.cfg [] none ((polyMod x).extractLsb' 0 32) (zext ((polyMod x).extractLsb' 32 8))) := by
  rw [resultOf, resultPolymod, hx, readOperand_some]

theorem resultOf_caExpand (hp : s.snapAux = some p) :
    resultOf .caExpand s = finish s.cfg (expandPrefix p) none 0 0 := by
  rw [resultOf, resultCaExpand, hp, readOperand_some]

theorem resultOf_caCrchk (hx : s.snapIn = some x) (hp : s.snapAux = some p) :
    resultOf .caCrchk s = requireSymbols x (finish s.cfg (createChecksum p x) none 0 0) := by
  rw [resultOf, resultCaCrchk, hx, hp, readOperand_some, readOperand_some]

theorem resultOf_caVerify (hx : s.snapIn = some x) (hp : s.snapAux = some p) :
    resultOf .caVerify s = requireSymbols x (finish s.cfg [] none (if verifyChecksum p x then 1 else 0) 0) := by
  rw [resultOf, resultCaVerify, hx, hp, readOperand_some, readOperand_some]

/-- A command that checks its symbols fails with `ParameterError` on one of 32 or more
(spec/42_cashaddr_checksum.md R153). -/
theorem failsWith_of_large_symbol {i : Instr} {k : Result} (h : resultOf i s = requireSymbols x k)
    (hlarge : ∃ b ∈ x, 32 ≤ b.toNat) : FailsWith i s 0x11#8 :=
  failsWith_of_result (e := .parameterError) (h.trans (requireSymbols_of_large k hlarge))

/-- Symbols that fit leave the command to its output check. -/
theorem completesIfFits_of_symbols {i : Instr} {out : Bytes} {r0 r1 : Word} (hc : s.cfg.wf = true)
    (h : resultOf i s = requireSymbols x (finish s.cfg out none r0 r1)) (hfits : fitsBits 5 x) :
    CompletesIfFits i s out r0 r1 :=
  completesIfFits_of_finish hc (h.trans (requireSymbols_of_fits _ hfits))

end Commands

theorem extractLsb_low_word (m : BitVec 40) : m.extractLsb' 0 32 = BitVec.ofNat 32 (m.toNat % 2 ^ 32) := by
  apply BitVec.eq_of_toNat_eq
  rw [BitVec.extractLsb'_toNat, BitVec.toNat_ofNat, Nat.shiftRight_zero, Nat.mod_mod]

theorem zext_extractLsb_high_byte (m : BitVec 40) : zext (m.extractLsb' 32 8) = BitVec.ofNat 32 (m.toNat / 2 ^ 32) := by
  apply BitVec.eq_of_toNat_eq
  rw [zext, BitVec.toNat_setWidth, BitVec.extractLsb'_toNat, BitVec.toNat_ofNat, Nat.shiftRight_eq_div_pow]
  omega

/-! ## The statements -/

/-- Settles O45: the mask clears what the shift drops, the value goes into zeros, and every part is a sum. -/
theorem polyModStepIsLinear : Obligations.PolyModStepIsLinear := by
  refine ⟨rfl, fun c d hd => ?_, fun c c' d d' hd hd' => polyStep_xor c c' hd hd', polyMod_eq_zero_iff⟩
  rw [polyStep_eq_xor c hd, and_mask_shiftLeft, polyReduce_eq_foldl]

/-- Settles O47: the low five bits do not tell the case of a letter, and the checksum reads the expansion only. -/
theorem checksumIgnoresPrefixCase : Obligations.ChecksumIgnoresPrefixCase := by
  refine fun p x => ⟨expandPrefix_map_lowerCase p, ?_⟩
  rw [createChecksum, createChecksum, expandPrefix_map_lowerCase]

/-- Settles O48: the checksum's groups are below 32 and denote their number. -/
theorem caCrchkOutcome : Obligations.CaCrchkOutcome := by
  intro s x p hc hx hp
  have hresult := resultOf_caCrchk hx hp
  exact ⟨failsWith_of_large_symbol hresult, fun hfits =>
    ⟨createChecksum p x, completesIfFits_of_symbols hc hresult hfits, createChecksum_length p x,
      createChecksum_fits p x, foldl_createChecksum p x⟩⟩

/-- Settles O50: the checksum, in place of the eight zeros, adds its own number `m` to the accumulator, which had
ended at `m ^^^ 1` (spec/42_cashaddr_checksum.md R161). -/
theorem createdChecksumVerifies : Obligations.CreatedChecksumVerifies := by
  intro p x _
  set ck := createChecksum p x
  set m := checksumNumber p x
  set c := (expandPrefix p ++ x).foldl polyStep 1
  have hck : fitsBits 5 ck := createChecksum_fits p x
  have hown : ck.foldl polyStep 0#40 = m :=
    BitVec.eq_of_toNat_eq ((toNat_foldl_polyStep (k := 0) (by decide) (by rw [createChecksum_length]) hck).trans
      (foldl_createChecksum p x))
  have hzeros : (List.replicate 8 0#8).foldl polyStep c = m ^^^ 1 := by
    change _ = polyMod (expandPrefix p ++ x ++ _) ^^^ 1#40
    rw [polyMod, List.foldl_append, BitVec.xor_assoc, BitVec.xor_self, BitVec.xor_zero]
    rfl
  have hend : ck.foldl polyStep c = 1 :=
    calc ck.foldl polyStep c = ck.foldl polyStep (c ^^^ 0#40) := by rw [BitVec.xor_zero]
      _ = (List.replicate 8 0#8).foldl polyStep c ^^^ ck.foldl polyStep 0#40 := by
        rw [foldl_polyStep_xor c 0#40 hck, createChecksum_length]
      _ = m ^^^ m ^^^ 1 := by rw [hzeros, hown]; ac_rfl
      _ = 1 := by simp
  rwa [verifyChecksum_iff, polyMod_eq_zero_iff, ← List.append_assoc, List.foldl_append]

/-- Settles O44: OUT is empty, so it always fits. -/
theorem polymodOutcome : Obligations.PolymodOutcome := by
  intro s vals hc hs
  have hresult := resultOf_polymod hs
  refine ⟨failsWith_of_large_symbol hresult, fun hfits => ?_⟩
  rw [← extractLsb_low_word, ← zext_extractLsb_high_byte]
  exact (completesIfFits_of_symbols hc hresult hfits).1 (Nat.zero_le _)

/-- Settles O46: the low five bits of a byte are its remainder by 32. -/
theorem caExpandCompletes : Obligations.CaExpandCompletes := fun _ p hc hp =>
  expandPrefix_eq p ▸ completesIfFits_of_finish hc (resultOf_caExpand hp)

/-- Settles O49: OUT is empty, so it always fits. -/
theorem caVerifyOutcome : Obligations.CaVerifyOutcome := by
  intro s x p hc hx hp
  have hresult := resultOf_caVerify hx hp
  refine ⟨failsWith_of_large_symbol hresult, fun hfits => ?_⟩
  simp only [← verifyChecksum_iff]
  exact (completesIfFits_of_symbols hc hresult hfits).1 (Nat.zero_le _)

end Sys2Proof.Machine
end

section
/-! PROOFS. The CashAddr codec (spec/43_cashaddr_codec.md): the packing of a hash, the characters and the parts of an
address string, its two codecs, and the statements about them and about the five commands. -/

namespace Sys2Proof.Machine

/-! ## Packing -/

/-- The two types that have type bits (spec/43_cashaddr_codec.md R170). -/
def typeRows : List (AddrType × Nat) := [(.p2pkh, 0), (.p2sh, 8)]

/-- The lengths of a hash in bytes, with their size codes (spec/43_cashaddr_codec.md R171). -/
def sizeRows : List (Nat × Nat) := [(20, 0), (24, 1), (28, 2), (32, 3), (40, 4), (48, 5), (56, 6), (64, 7)]

theorem typeBits_of_row {a : AddrType} {tb : Nat} (h : (a, tb) ∈ typeRows) : typeBits a = some (BitVec.ofNat 8 tb) := by
  have hall : ∀ r ∈ typeRows, typeBits r.1 = some (BitVec.ofNat 8 r.2) := by decide
  exact hall _ h

theorem typeBits_eq_none {a : AddrType} (h : a ≠ .p2pkh) (h' : a ≠ .p2sh) : typeBits a = none := by
  cases a
  case p2pkh => exact absurd rfl h
  case p2sh => exact absurd rfl h'
  all_goals rfl

theorem exists_typeRow {a : AddrType} (h : a = .p2pkh ∨ a = .p2sh) : ∃ tb, (a, tb) ∈ typeRows := by
  obtain rfl | rfl := h
  · exact ⟨0, by decide⟩
  · exact ⟨8, by decide⟩

theorem sizeCode_of_row {n sz : Nat} (h : (n, sz) ∈ sizeRows) : sizeCode n = some (BitVec.ofNat 8 sz) := by
  have hall : ∀ r ∈ sizeRows, sizeCode r.1 = some (BitVec.ofNat 8 r.2) := by decide
  exact hall _ h

theorem sizeCode_eq_none {n : Nat} (h : n ∉ sizeRows.map Prod.fst) : sizeCode n = none := by
  unfold sizeCode
  split
  case h_9 => rfl
  all_goals
    simp only [sizeRows, List.map_cons, List.map_nil, List.mem_cons, List.not_mem_nil, or_false] at h
    omega

theorem exists_sizeRow {n : Nat} (h : n ∈ sizeRows.map Prod.fst) : ∃ sz, (n, sz) ∈ sizeRows := by
  obtain ⟨⟨_, sz⟩, hrow, rfl⟩ := List.mem_map.mp h
  exact ⟨sz, hrow⟩

/-- The type bits and a size code have no bit in common. -/
theorem packVersion_of_rows {a : AddrType} {tb n sz : Nat} (ha : (a, tb) ∈ typeRows) (hn : (n, sz) ∈ sizeRows) :
    packVersion a n = .ok (BitVec.ofNat 8 (tb + sz)) := by
  have hor : ∀ t ∈ typeRows, ∀ z ∈ sizeRows,
      BitVec.ofNat 8 t.2 ||| BitVec.ofNat 8 z.2 = BitVec.ofNat 8 (t.2 + z.2) := by decide
  simp only [packVersion, typeBits_of_row ha, sizeCode_of_row hn, hor _ ha _ hn]

theorem packVersion_of_other_type {a : AddrType} (n : Nat) (h : a ≠ .p2pkh) (h' : a ≠ .p2sh) :
    packVersion a n = .error .unsupportedAddressType := by
  rw [packVersion, typeBits_eq_none h h']

theorem packVersion_of_other_size {a : AddrType} {n : Nat} (h : a = .p2pkh ∨ a = .p2sh)
    (hn : n ∉ sizeRows.map Prod.fst) : packVersion a n = .error .unsupportedHashSize := by
  obtain ⟨tb, hrow⟩ := exists_typeRow h
  simp only [packVersion, typeBits_of_row hrow, sizeCode_eq_none hn]

theorem exists_packVersion_eq {a : AddrType} {n : Nat} (h : a = .p2pkh ∨ a = .p2sh)
    (hn : n ∈ sizeRows.map Prod.fst) : ∃ ver, packVersion a n = .ok ver := by
  obtain ⟨tb, htb⟩ := exists_typeRow h
  obtain ⟨sz, hsz⟩ := exists_sizeRow hn
  exact ⟨_, packVersion_of_rows htb hsz⟩

theorem packAddressData_of_error {a : AddrType} {h : Bytes} {e : ErrorCode} (hv : packVersion a h.length = .error e) :
    packAddressData a h = .error e := by
  rw [packAddressData, hv]

/-- The symbols of a hash and its version byte, and the way back (spec/43_cashaddr_codec.md R172). -/
theorem exists_packAddressData_eq {a : AddrType} {h : Bytes} {ver : Byte} (hv : packVersion a h.length = .ok ver) :
    ∃ vals, packAddressData a h = .ok (ver, vals) ∧ vals.length = (8 * (h.length + 1) + 4) / 5 ∧ fitsBits 5 vals ∧
      bitStream 5 vals =
        bitStream 8 (ver :: h) ++ List.replicate (5 * vals.length - 8 * (h.length + 1)) false ∧
      convertBits vals 5 8 false = .ok (ver :: h) := by
  obtain ⟨vals, hvals, hlen, hfits, hstream⟩ := exists_convertBits_eight_five (ver :: h)
  have hpad : 5 * vals.length - 8 * (ver :: h).length < 5 := by omega
  refine ⟨vals, ?_, hlen, hfits, hstream, convertBits_five_eight_of_stream hfits hpad hstream⟩
  simp only [packAddressData, hv, hvals]

/-! ## The charset -/

theorem charset_length : charset.length = 32 := by decide

theorem charset_nodup : charset.Nodup := by decide

theorem charset_below_0x80 : ∀ c ∈ charset, c.toNat < 0x80 := by decide

theorem charset_not_upper : ∀ c ∈ charset, isUpper c = false := by decide

theorem separator_not_mem_charset : separator ∉ charset := by decide

/-- No byte stands twice in the charset, so its position is the one place where it stands. -/
theorem charset_idxOf?_eq_some_iff {c : Byte} {i : Nat} : charset.idxOf? c = some i ↔ charset[i]? = some c := by
  rw [List.idxOf?_eq_some_iff, List.getElem?_eq_some_iff]
  refine exists_congr fun hi => ⟨And.left, fun hc => ⟨hc, fun j hj hjc => ?_⟩⟩
  exact hj.ne ((charset_nodup.getElem_inj_iff).mp (hjc.trans hc.symm))

theorem charsetValue_eq_some_iff {c v : Byte} :
    charsetValue c = some v ↔ c.toNat < 0x80 ∧ v.toNat < 32 ∧ charset[v.toNat]? = some (lowerCase c) := by
  by_cases hc : 0x80 ≤ c.toNat
  · simp only [charsetValue, if_pos hc, reduceCtorEq, false_iff]
    omega
  · simp only [charsetValue, if_neg hc, Option.map_eq_some_iff, charset_idxOf?_eq_some_iff]
    refine ⟨?_, fun ⟨_, _, hv⟩ => ⟨v.toNat, hv, BitVec.ofNat_toNat ..⟩⟩
    rintro ⟨i, hi, rfl⟩
    have hlt : i < 32 := charset_length ▸ (List.getElem?_eq_some_iff.mp hi).1
    have hvalue : (BitVec.ofNat 8 i).toNat = i := Nat.mod_eq_of_lt (by omega)
    exact ⟨Nat.not_le.mp hc, hvalue.symm ▸ hlt, hvalue.symm ▸ hi⟩

theorem charset_getElem?_of_lt {v : Byte} (hv : v.toNat < 32) : charset[v.toNat]? = some (charsetChar v) := by
  have hlt : v.toNat < charset.length := hv
  rw [charsetChar, List.getD_eq_getElem _ _ hlt, List.getElem?_eq_getElem hlt]

theorem lowerCase_of_not_upper {c : Byte} (h : isUpper c = false) : lowerCase c = c := by
  rw [lowerCase, h, if_neg Bool.false_ne_true]

theorem map_lowerCase_of_not_upper {cs : Bytes} (h : ∀ c ∈ cs, isUpper c = false) : cs.map lowerCase = cs :=
  (List.map_congr_left fun c hc => lowerCase_of_not_upper (h c hc)).trans (List.map_id cs)

theorem charsetChar_mem {v : Byte} (hv : v.toNat < 32) : charsetChar v ∈ charset :=
  List.mem_of_getElem? (charset_getElem?_of_lt hv)

theorem map_charsetChar_subset {vals : Bytes} (h : fitsBits 5 vals) : vals.map charsetChar ⊆ charset :=
  List.forall_mem_map.mpr fun v hv => charsetChar_mem (h v hv)

/-- A symbol is the value of its character. -/
theorem map_charsetValue_map_charsetChar {vals : Bytes} (h : fitsBits 5 vals) :
    (vals.map charsetChar).map charsetValue = vals.map some := by
  rw [List.map_map]
  refine List.map_congr_left fun v hv => charsetValue_eq_some_iff.mpr ?_
  have hmem := charsetChar_mem (h v hv)
  rw [lowerCase_of_not_upper (charset_not_upper _ hmem)]
  exact ⟨charset_below_0x80 _ hmem, h v hv, charset_getElem?_of_lt (h v hv)⟩

theorem charsetValues_of_values {cs vals : Bytes} (h : cs.map charsetValue = vals.map some) :
    charsetValues cs = .ok vals := by
  induction cs generalizing vals with
  | nil =>
    obtain rfl : vals = [] := List.map_eq_nil_iff.mp h.symm
    rfl
  | cons c cs ih =>
    obtain ⟨v, vs, rfl, hv, hvs⟩ := List.map_eq_cons_iff.mp h.symm
    simp only [charsetValues, ← hv, ih hvs.symm]

theorem charsetValues_of_none {cs : Bytes} (h : ∃ c ∈ cs, charsetValue c = none) :
    charsetValues cs = .error .invalidCharacter := by
  induction cs with
  | nil => simp at h
  | cons c cs ih =>
    rw [charsetValues]
    cases hc : charsetValue c with
    | none => rfl
    | some v =>
      have hrest : ∃ c ∈ cs, charsetValue c = none := by simpa [hc] using h
      rw [ih hrest]

/-! ## The parts of a string -/

theorem bne_separator_of_not_mem {pre : Bytes} (h : separator ∉ pre) : ∀ b ∈ pre, (b != separator) = true :=
  fun _ hb => bne_iff_ne.mpr fun heq => h (heq ▸ hb)

theorem beforeSeparator_append {pre : Bytes} (post : Bytes) (h : separator ∉ pre) :
    beforeSeparator (pre ++ separator :: post) = pre := by
  rw [beforeSeparator, List.takeWhile_append_of_pos (bne_separator_of_not_mem h),
    List.takeWhile_cons_of_neg (by decide), List.append_nil]

theorem afterSeparator_append {pre : Bytes} (post : Bytes) (h : separator ∉ pre) :
    afterSeparator (pre ++ separator :: post) = post := by
  rw [afterSeparator, List.dropWhile_append_of_pos (bne_separator_of_not_mem h),
    List.dropWhile_cons_of_neg (by decide), List.tail_cons]

theorem count_separator_append {pre post : Bytes} :
    (pre ++ separator :: post).count separator = 1 ↔ separator ∉ pre ∧ separator ∉ post := by
  rw [List.count_append, List.count_cons_self, ← List.count_eq_zero, ← List.count_eq_zero]
  omega

/-- Letters of both cases (spec/43_cashaddr_codec.md R177). -/
def mixedCase (str : Bytes) : Prop := (∃ b ∈ str, isLower b = true) ∧ ∃ b ∈ str, isUpper b = true

/-- The four checks of R177. -/
theorem malformed_iff (str : Bytes) :
    malformed str = true ↔ str.count separator ≠ 1 ∨ beforeSeparator str = [] ∨
      (∃ b ∈ beforeSeparator str, isDigit b = true) ∨ mixedCase str := by
  simp [malformed, mixedCase, or_assoc]

/-- An empty part in front of a separator, or one with a digit, is malformed even where a second separator makes
the part another one. -/
theorem malformed_of_part {pre post : Bytes} (h : pre = [] ∨ ∃ b ∈ pre, isDigit b = true) :
    malformed (pre ++ separator :: post) = true := by
  rw [malformed_iff]
  by_cases hcount : (pre ++ separator :: post).count separator = 1
  · rw [beforeSeparator_append post (count_separator_append.mp hcount).1]
    exact .inr (or_assoc.mp (.inl h))
  · exact .inl hcount

/-- The string passes the checks of R177, with these parts before and after its one separator. -/
structure WellFormedAddress (str pre post : Bytes) : Prop where
  split : str = pre ++ separator :: post
  nonempty : pre ≠ []
  before : separator ∉ pre
  after : separator ∉ post
  noDigit : ∀ b ∈ pre, isDigit b = false
  oneCase : ¬ mixedCase str

/-! ## CashAddrDecode -/

theorem cashAddrDecode_of_malformed {str : Bytes} (h : malformed str = true) :
    cashAddrDecode str = .error .malformedAddressString := if_pos h

namespace WellFormedAddress

variable {str pre post vals x ck : Bytes}

theorem malformed_eq_false (h : WellFormedAddress str pre post) : malformed str = false := by
  obtain ⟨rfl, hne, hpre, hpost, hdigit, hcase⟩ := h
  rw [Bool.eq_false_iff, Ne, malformed_iff, beforeSeparator_append post hpre, not_or, not_or, not_or]
  refine ⟨not_not_intro (count_separator_append.mpr ⟨hpre, hpost⟩), hne, ?_, hcase⟩
  rintro ⟨b, hb, hb'⟩
  exact Bool.false_ne_true ((hdigit b hb).symm.trans hb')

theorem cashAddrDecode_of_error {e : ErrorCode} (h : WellFormedAddress str pre post)
    (he : charsetValues post = .error e) :
    cashAddrDecode str = .error e := by
  rw [cashAddrDecode, h.malformed_eq_false, h.split, afterSeparator_append post h.before]
  simp only [he, Bool.false_eq_true, if_false]

/-- The values decide the rest: their number, then the checksum (R177, R181). -/
theorem cashAddrDecode_of_values (h : WellFormedAddress str pre post) (hvals : post.map charsetValue = vals.map some) :
    cashAddrDecode str =
      if vals.length < 8 then .error .invalidChecksum
      else if verifyChecksum (pre.map lowerCase) vals then .ok (pre.map lowerCase, vals.take (vals.length - 8))
      else .error .invalidChecksum := by
  rw [cashAddrDecode, h.malformed_eq_false, h.split, beforeSeparator_append post h.before,
    afterSeparator_append post h.before]
  simp only [charsetValues_of_values hvals, Bool.false_eq_true, if_false]

theorem cashAddrDecode_of_bad_character (h : WellFormedAddress str pre post)
    (hbad : ∃ c ∈ post, charsetValue c = none) :
    cashAddrDecode str = .error .invalidCharacter := h.cashAddrDecode_of_error (charsetValues_of_none hbad)

theorem cashAddrDecode_of_short (h : WellFormedAddress str pre post) (hvals : post.map charsetValue = vals.map some)
    (hlen : vals.length < 8) : cashAddrDecode str = .error .invalidChecksum :=
  (h.cashAddrDecode_of_values hvals).trans (if_pos hlen)

/-- A payload and eight more values: the checksum decides. -/
theorem cashAddrDecode_of_checksum (h : WellFormedAddress str pre post)
    (hvals : post.map charsetValue = (x ++ ck).map some) (hck : ck.length = 8) :
    cashAddrDecode str =
      if polyMod (expandPrefix (pre.map lowerCase) ++ (x ++ ck)) = 0 then .ok (pre.map lowerCase, x)
      else .error .invalidChecksum := by
  have hlong : ¬ (x ++ ck).length < 8 := by simp [hck]
  have hpayload : (x ++ ck).take ((x ++ ck).length - 8) = x := by
    rw [List.length_append, hck, Nat.add_sub_cancel, List.take_left]
  rw [h.cashAddrDecode_of_values hvals, if_neg hlong, hpayload]
  simp only [verifyChecksum_iff]

end WellFormedAddress

theorem plainLowerPrefix.chars {p : Bytes} (h : plainLowerPrefix p) :
    (∀ b ∈ p, isDigit b = false) ∧ (∀ b ∈ p, isUpper b = false) ∧ separator ∉ p := by
  obtain ⟨-, hplain⟩ := h
  simp only [imp_and, forall_and] at hplain
  obtain ⟨hdigit, hupper, hsep⟩ := hplain
  exact ⟨hdigit, hupper, fun h => hsep _ h rfl⟩

/-- The encoder's string is well-formed (spec/43_cashaddr_codec.md R187): neither part holds a separator or a capital. -/
theorem wellFormed_cashAddrEncode {p x : Bytes} (hp : plainLowerPrefix p) (hx : fitsBits 5 x) :
    WellFormedAddress (cashAddrEncode p x) p ((x ++ createChecksum p x).map charsetChar) := by
  obtain ⟨hdigit, hupper, hsep⟩ := hp.chars
  have hchars := map_charsetChar_subset (fitsBits_append.mpr ⟨hx, createChecksum_fits p x⟩)
  have hsplit : cashAddrEncode p x = p ++ separator :: (x ++ createChecksum p x).map charsetChar :=
    List.append_assoc ..
  refine ⟨hsplit, hp.1, hsep, fun h => separator_not_mem_charset (hchars h), hdigit, ?_⟩
  rintro ⟨-, b, hb, hcapital⟩
  refine Bool.false_ne_true (Eq.trans ?_ hcapital)
  rw [hsplit] at hb
  obtain hpre | hrest := List.mem_append.mp hb
  · exact (hupper b hpre).symm
  · obtain rfl | hpost := List.mem_cons.mp hrest
    · decide
    · exact (charset_not_upper b (hchars hpost)).symm

/-- The encoder's string decodes to what it was made of (spec/43_cashaddr_codec.md R187). -/
theorem cashAddrDecode_cashAddrEncode {p x : Bytes} (hp : plainLowerPrefix p) (hx : fitsBits 5 x) :
    cashAddrDecode (cashAddrEncode p x) = .ok (p, x) := by
  have hvals := map_charsetValue_map_charsetChar (fitsBits_append.mpr ⟨hx, createChecksum_fits p x⟩)
  obtain ⟨-, hupper, -⟩ := hp.chars
  rw [(wellFormed_cashAddrEncode hp hx).cashAddrDecode_of_checksum hvals (createChecksum_length p x),
    map_lowerCase_of_not_upper hupper, if_pos ((verifyChecksum_iff p _).mp (createdChecksumVerifies p x hx))]

theorem cashAddrEncode_length (p x : Bytes) : (cashAddrEncode p x).length = p.length + 1 + x.length + 8 := by
  simp only [cashAddrEncode, List.length_append, List.length_map, List.length_singleton, createChecksum_length]
  omega

/-! ## CheckEncodeCashAddress and CheckDecodeCashAddress -/

theorem checkEncodeCashAddress_of_packed {a : AddrType} {h vals : Bytes} {ver : Byte} (p : Bytes)
    (hpack : packAddressData a h = .ok (ver, vals)) : checkEncodeCashAddress a h p = .ok (cashAddrEncode p vals) := by
  rw [checkEncodeCashAddress, hpack]

theorem checkEncodeCashAddress_of_error {a : AddrType} {h : Bytes} {e : ErrorCode} (p : Bytes)
    (hpack : packAddressData a h = .error e) : checkEncodeCashAddress a h p = .error e := by
  rw [checkEncodeCashAddress, hpack]

theorem checkDecodeCashAddress_of_error {str : Bytes} {e : ErrorCode} (h : cashAddrDecode str = .error e) :
    checkDecodeCashAddress str = .error e := by
  rw [checkDecodeCashAddress, h]

section Repacking

variable {str p vals d h : Bytes} {ver : Byte}

theorem checkDecodeCashAddress_of_repack_error {e : ErrorCode} (hdec : cashAddrDecode str = .ok (p, vals))
    (hconv : convertBits vals 5 8 false = .error e) : checkDecodeCashAddress str = .error e := by
  simp only [checkDecodeCashAddress, hdec, hconv]

theorem checkDecodeCashAddress_of_other_length (hdec : cashAddrDecode str = .ok (p, vals))
    (hconv : convertBits vals 5 8 false = .ok d) (hlen : d.length ≠ 21) :
    checkDecodeCashAddress str = .error .incorrectDataLength := by
  simp only [checkDecodeCashAddress, hdec, hconv]
  exact if_pos hlen

theorem checkDecodeCashAddress_of_hash (hdec : cashAddrDecode str = .ok (p, vals))
    (hconv : convertBits vals 5 8 false = .ok (ver :: h)) (hlen : h.length = 20) :
    checkDecodeCashAddress str = .ok { atype := versionType ver, ver := ver, hash := h, pfx := p } := by
  have hlen' : (ver :: h).length = 21 := congrArg (· + 1) hlen
  simp only [checkDecodeCashAddress, hdec, hconv]
  exact if_neg (not_not_intro hlen')

end Repacking

/-- RES0 of CA_CHKDEC as a number (spec/43_cashaddr_codec.md R185): the fields share no bit. -/
theorem typeCode_or_version (c : BitVec 3) (ver : Byte) :
    c.setWidth 32 ||| zext ver <<< 8 = BitVec.ofNat 32 (c.toNat + 256 * ver.toNat) := by
  have hcode : (c.setWidth 32).toNat = c.toNat := BitVec.toNat_setWidth_of_le (by decide)
  have hver : (zext ver <<< 8).toNat = ver.toNat <<< 8 := by
    rw [BitVec.toNat_shiftLeft, zext, BitVec.toNat_setWidth_of_le (by decide), Nat.shiftLeft_eq]
    omega
  have hlow : c.toNat < 2 ^ 8 := c.isLt.trans (by decide)
  apply BitVec.eq_of_toNat_eq
  rw [BitVec.toNat_or, hcode, hver, Nat.or_comm, ← Nat.shiftLeft_add_eq_or_of_lt hlow, Nat.shiftLeft_eq,
    BitVec.toNat_ofNat]
  omega

theorem toNat_code_versionType (ver : Byte) :
    (versionType ver).code.toNat = if ver = 0x00#8 then 1 else if ver = 0x08#8 then 2 else 0 := by
  unfold versionType
  split_ifs <;> rfl

/-- The version byte of a 20-byte hash is 0x00 or 0x08, which R184 reads as the type it came from. -/
theorem res0_of_packVersion {a : AddrType} {ver : Byte} (h : a = .p2pkh ∨ a = .p2sh)
    (hver : packVersion a 20 = .ok ver) :
    BitVec.ofNat 32 ((if ver = 0x00#8 then 1 else if ver = 0x08#8 then 2 else 0) + 256 * ver.toNat) =
      if a = .p2pkh then 0x00000001#32 else 0x00000802#32 := by
  obtain rfl | rfl := h
  · obtain rfl : 0x00#8 = ver := Except.ok.inj hver
    rfl
  · obtain rfl : 0x08#8 = ver := Except.ok.inj hver
    rfl

/-! ## The commands -/

section Commands

variable {s : State} {x p h str : Bytes}

theorem resultOf_caPack (a : AddrType) (hx : s.snapIn = some h) :
    resultOf (.caPack a) s = orRaise (packAddressData a h) fun r => finish s.cfg r.2 none (zext r.1) 0 := by
  rw [resultOf, resultCaPack, hx, readOperand_some]

theorem resultOf_caEnc (hx : s.snapIn = some x) (hp : s.snapAux = some p) :
    resultOf .caEnc s = requireSymbols x (finish s.cfg (cashAddrEncode p x) none 0 0) := by
  rw [resultOf, resultCaEnc, hx, hp, readOperand_some, readOperand_some]

theorem resultOf_caDec (hx : s.snapIn = some str) :
    resultOf .caDec s = orRaise (cashAddrDecode str) fun r => finish s.cfg r.2 (some r.1) 0 0 := by
  rw [resultOf, resultCaDec, hx, readOperand_some]

theorem resultOf_caChkenc (a : AddrType) (hx : s.snapIn = some h) (hp : s.snapAux = some p) :
    resultOf (.caChkenc a) s = orRaise (checkEncodeCashAddress a h p) fun out => finish s.cfg out none 0 0 := by
  rw [resultOf, resultCaChkenc, hx, hp, readOperand_some, readOperand_some]

theorem resultOf_caChkdec (hx : s.snapIn = some str) :
    resultOf .caChkdec s = orRaise (checkDecodeCashAddress str) fun r =>
      finish s.cfg r.hash (some r.pfx) (r.atype.code.setWidth 32 ||| (zext r.ver <<< 8)) 0 := by
  rw [resultOf, resultCaChkdec, hx, readOperand_some]

/-- A command whose operation raises an error completes with its code. -/
theorem failsWith_of_orRaise {α : Type} {i : Instr} {r : Except ErrorCode α} {k : α → Result} {e : ErrorCode}
    (hresult : resultOf i s = orRaise r k) (he : r = .error e) : FailsWith i s e.code :=
  failsWith_of_result (by rw [hresult, he, orRaise_error])

theorem completesIfFits_caChkenc {a : AddrType} {ver : Byte} {vals : Bytes} (hc : s.cfg.wf = true)
    (hx : s.snapIn = some h) (hp : s.snapAux = some p) (hpack : packAddressData a h = .ok (ver, vals)) :
    CompletesIfFits (.caChkenc a) s (cashAddrEncode p vals) 0 0 := by
  refine completesIfFits_of_finish hc ?_
  rw [resultOf_caChkenc a hx hp, checkEncodeCashAddress_of_packed p hpack, orRaise_ok]

theorem completesIfBothFit_caChkdec {ver : Byte} {vals : Bytes} (hc : s.cfg.wf = true) (hx : s.snapIn = some str)
    (hdec : cashAddrDecode str = .ok (p, vals)) (hconv : convertBits vals 5 8 false = .ok (ver :: h))
    (hlen : h.length = 20) :
    CompletesIfBothFit .caChkdec s h p
      (BitVec.ofNat 32 ((if ver = 0x00#8 then 1 else if ver = 0x08#8 then 2 else 0) + 256 * ver.toNat)) 0 := by
  refine completesIfBothFit_of_finish hc ?_
  rw [resultOf_caChkdec hx, checkDecodeCashAddress_of_hash hdec hconv hlen, orRaise_ok, ← toNat_code_versionType,
    typeCode_or_version]

end Commands

/-- The errors that CA_DEC gives are the three of R177. -/
theorem cashAddrDecode_error_mem {str : Bytes} {e : ErrorCode} (h : cashAddrDecode str = .error e) :
    e ∈ [.malformedAddressString, .invalidCharacter, .invalidChecksum] := by
  have hcode := cashAddrDecode_raisesOnly str e h
  revert hcode
  cases e <;> decide

/-! ## The statements -/

/-- Settles O51: the type, then the size, then the symbols of the version byte and the hash. -/
theorem caPackOutcome : Obligations.CaPackOutcome := by
  intro s a h hc hx
  have hresult := resultOf_caPack a hx
  refine ⟨fun hn hn' => ?_, fun ha hn => ?_, fun tb sz ha hn => ?_⟩
  · exact failsWith_of_orRaise hresult (packAddressData_of_error (packVersion_of_other_type _ hn hn'))
  · exact failsWith_of_orRaise hresult (packAddressData_of_error (packVersion_of_other_size ha hn))
  · obtain ⟨vals, hpack, hlen, hfits, hstream, -⟩ := exists_packAddressData_eq (packVersion_of_rows ha hn)
    have hver : zext (BitVec.ofNat 8 (tb + sz)) = BitVec.ofNat 32 (tb + sz) := by
      have hall : ∀ t ∈ typeRows, ∀ z ∈ sizeRows,
          zext (BitVec.ofNat 8 (t.2 + z.2)) = BitVec.ofNat 32 (t.2 + z.2) := by decide
      exact hall _ ha _ hn
    refine ⟨vals, completesIfFits_of_finish hc ?_, hlen, hfits, hstream⟩
    rw [hresult, hpack, orRaise_ok, hver]

/-- Settles O54: the checks of the string's form, then its values, their number and the checksum. -/
theorem caDecOutcome : Obligations.CaDecOutcome := by
  intro s str hc hx
  have hresult := resultOf_caDec hx
  refine ⟨fun hbad => ?_, fun pre post hsplit hne hpre hpost hdigit hcase => ?_⟩
  · refine failsWith_of_orRaise hresult (cashAddrDecode_of_malformed ?_)
    obtain hcount | hhead | ⟨pre, post, rfl, hdigit⟩ | hcase := hbad
    · exact (malformed_iff str).mpr (.inl hcount)
    · obtain ⟨post, rfl⟩ := List.head?_eq_some_iff.mp hhead
      exact malformed_of_part (pre := []) (.inl rfl)
    · exact malformed_of_part (.inr hdigit)
    · exact (malformed_iff str).mpr (.inr (.inr (.inr hcase)))
  · have hwell : WellFormedAddress str pre post := ⟨hsplit, hne, hpre, hpost, hdigit, hcase⟩
    refine ⟨fun hbad => ?_, fun vals hvals => ⟨fun hshort => ?_, fun x ck hxck hck => ?_⟩⟩
    · exact failsWith_of_orRaise hresult (hwell.cashAddrDecode_of_bad_character hbad)
    · exact failsWith_of_orRaise hresult (hwell.cashAddrDecode_of_short hvals hshort)
    · subst hxck
      have hdec := hwell.cashAddrDecode_of_checksum hvals hck
      refine ⟨fun hpoly => failsWith_of_orRaise hresult (hdec.trans (if_neg hpoly)), fun hpoly => ?_⟩
      refine completesIfBothFit_of_finish hc ?_
      rw [hresult, hdec, if_pos hpoly, orRaise_ok]

/-- Settles O56: each step of the checked decoding, with its error. -/
theorem caChkdecOutcome : Obligations.CaChkdecOutcome := by
  intro s str hc hx
  have hresult := resultOf_caChkdec hx
  refine ⟨fun e he => ⟨cashAddrDecode_error_mem he, ?_⟩, fun p vals hdec => ⟨fun herr => ?_, fun d hd hlen => ?_,
    fun ver h hconv hlen => completesIfBothFit_caChkdec hc hx hdec hconv hlen⟩⟩
  · exact failsWith_of_orRaise hresult (checkDecodeCashAddress_of_error he)
  · exact failsWith_of_orRaise hresult (checkDecodeCashAddress_of_repack_error hdec herr)
  · exact failsWith_of_orRaise hresult (checkDecodeCashAddress_of_other_length hdec hd hlen)

/-- Settles O57: the string decodes to its two parts, and the symbols to the version byte and the hash. -/
theorem cashAddrRoundTrip : Obligations.CashAddrRoundTrip := by
  intro s₁ a h p hc₁ ha hn hp hx₁ haux₁ hfit
  obtain ⟨ver, hver⟩ := exists_packVersion_eq ha hn
  obtain ⟨vals, hpack, hlen, hfits, -, hconv⟩ := exists_packAddressData_eq hver
  have hdec := cashAddrDecode_cashAddrEncode hp hfits
  refine ⟨cashAddrEncode p vals, (completesIfFits_caChkenc hc₁ hx₁ haux₁ hpack).1 ?_, fun s₂ hc₂ hx₂ => ⟨?_, ?_⟩⟩
  · rw [cashAddrEncode_length, hlen]
    exact hfit
  · intro h20 hpfit houtfit
    rw [← res0_of_packVersion ha (h20 ▸ hver)]
    exact (completesIfBothFit_caChkdec hc₂ hx₂ hdec hconv h20).1 ⟨hpfit, h20 ▸ houtfit⟩
  · intro h20
    have hlen21 : (ver :: h).length ≠ 21 := fun hl => h20 (Nat.succ.inj hl)
    exact failsWith_of_orRaise (resultOf_caChkdec hx₂) (checkDecodeCashAddress_of_other_length hdec hconv hlen21)

/-- Settles O52: the symbol check, then the encoding. -/
theorem caEncOutcome : Obligations.CaEncOutcome := by
  intro s x p hc hx hp
  have hresult := resultOf_caEnc hx hp
  exact ⟨failsWith_of_large_symbol hresult, completesIfFits_of_symbols hc hresult⟩

/-- Settles O53: a byte stands at one place of the charset at most. -/
theorem reverseCharsetRule : Obligations.ReverseCharsetRule := fun _ _ => charsetValue_eq_some_iff

/-- Settles O55: the errors of the packing are the command's, and its symbols are encoded as CA_ENC does. -/
theorem caChkencOutcome : Obligations.CaChkencOutcome := by
  intro s a h p hc hx hp
  have hresult := resultOf_caChkenc a hx hp
  refine ⟨fun hn hn' => ?_, fun ha hn => ?_, fun ha hn => ?_⟩
  · exact failsWith_of_orRaise hresult
      (checkEncodeCashAddress_of_error p (packAddressData_of_error (packVersion_of_other_type _ hn hn')))
  · exact failsWith_of_orRaise hresult
      (checkEncodeCashAddress_of_error p (packAddressData_of_error (packVersion_of_other_size ha hn)))
  · obtain ⟨ver, hver⟩ := exists_packVersion_eq ha hn
    obtain ⟨vals, hpack, -⟩ := exists_packAddressData_eq hver
    exact ⟨ver, vals, hpack, completesIfFits_caChkenc hc hx hp hpack⟩

end Sys2Proof.Machine
end

section
/-! PROOFS. What a completion records and what it depends on: its code, its results, its operands
(spec/60_exceptions.md R201 to R204, R208, R209). -/

namespace Sys2Proof.Machine

/-! ## Codes -/

/-- Every command can succeed (spec/60_exceptions.md R202). -/
theorem zero_mem_raisedBy (i : Instr) : (0 : Byte) ∈ raisedBy i := by
  cases i
  case convbits f t pad => cases pad <;> simp [raisedBy]
  all_goals simp [raisedBy]

theorem completeErr_err (e : ErrorCode) (s : State) : (completeErr e s).err = true :=
  (err_iff _).mpr (ErrorCode_code_ne_zero e)

/-- A completion with a code other than 0 is an error completion. -/
theorem exists_completeErr_of_ecode_ne_zero {i : Instr} {s t : State} (h : exec i s = .next t)
    (hne : t.ecode ≠ 0) : ∃ e, t = completeErr e s := by
  obtain ⟨c, -, rfl⟩ | ⟨e, -, rfl⟩ := exec_next h
  · exact absurd (completeOk_ecode c s) hne
  · exact ⟨e, rfl⟩

/-! ## Operands above their capacity -/

theorem readOperand_of_none {snap : Option Bytes} (k : Bytes → Result) (h : snap = none) :
    readOperand snap k = .error .capacityExceeded := by
  rw [h, readOperand_none]

/-- The check of the second operand has the code of the first one's, so it does not matter which of them fails. -/
theorem readOperand_of_second_none {snapFst snapSnd : Option Bytes} (k : Bytes → Bytes → Result)
    (h : snapSnd = none) :
    (readOperand snapFst fun x => readOperand snapSnd (k x)) = .error .capacityExceeded := by
  cases snapFst with
  | none => rfl
  | some x => exact readOperand_of_none (k x) h

/-- A command that reads IN looks at its snapshot first (spec/60_exceptions.md R204). -/
theorem resultOf_of_snapIn_none {i : Instr} {s : State} (hreads : readsIn i = true) (h : s.snapIn = none) :
    resultOf i s = .error .capacityExceeded := by
  cases i
  case caExpand => cases hreads
  all_goals exact readOperand_of_none _ h

/-- A command that reads AUX looks at nothing but the IN snapshot before (spec/60_exceptions.md R204). -/
theorem resultOf_of_snapAux_none {i : Instr} {s : State} (hreads : readsAux i = true) (h : s.snapAux = none) :
    resultOf i s = .error .capacityExceeded := by
  cases i
  case caExpand => exact readOperand_of_none _ h
  case caCrchk | caVerify | caEnc | caChkenc => exact readOperand_of_second_none _ h
  all_goals cases hreads

/-! ## What a result depends on -/

/-- A command reads the parameters and the snapshots and no other field (spec/60_exceptions.md R209). -/
theorem resultOf_congr {s s' : State} (i : Instr) (hcfg : s.cfg = s'.cfg) (hin : s.snapIn = s'.snapIn)
    (haux : s.snapAux = s'.snapAux) : resultOf i s = resultOf i s' :=
  calc resultOf i s
    _ = resultOf i { s' with cfg := s.cfg, snapIn := s.snapIn, snapAux := s.snapAux } := by cases i <;> rfl
    _ = resultOf i s' := by rw [hcfg, hin, haux]

theorem eq_complete_of_exec {i : Instr} {s t : State} (h : exec i s = .next t) : t = complete (resultOf i s) s :=
  Host.Outcome.next.inj (h.symm.trans (exec_eq i s))

/-- The code and the results come from the result alone, whatever the state held. -/
theorem complete_results_eq (r : Result) (s s' : State) :
    (complete r s).ecode = (complete r s').ecode ∧ (complete r s).outLen = (complete r s').outLen ∧
      (complete r s).outBuf = (complete r s').outBuf ∧ (complete r s).res0 = (complete r s').res0 ∧
      (complete r s).res1 = (complete r s').res1 := by
  cases r with
  | ok c => exact ⟨rfl, rfl, rfl, rfl, rfl⟩
  | error e => exact ⟨rfl, rfl, rfl, rfl, rfl⟩

/-- CA_DEC and CA_CHKDEC return a string to AUX whenever they succeed (spec/60_exceptions.md R202). -/
theorem exists_aux_of_writesAux {i : Instr} {s : State} {c : Completed} (hw : writesAux i = true)
    (h : resultOf i s = .ok c) : ∃ p, c.aux = some p := by
  have hi : i = .caDec ∨ i = .caChkdec := by simpa [writesAux] using hw
  obtain rfl | rfl := hi
  · obtain ⟨_, _, h⟩ := readOperand_ok h
    obtain ⟨r, _, h⟩ := orRaise_eq_ok h
    obtain ⟨rfl, -, -⟩ := finish_ok h
    exact ⟨r.1, rfl⟩
  · obtain ⟨_, _, h⟩ := readOperand_ok h
    obtain ⟨r, _, h⟩ := orRaise_eq_ok h
    obtain ⟨rfl, -, -⟩ := finish_ok h
    exact ⟨r.pfx, rfl⟩

/-- Below the new AUX_LEN stands the string returned. -/
theorem writeAux_read_of_lt {p : Bytes} {s : State} {k : Nat} (hk : k < (writeAux (some p) s).auxLen.toNat) :
    (writeAux (some p) s).auxBuf.read k = p[k]? := by
  have hle : (BitVec.ofNat 16 p.length).toNat ≤ p.length := by
    rw [BitVec.toNat_ofNat]
    exact Nat.mod_le _ _
  rw [writeAux_some_auxLen] at hk
  rw [writeAux_some_auxBuf, Memory.read_writeBytes, if_pos (by omega), Nat.sub_zero]

/-- What a success returns to AUX is there as it was returned, whatever AUX held. -/
theorem completeOk_returned_eq {c : Completed} {p : Bytes} (hp : c.aux = some p) (s s' : State) :
    (completeOk c s).auxLen = (completeOk c s').auxLen ∧
      ∀ k, k < (completeOk c s).auxLen.toNat →
        (completeOk c s).auxBuf.read k = (completeOk c s').auxBuf.read k := by
  simp only [completeOk_auxLen, completeOk_auxBuf, hp]
  refine ⟨rfl, fun k hk => ?_⟩
  rw [writeAux_read_of_lt hk, writeAux_read_of_lt (s := s') hk]

/-! ## The statements -/

/-- Settles O27: only an error completion leaves a code other than 0. -/
theorem errorCompletionRecordsOnlyTheCode : Obligations.ErrorCompletionRecordsOnlyTheCode := by
  intro i s t h hne
  obtain ⟨e, rfl⟩ := exists_completeErr_of_ecode_ne_zero h hne
  exact ⟨rfl, rfl, rfl, completeErr_err e s, rfl, rfl, rfl, fun _ => rfl, fun _ => rfl,
    sameOutsideResults_completeErr e s⟩

/-- Settles O28: a success leaves 0, and an error its code. -/
theorem commandsRaiseOnlyTheirCodes : Obligations.CommandsRaiseOnlyTheirCodes := by
  intro i s t h
  obtain ⟨c, -, rfl⟩ | ⟨e, he, rfl⟩ := exec_next h
  · rw [completeOk_ecode]
    exact zero_mem_raisedBy i
  · exact resultOf_raisesOnly i s e he

/-- Settles O31: both runs complete with the same result; a success of the commands that write AUX returns
a string to it. -/
theorem resultsDependOnlyOnTheSnapshots : Obligations.ResultsDependOnlyOnTheSnapshots := by
  intro i s s' t t' hcfg hin haux h h'
  have ht : t = complete (resultOf i s) s := eq_complete_of_exec h
  have ht' : t' = complete (resultOf i s) s' := resultOf_congr i hcfg hin haux ▸ eq_complete_of_exec h'
  subst ht ht'
  obtain ⟨hcode, hlen, hout, hres0, hres1⟩ := complete_results_eq (resultOf i s) s s'
  refine ⟨hcode, hlen, hout, hres0, hres1, fun hw hok => ?_⟩
  cases hr : resultOf i s with
  | ok c =>
    obtain ⟨p, hp⟩ := exists_aux_of_writesAux hw hr
    exact completeOk_returned_eq hp s s'
  | error e =>
    rw [hr] at hok
    exact absurd hok (ErrorCode_code_ne_zero e)

/-- Settles O32: the missing operand is found before anything else is looked at. -/
theorem usedOperandAboveCapacityFails : Obligations.UsedOperandAboveCapacityFails := by
  rintro i s (⟨hreads, hnone⟩ | ⟨hreads, hnone⟩)
  · exact failsWith_of_result (resultOf_of_snapIn_none hreads hnone)
  · exact failsWith_of_result (resultOf_of_snapAux_none hreads hnone)

end Sys2Proof.Machine
end

section
/-! PROOFS. What sets DONE, what raises and lowers IRQ, and what a power-down leaves (spec/60_exceptions.md R210,
R213, R214, R224). -/

namespace Sys2Proof.Machine

/-! ## Who can set DONE -/

theorem exec_completed {i : Instr} {s t : State} (h : exec i s = .next t) : t.done = true ∧ t.phase = .idle := by
  obtain ⟨c, -, rfl⟩ | ⟨e, -, rfl⟩ := exec_next h
  · exact ⟨completeOk_done c s, completeOk_phase c s⟩
  · exact ⟨rfl, rfl⟩

theorem runLatched_phase {s t : State} (h : runLatched s = .next t) : t.phase = .idle := by
  obtain ⟨i, hi⟩ | rfl := runLatched_next h
  · exact (exec_completed hi).2
  · rfl

/-- A tick leaves DONE, or completes a command whose latency is used up (spec/70_reset_and_hazards.md R241). -/
theorem tick_done_cases {s t : State} (h : tick s = .next t) :
    t.done = s.done ∨ (s.phase = .busy ∧ s.rem ≤ 1 ∧ t.phase = .idle) := by
  cases hp : s.phase with
  | idle =>
    rw [tick_of_idle hp] at h
    cases h
    exact .inl rfl
  | busy =>
    by_cases hr : s.rem ≤ 1
    · rw [tick_of_due hp hr] at h
      exact .inr ⟨rfl, hr, runLatched_phase h⟩
    · have hcount : tick s = .next { s with rem := s.rem - 1 } := by simp [tick, hp, Nat.lt_of_not_le hr]
      rw [hcount] at h
      cases h
      exact .inl rfl

theorem SameBlock.done_eq {s t : State} (h : SameBlock s t) : t.done = s.done := by
  rw [SameBlock] at h
  rw [h]

theorem unlessBusy_done {s k : State} (hk : k.done = false) (h : s.done = false) : (unlessBusy s k).done = false := by
  unfold unlessBusy
  split
  · exact h
  · exact hk

theorem writeCtrl_done (v : Word) {s : State} (h : s.done = false) : (writeCtrl v s).done = false := by
  unfold writeCtrl
  split_ifs
  · rfl
  · exact h

/-- No write of the host sets DONE (spec/60_exceptions.md R210). -/
theorem writeWord_done (w : WindowWord) (v : Word) {s : State} (h : s.done = false) :
    (writeWord w v s).done = false := by
  cases w with
  | id | capIn | capAux | capOut | reserved => exact h
  | ctrl => exact writeCtrl_done v h
  | status => exact (clearStatus_done v s).trans (by rw [h, Bool.false_and])
  | cmd => exact unlessBusy_done (accept_done v s) h
  | inLen | auxLen | outLen | res0 | res1 => exact unlessBusy_done h h
  | bufByte b i =>
    cases b with
    | inp | aux | out => exact unlessBusy_done h h

theorem hostStep_done {s t : State} (hs : s.done = false) (h : hostStep s = .next t) : t.done = false := by
  obtain hsame | ⟨off, v, rest, -, rfl⟩ := hostStep_cases h
  · exact hsame.done_eq.trans hs
  · exact writeWord_done (s := { s with host := rest }) _ v hs

theorem releaseReset_done {s : State} (h : s.done = false) : (releaseReset s).done = false := by
  unfold releaseReset
  split
  · rfl
  · exact h
  · exact h

/-- What one step can do to DONE while it is 0: leave it 0, or be the tick that completes. -/
theorem step_done_cases {s t : State} (hs : s.done = false) (h : step s = .next t) :
    t.done = false ∨ (s.phase = .busy ∧ s.rem ≤ 1 ∧ EngineMoves s ∧ t.phase = .idle) := by
  obtain ⟨hm, htick⟩ | ⟨-, rfl⟩ | ⟨-, -, -, hhost⟩ | rfl | rfl | rfl := step_cases h
  · obtain hsame | ⟨hbusy, hrem, hidle⟩ := tick_done_cases htick
    · exact .inl (hsame.trans hs)
    · exact .inr ⟨hbusy, hrem, hm, hidle⟩
  · exact .inl hs
  · exact .inl (hostStep_done (s := s.passTurn) hs hhost)
  · exact .inl hs
  · exact .inl (releaseReset_done (s := s.passTurn) hs)
  · exact .inl hs

/-! ## IRQ -/

theorem irq_of_done {s : State} (h : s.done = true) : s.irq = s.ie := by
  rw [State.irq, h, Bool.and_true]

theorem irq_of_not_done {s : State} (h : s.done = false) : s.irq = false := by
  rw [State.irq, h, Bool.and_false]

theorem acknowledge_done (s : State) : (acknowledge s).done = false := Bool.and_false _

theorem acknowledge_ovr (s : State) : (acknowledge s).ovr = false := Bool.and_false _

/-- A CTRL write that sets IE shows DONE on IRQ; one that clears IE, or resets, lowers it. -/
theorem writeCtrl_irq (v : Word) (s : State) :
    (writeCtrl v s).irq = (v.getLsbD 0 && !v.getLsbD 1 && s.done) := by
  cases hsrst : v.getLsbD 1 with
  | false => simp [writeCtrl_of_srst_clear s hsrst, State.irq]
  | true => simp [writeCtrl, hsrst, State.irq]

/-- The state after the host's write, from the word it names. -/
theorem eq_writeWord_of_step {s t : State} {off : Nat} {v : Word} {w : WindowWord} {rest : List HostOp}
    (hm : HostMoves s) (hh : s.host = .write (s.cfg.base + off) 4 v :: rest) (hw : WordAt s.cfg off w)
    (h : step s = .next t) : t = writeWord w v s.issued :=
  Host.Outcome.next.inj (h.symm.trans (step_write_word hm hh hw))

/-! ## Power -/

/-- A listed turn is taken in the state without it. -/
theorem step_of_turn {s : State} {u : Turn} {us : List Turn} (h : s.turns = u :: us) :
    step s = takeTurn u { s with turns := us } := by
  simp [step, stepTurn, h]

/-- Without power neither the host nor the engine has a step (spec/60_exceptions.md R224). -/
theorem step_of_powerLost {s : State} (hl : s.line = .powerLost)
    (hturn : s.turns = [] ∨ s.turns.head? = some .host ∨ s.turns.head? = some .engine) :
    step s = .refused .poweredDown := by
  obtain hnil | hhead | hhead := hturn
  · simp [step, stepTurn, hnil, defaultTurn, hostTurn, hl]
  · obtain ⟨us, hts⟩ := List.head?_eq_some_iff.mp hhead
    simp [step_of_turn hts, takeTurn, hostTurn, hl]
  · obtain ⟨us, hts⟩ := List.head?_eq_some_iff.mp hhead
    simp [step_of_turn hts, takeTurn, engineTurn, hl]

theorem run_succ {n : Nat} {s u : State} (h : step s = .next u) : core.run (n + 1) s = core.run n u := by
  have hstep : core.step s = .next u := h
  simp only [Host.Core.run, hstep]

/-- Assertion and release of the reset input are the hardware reset, from whatever the input was. -/
theorem run_assert_release {s : State} {ts : List Turn} (h : s.turns = .assertReset :: .releaseReset :: ts) :
    core.run 2 s = .next (hardReset { s with turns := ts, line := .asserted }) := by
  have hassert : step s = .next { s with turns := .releaseReset :: ts, line := .asserted } := step_of_turn h
  have hrelease : step { s with turns := .releaseReset :: ts, line := .asserted } =
      .next (hardReset { s with turns := ts, line := .asserted }) := rfl
  rw [run_succ hassert, run_succ hrelease]
  rfl

/-! ## The statements -/

/-- Settles O19: every other way a step can go leaves DONE at 0. -/
theorem doneIsSetOnlyByCompletion : Obligations.DoneIsSetOnlyByCompletion := by
  intro s t hs h ht
  exact (step_done_cases hs h).resolve_left (by simp [ht])

/-- Settles O25: IRQ is IE while DONE is 1 and 0 while it is 0; a completion sets DONE, `ack` and an acceptance
clear it. -/
theorem interruptLineRule : Obligations.InterruptLineRule := by
  refine fun s => ⟨?completion, ?ack, ?ctrl, ?acceptance⟩
  case completion =>
    intro i t h
    obtain ⟨hdone, -⟩ := exec_completed h
    obtain ⟨-, hie, -⟩ := sameOutsideResults_exec h
    rw [irq_of_done hdone, hie]
  case ack =>
    intro rest t hm hh h
    obtain rfl : t = acknowledge s.issued := eq_writeWord_of_step (off := 0x008) hm hh (.register (by decide) rfl) h
    exact ⟨irq_of_not_done (acknowledge_done _), acknowledge_ovr _, rfl⟩
  case ctrl =>
    intro v rest t hm hh h
    obtain rfl : t = writeCtrl v s.issued := eq_writeWord_of_step hm hh (.register (by decide) rfl) h
    exact writeCtrl_irq v s.issued
  case acceptance =>
    intro v rest t hm hidle hh h
    obtain rfl : t = writeWord .cmd v s.issued := eq_writeWord_of_step hm hh (.register (by decide) rfl) h
    have haccept : writeWord .cmd v s.issued = accept v s.issued := unlessBusy_of_idle _ hidle
    exact haccept ▸ irq_of_not_done (accept_done v s.issued)

/-- Settles O26: without power the step is refused, and the two reset turns lead to the hardware reset. -/
theorem powerLossIsRefusedUntilReset : Obligations.PowerLossIsRefusedUntilReset := by
  refine ⟨fun s hdown => ?_, fun s hl => ⟨step_of_powerLost hl, fun ts hts => ?_⟩⟩
  · obtain ⟨us, hts⟩ := List.head?_eq_some_iff.mp hdown
    exact ⟨_, step_of_turn hts, rfl⟩
  · exact ⟨_, run_assert_release hts, rfl, resetValues_resetOf s.cfg, rfl⟩

end Sys2Proof.Machine
end

section
/-! PROOFS. The turns that change nothing, the hardware reset and the soft reset (spec/70_reset_and_hazards.md R230,
R231, R241, spec/60_exceptions.md R224). -/

namespace Sys2Proof.Machine

/-! ## Taking a turn -/

theorem passTurn_of_no_turns {s : State} (h : s.turns = []) : s.passTurn = s := by
  cases s
  cases h
  rfl

/-- `step_of_turn` from the head of the turns alone. -/
theorem step_of_listed_turn {s : State} {u : Turn} (h : s.turns.head? = some u) : step s = takeTurn u s.passTurn := by
  obtain ⟨us, hts⟩ := List.head?_eq_some_iff.mp h
  rw [step_of_turn hts, State.passTurn, hts, List.tail_cons]

/-- With power the host moves in reset as outside it (log 12). -/
theorem hostTurn_of_powered {s : State} (h : s.line ≠ .powerLost) : hostTurn s = hostStep s := by
  unfold hostTurn
  split
  · rfl
  · rfl
  · exact absurd ‹_› h

/-- With no turn listed the host moves, unless a BUSY engine ticks (log 7). -/
theorem defaultTurn_of_not_ticking {s : State} (h : ¬(s.line = .released ∧ s.phase = .busy)) :
    defaultTurn s = hostTurn s := by
  unfold defaultTurn
  split
  · exact absurd ⟨‹_›, ‹_›⟩ h
  · rfl

/-- Whenever the host has the turn, in reset too, the step is its step. -/
theorem step_of_hostTurn {s : State} (hl : s.line ≠ .powerLost)
    (hturn : s.turns.head? = some .host ∨ (s.turns = [] ∧ ¬(s.line = .released ∧ s.phase = .busy))) :
    step s = hostStep s.passTurn := by
  obtain hhead | ⟨hnil, htick⟩ := hturn
  · rw [step_of_listed_turn hhead]
    exact hostTurn_of_powered hl
  · have hstep : step s = defaultTurn s := by simp [step, stepTurn, hnil]
    rw [hstep, defaultTurn_of_not_ticking htick, hostTurn_of_powered hl, passTurn_of_no_turns hnil]

/-! ## Turns that change nothing -/

/-- Above 1 the latency counts down (spec/70_reset_and_hazards.md R241). -/
theorem tick_of_counting {s : State} (hb : s.phase = .busy) (hr : 1 < s.rem) :
    tick s = .next { s with rem := s.rem - 1 } := by
  simp [tick, hb, hr]

theorem engineTurn_of_asserted {s : State} (h : s.line = .asserted) : engineTurn s = .next s := by
  rw [engineTurn, h]

theorem hostStep_of_no_instruction {s : State} (h : s.host = []) : hostStep s = .next s := by
  rw [hostStep, h]

/-! ## Hardware reset -/

/-- An access in the window during reset is refused, before its width and place are looked at
(spec/70_reset_and_hazards.md R230, log 11). -/
theorem admit_of_asserted {off width : Nat} {s : State} (k : Nat → Stepped) (hl : s.line = .asserted)
    (ho : off < 0x10000) : admitAccess (s.cfg.base + off) width s k = .refused .accessDuringReset := by
  have hin : ¬(s.cfg.base + off < s.cfg.base ∨ s.cfg.base + 0x10000 ≤ s.cfg.base + off) := by omega
  unfold admitAccess
  rw [if_neg hin, hl]

theorem memWrite_of_asserted {off width : Nat} {s : State} (v : Word) (hl : s.line = .asserted) (ho : off < 0x10000) :
    memWrite (s.cfg.base + off) width v s = .refused .accessDuringReset := admit_of_asserted _ hl ho

theorem memRead_of_asserted {off width : Nat} {s : State} (k : Word → State → Stepped) (hl : s.line = .asserted)
    (ho : off < 0x10000) : memRead (s.cfg.base + off) width s k = .refused .accessDuringReset :=
  admit_of_asserted _ hl ho

/-- The host's turn during reset issues its next instruction. -/
theorem step_of_asserted {s : State} {op : HostOp} {rest : List HostOp} (hl : s.line = .asserted)
    (hturn : s.turns.head? = some .host ∨ s.turns = []) (hh : s.host = op :: rest) :
    step s = hostExec op s.issued := by
  have hpowered : s.line ≠ .powerLost := by simp [hl]
  have hnotick : ¬(s.line = .released ∧ s.phase = .busy) := by simp [hl]
  rw [step_of_hostTurn hpowered (hturn.imp_right fun hnil => ⟨hnil, hnotick⟩)]
  simp [hostStep, hh, State.issued, State.passTurn]

theorem resetValues_hardReset (s : State) : resetValues (hardReset s) := resetValues_resetOf s.cfg

theorem releaseReset_of_asserted {s : State} (h : s.line = .asserted) : releaseReset s = hardReset s := by
  rw [releaseReset, h]

/-! ## Soft reset -/

/-- With SRST = 1 a CTRL write resets and ignores the rest of the word (spec/70_reset_and_hazards.md R231). -/
theorem writeCtrl_of_srst_set {v : Word} (s : State) (h : v.getLsbD 1 = true) : writeCtrl v s = resetBlock s :=
  if_pos h

/-! ## The statements -/

/-- Settles O7: the engine's turn is a tick or, in reset, nothing; the host's turn with an empty list is nothing. -/
theorem tickCountsDownAndIdleKeepsState : Obligations.TickCountsDownAndIdleKeepsState := by
  refine fun s => ⟨?counting, ?idle, ?inReset, ?hostDone⟩
  case counting =>
    intro hm hb hr
    rw [step_of_engineMoves hm]
    exact tick_of_counting (s := s.passTurn) hb hr
  case idle =>
    intro hm hidle
    rw [step_of_engineMoves hm]
    exact tick_of_idle (s := s.passTurn) hidle
  case inReset =>
    intro hl hhead
    rw [step_of_listed_turn hhead]
    exact engineTurn_of_asserted (s := s.passTurn) hl
  case hostDone =>
    rintro ⟨hl, hturn⟩ hidle hh
    have hpowered : s.line ≠ .powerLost := by simp [hl]
    have hnotick : ¬(s.line = .released ∧ s.phase = .busy) := by simp [hidle]
    rw [step_of_hostTurn hpowered (hturn.imp_right fun hnil => ⟨hnil.1, hnotick⟩)]
    exact hostStep_of_no_instruction (s := s.passTurn) hh

/-- Settles O23: all three accesses meet the gate, which is shut, and the release is the hardware reset. -/
theorem hardwareResetRule : Obligations.HardwareResetRule := by
  refine fun s hl => ⟨?access, ?release⟩
  case access =>
    intro off width dst v msk rest ho hturn hh
    have hline : s.issued.line = .asserted := hl
    obtain hh | hh | hh := hh
    · rw [step_of_asserted hl hturn hh, hostExec]
      exact memWrite_of_asserted v hline ho
    · rw [step_of_asserted hl hturn hh, hostExec]
      exact memRead_of_asserted _ hline ho
    · rw [step_of_asserted hl hturn hh, hostExec]
      exact memRead_of_asserted _ hline ho
  case release =>
    intro hhead
    have hstep : step s = .next (hardReset s.passTurn) := by
      rw [step_of_listed_turn hhead]
      exact congrArg Host.Outcome.next (releaseReset_of_asserted (s := s.passTurn) hl)
    exact ⟨_, hstep, rfl, resetValues_hardReset _, rfl, rfl⟩

/-- Settles O24: the write of CTRL is `resetBlock` in the state without the instruction, in either phase. -/
theorem softResetRule : Obligations.SoftResetRule := by
  intro s v rest hm hh hsrst
  have hstep : step s = .next (resetBlock s.issued) := by
    rw [step_write_word hm hh (WordAt.register (by decide) rfl)]
    exact congrArg _ (writeCtrl_of_srst_set s.issued hsrst)
  exact ⟨_, hstep, resetValues_resetBlock _, rfl, hm.1, congrArg List.tail hh, rfl, rfl, rfl, rfl⟩

end Sys2Proof.Machine
end

section
/-! PROOFS. The default run of the machine: the poll of STATUS, the command word placed for the next step, the ticks
of a BUSY engine until it completes, and the host's `loadbuf` (spec/30_encoding.md R80, R81,
spec/70_reset_and_hazards.md R240). -/

namespace Sys2Proof.Machine

/-! ## A poll -/

/-- An admitted read of a word that draws no free value answers the word's value (spec/20_memory.md R52, R55). -/
theorem memRead_of_wordAt {off : Nat} {v : Word} {w : WindowWord} {s : State} (k : Word → State → Stepped)
    (hl : s.line = .released) (hw : WordAt s.cfg off w) (hr : readWord w s = (v, s)) :
    memRead (s.cfg.base + off) 4 s k = k v s := by
  obtain ⟨ho, h4, rfl⟩ := hw
  rw [memRead, admit_of_aligned _ hl ho h4, hr]

/-- A poll of a word that draws no free value goes on if the masked value matches, and otherwise keeps its place in
the host's list (spec/30_encoding.md R80). -/
theorem step_poll_word {s : State} {off : Nat} {msk val v : Word} {w : WindowWord} {rest : List HostOp}
    (hm : HostMoves s) (hh : s.host = .poll (s.cfg.base + off) 4 msk val :: rest) (hw : WordAt s.cfg off w)
    (hr : readWord w s.issued = (v, s.issued)) :
    step s = .next (if v &&& msk = val then s.issued else s.passTurn) := by
  have hrestore : { s.issued with host := .poll (s.cfg.base + off) 4 msk val :: s.issued.host } = s.passTurn := by
    simp only [State.issued, State.passTurn, hh, List.tail_cons]
  rw [step_of_hostMoves hm hh, hostExec]
  refine (memRead_of_wordAt (s := s.issued) _ hm.1 hw hr).trans ?_
  rw [hrestore]
  exact (apply_ite _ _ _ _).symm

/-! ## The placed command word -/

/-- The whole number of a command word is that word (log 21). -/
theorem tableWord_toNat (w : Word) : tableWord 32 w.toNat = w := by
  rw [tableWord, Nat.mod_eq_of_lt w.isLt, BitVec.ofNat_toNat, BitVec.setWidth_eq]

/-! ## Ticks until the completion -/

/-- Whatever the latched word is, its run completes (spec/20_memory.md R58). -/
theorem exists_runLatched (s : State) : ∃ t, runLatched s = .next t ∧ t.phase = .idle ∧ t.done = true := by
  unfold runLatched
  split
  case h_1 i _ =>
    obtain ⟨hdone, hidle⟩ := exec_completed (exec_eq i s)
    exact ⟨_, exec_eq i s, hidle, hdone⟩
  case h_2 => exact ⟨_, rfl, rfl, rfl⟩

/-- With no turn listed a BUSY engine ticks (log 7). -/
theorem step_of_busy {s : State} (hl : s.line = .released) (ht : s.turns = []) (hb : s.phase = .busy) :
    step s = tick s := by
  rw [step_of_engineMoves ⟨hl, .inr ⟨ht, hb⟩⟩, passTurn_of_no_turns ht]

/-- With no turn listed, `n` ticks count REM down from `n + 1`, and the next one completes. -/
theorem run_completes (n : Nat) {s : State} (hl : s.line = .released) (ht : s.turns = []) (hb : s.phase = .busy)
    (hr : s.rem = n + 1) : ∃ t, core.run (n + 1) s = .next t ∧ t.phase = .idle ∧ t.done = true := by
  induction n generalizing s with
  | zero =>
    obtain ⟨t, hcompletes, ht'⟩ := exists_runLatched { s with rem := 0 }
    have hstep : step s = .next t := by rw [step_of_busy hl ht hb, tick_of_due hb hr.le, hcompletes]
    exact ⟨t, run_succ hstep, ht'⟩
  | succ n ih =>
    have hstep : step s = .next { s with rem := s.rem - 1 } := by
      rw [step_of_busy hl ht hb, tick_of_counting hb (by omega)]
    rw [run_succ hstep]
    exact ih (s := { s with rem := s.rem - 1 }) hl ht hb (congrArg (· - 1) hr)

/-! ## The host loading a buffer -/

/-- The host alone moves: no reset, no turn listed, no command running (log 7). -/
structure HostAlone (s : State) : Prop where
  line : s.line = .released
  turns : s.turns = []
  phase : s.phase = .idle

theorem HostAlone.hostMoves {s : State} (h : HostAlone s) : HostMoves s := ⟨h.line, .inr ⟨h.turns, h.phase⟩⟩

/-- `s` with `n` in the length register and `m` in the buffer `b`, and the instructions `ops` still to issue. -/
def State.load (s : State) (b : Buf) (n : BitVec 16) (m : Memory) (ops : List HostOp) : State :=
  match b with
  | .inp => { s with host := ops, inLen := n, inBuf := m }
  | .aux => { s with host := ops, auxLen := n, auxBuf := m }
  | .out => { s with host := ops, outLen := n, outBuf := m }

section
variable {s : State} {b : Buf} {i : Nat} {n : BitVec 16} {m : Memory} {op : HostOp} {ops : List HostOp}

theorem load_cfg : (s.load b n m ops).cfg = s.cfg := by
  cases b <;> rfl

theorem load_phase : (s.load b n m ops).phase = s.phase := by
  cases b <;> rfl

theorem load_host : (s.load b n m ops).host = ops := by
  cases b <;> rfl

theorem HostAlone.load (h : HostAlone s) : HostAlone (s.load b n m ops) := by
  cases b <;> exact ⟨h.line, h.turns, h.phase⟩

theorem issued_load (h : s.turns = []) : (s.load b n m (op :: ops)).issued = s.load b n m ops := by
  cases b <;> simp [State.load, State.issued, h]

/-- A byte extended to a word is what a buffer word stores of it (spec/20_memory.md R53). -/
theorem ofNat_toNat_zext_mod (x : Byte) : BitVec.ofNat 8 ((zext x).toNat % 256) = x := by
  rw [toNat_zext, Nat.mod_eq_of_lt x.isLt, BitVec.ofNat_toNat, BitVec.setWidth_eq]

/-- A length written as a word is what a length register keeps of it (spec/10_state.md R27, R28). -/
theorem ofNat_toNat_ofNat_mod (k : Nat) : BitVec.ofNat 16 ((BitVec.ofNat 32 k).toNat % 65536) = BitVec.ofNat 16 k := by
  apply BitVec.eq_of_toNat_eq
  simp only [BitVec.toNat_ofNat]
  omega

/-- The write of a byte stores it (spec/20_memory.md R53). -/
theorem writeWord_bufByte_load (x : Byte) (hb : b ≠ .out) (h : s.phase = .idle) :
    writeWord (.bufByte b i) (zext x) (s.load b n m ops) = s.load b n (m.write i x) ops := by
  cases b with
  | inp =>
    rw [writeWord_inp_of_idle i (zext x) (load_phase.trans h), ofNat_toNat_zext_mod]
    rfl
  | aux =>
    rw [writeWord_aux_of_idle i (zext x) (load_phase.trans h), ofNat_toNat_zext_mod]
    rfl
  | out => exact absurd rfl hb

/-- The write of the length sets the register (spec/10_state.md R27, R28). -/
theorem writeWord_length_load (k : Nat) (hb : b ≠ .out) (h : s.phase = .idle) :
    writeWord (registerAt (lengthOffset b)) (BitVec.ofNat 32 k) (s.load b n m ops) =
      s.load b (BitVec.ofNat 16 k) m ops := by
  cases b with
  | inp =>
    refine (writeWord_inLen_of_idle (BitVec.ofNat 32 k) (load_phase.trans h)).trans ?_
    rw [ofNat_toNat_ofNat_mod]
    rfl
  | aux =>
    refine (writeWord_auxLen_of_idle (BitVec.ofNat 32 k) (load_phase.trans h)).trans ?_
    rw [ofNat_toNat_ofNat_mod]
    rfl
  | out => exact absurd rfl hb

theorem lengthOffset_register (b : Buf) : lengthOffset b < 0x4000 ∧ lengthOffset b % 4 = 0 := by
  cases b <;> decide

/-- The host's write at an offset of the window, in a state that is being loaded. -/
theorem step_load {off : Nat} {v : Word} {w : WindowWord} (ha : HostAlone s) (hw : WordAt s.cfg off w) :
    step (s.load b n m (opWrite s.cfg off v :: ops)) = .next (writeWord w v (s.load b n m ops)) := by
  rw [← load_cfg (s := s) (b := b) (n := n) (m := m) (ops := opWrite s.cfg off v :: ops)] at hw
  rw [step_write_word ha.load.hostMoves (load_host.trans (by rw [load_cfg]; rfl)) hw, issued_load ha.turns]

/-- The byte writes of `loadbuf` store the string from index `i` up, one in each step. -/
theorem run_loadBytes (bs : Bytes) (hb : b ≠ .out) (hc : s.cfg.wf = true) (ha : HostAlone s)
    (hfit : i + bs.length ≤ capacity s.cfg b) :
    core.run bs.length (s.load b n m (loadBytes s.cfg b i bs ++ ops)) = .next (s.load b n (m.writeBytes i bs) ops) := by
  induction bs generalizing i m with
  | nil => rfl
  | cons x xs ih =>
    rw [List.length_cons] at hfit
    have hstep : step (s.load b n m (loadBytes s.cfg b i (x :: xs) ++ ops)) =
        .next (s.load b n (m.write i x) (loadBytes s.cfg b (i + 1) xs ++ ops)) := by
      rw [← writeWord_bufByte_load x hb ha.phase]
      exact step_load ha (.bufByte hc (by omega))
    rw [List.length_cons, run_succ hstep]
    exact ih (by omega)

end

/-- `loadbuf` writes the length, then the bytes (spec/30_encoding.md R81). -/
theorem run_loadbuf {s : State} {b : Buf} {bs : Bytes} {rest : List HostOp} (hb : b ≠ .out) (hc : s.cfg.wf = true)
    (ha : HostAlone s) (hfit : bs.length ≤ capacity s.cfg b) (hh : s.host = loadbuf s.cfg b bs ++ rest) :
    core.run (bs.length + 1) s =
      .next (s.load b (BitVec.ofNat 16 bs.length) ((s.buf b).writeBytes 0 bs) rest) := by
  obtain ⟨n, hload⟩ : ∃ n, s = s.load b n (s.buf b) s.host := by
    cases b
    exacts [⟨s.inLen, rfl⟩, ⟨s.auxLen, rfl⟩, ⟨s.outLen, rfl⟩]
  obtain ⟨ho, h4⟩ := lengthOffset_register b
  have hstep : step s =
      .next (s.load b (BitVec.ofNat 16 bs.length) (s.buf b) (loadBytes s.cfg b 0 bs ++ rest)) := by
    rw [← writeWord_length_load (n := n) bs.length hb ha.phase, ← step_load ha (.register ho h4), ← List.cons_append,
      ← loadbuf, ← hh, ← hload]
  rw [run_succ hstep]
  exact run_loadBytes bs hb hc ha (by omega)

/-- What a buffer holds after a string is written from index 0 up. -/
theorem read_writeBytes_zero (m : Memory) (bs : Bytes) (k : Nat) :
    (m.writeBytes 0 bs).read k = if k < bs.length then bs[k]? else m.read k := by
  simp [Memory.read_writeBytes]

/-! ## The statements -/

/-- Settles O20: STATUS is at its offset, and the poll compares its value. -/
theorem pollOfStatusRepeatsUntilItMatches : Obligations.PollOfStatusRepeatsUntilItMatches := by
  intro s msk val rest hm hh
  have hread : readWord .status s.issued = (statusValue s, s.issued) :=
    congrArg (·, s.issued) (statusWord_eq_statusValue s.issued)
  have hstep := step_poll_word hm hh (WordAt.register (by decide) rfl) hread
  refine ⟨fun hmatch => ?_, fun hmiss => ?_⟩
  · rw [hstep, if_pos hmatch]
  · rw [hstep, if_neg hmiss]

/-- Settles O5: the engine's turn stands first and is due, and the placed word decodes to the command (O2). -/
theorem fetchedWordRunsInTheNextStep : Obligations.FetchedWordRunsInTheNextStep := by
  intro s i hwf
  have hm : EngineMoves (s.withFetchWord 32 (encode i).toNat) := ⟨rfl, .inl rfl⟩
  have hword : decode (tableWord 32 (encode i).toNat) = .ok i := by
    rw [tableWord_toNat, decodeOfEncodeGivesTheCommand i hwf]
  rw [step_of_engineMoves hm, tick_of_due rfl le_rfl]
  exact runLatched_of_decode hword

/-- Settles O8: REM is at least 1, so its last tick is the completion. -/
theorem busyCommandCompletes : Obligations.BusyCommandCompletes := by
  intro s hl ht hb hr
  obtain ⟨n, hn⟩ : ∃ n, s.rem = n + 1 := ⟨s.rem - 1, by omega⟩
  rw [hn]
  exact run_completes n hl ht hb hn

/-- Settles O21: the run of `loadbuf` into IN and into AUX, and what the buffer then reads as. -/
theorem loadbufFillsTheBuffer : Obligations.LoadbufFillsTheBuffer := by
  intro s bs rest hc hl ht hidle
  have ha : HostAlone s := ⟨hl, ht, hidle⟩
  refine ⟨fun hfit hh => ?inp, fun hfit hh => ?aux⟩
  case inp => exact ⟨_, run_loadbuf (b := .inp) (by decide) hc ha hfit hh, read_writeBytes_zero s.inBuf bs⟩
  case aux => exact ⟨_, run_loadbuf (b := .aux) (by decide) hc ha hfit hh, read_writeBytes_zero s.auxBuf bs⟩

end Sys2Proof.Machine
end
